-- ==== Sys2Proof/Word.lean ====
section
/-! DEFINITION. The byte and the word of the CCE (00_scope.md R12). Every value is unsigned. -/

namespace Sys2Proof

/-- A byte is 8 bits (R12). -/
abbrev Byte := BitVec 8

/-- A word is 32 bits; every CCE register is one word (R11, R12). -/
abbrev Word := BitVec 32

end Sys2Proof
end

