-- ==== Sys2Proof/Config.lean ====
section
/-! DEFINITION. What an implementation fixes (the spec's parameters, 00_scope.md R6 to R10, 20_memory.md R61) and the
free values the spec leaves open (00_scope.md R8, 70_reset_and_hazards.md R242, R243). -/

namespace Sys2Proof

/-- The implementation parameters that are numbers or sets (00_scope.md section 3, 93_implementation_defined.md I9). A
machine has one such record for its whole life: it stands in State (log 1), and no step changes it. -/
structure Params where
  /-- `DBUF_SIZE`, bytes of the data buffer (R6). -/
  dbufSize : Nat
  /-- `B`, the block length of the external cipher in bytes (R7). -/
  blockSize : Nat
  /-- 16 is in `BC_KEY_SIZES` (R9). -/
  key16 : Bool
  /-- 24 is in `BC_KEY_SIZES` (R9). -/
  key24 : Bool
  /-- 32 is in `BC_KEY_SIZES` (R9). -/
  key32 : Bool
  /-- `NCELLS`, the number of secure cells (R10). -/
  nCells : Nat
  /-- `CCE_BASE`, the bus address of the window (20_memory.md R61). -/
  cceBase : Nat
  deriving DecidableEq, Repr

/-- The legal values of the parameters (R6, R7, R9, R10; 20_memory.md R61: the window is aligned to its 128 KiB). -/
abbrev Params.Legal (p : Params) : Prop :=
  64 ≤ p.dbufSize ∧ p.dbufSize ≤ 65536 ∧ p.dbufSize % 4 = 0 ∧
  1 ≤ p.blockSize ∧ p.blockSize ≤ 32 ∧
  (p.key16 || p.key24 || p.key32) = true ∧
  1 ≤ p.nCells ∧ p.nCells ≤ 8 ∧
  p.cceBase % 0x20000 = 0

/-- The default parameters (R6, R7, R9, R10). `CCE_BASE` has none, and 0 stands for it (log 1). -/
def Params.default : Params :=
  { dbufSize := 4096, blockSize := 16, key16 := true, key24 := true, key32 := true, nCells := 4,
    cceBase := 0 }

/-- A block cipher port (R8, R100): for a key and a block, byte `i` of the answer. Any two total functions from a key and
a block to a block of the same length can be given so, and nothing else is assumed of them. -/
structure CipherPort where
  /-- Byte `i` of `BC_ENC(key, block)`. -/
  encByte : List Byte → List Byte → Nat → Byte
  /-- Byte `i` of `BC_DEC(key, block)`. -/
  decByte : List Byte → List Byte → Nat → Byte

/-- FREE VALUE (R8, I7, log 3): byte `i` of what the external cipher's encryption answers for a key and a block. -/
opaque Config.cipherEncByte : List Byte → List Byte → Nat → Byte

/-- FREE VALUE (R8, I7, log 3): byte `i` of what the external cipher's decryption answers for a key and a block. -/
opaque Config.cipherDecByte : List Byte → List Byte → Nat → Byte

/-- The external cipher of the machine (R8). -/
def Config.cipher : CipherPort := { encByte := Config.cipherEncByte, decByte := Config.cipherDecByte }

/-- FREE VALUE (R242, I2, log 2): the byte at an address (second argument) after the power-on of a given number (first
argument), until it is written. -/
opaque Config.powerOnByte : Nat → Nat → Byte

/-- FREE VALUE (R243, I3, log 8): the byte at an address (second argument) of the DST range of a command that a reset
aborted, for the abort of a given number (first argument). -/
opaque Config.abortedByte : Nat → Nat → Byte

end Sys2Proof
end

