-- ==== Sys2Proof/Machine/State.lean ====
section
/-! DEFINITION. The state of the CCE as plain data (10_state.md), the reasons a step can stop, and the state right after
the first power-on reset (70_reset_and_hazards.md R241, R242, R244). -/

namespace Sys2Proof.Machine

/-- The registers the host writes, and RESULT (10_state.md R22). Of CTRL only IE holds state (R24). -/
structure Regs where
  /-- CTRL.IE, the completion interrupt enable (R24). -/
  ie : Bool
  /-- SRC (R36). -/
  src : Word
  /-- DST (R37). -/
  dst : Word
  /-- LEN (R38). -/
  len : Word
  /-- AUX (R39). -/
  aux : Word
  /-- AUXLEN (R40). -/
  auxlen : Word
  /-- RESULT (R41). -/
  result : Word
  deriving DecidableEq, Repr

/-- The fields of STATUS that hold state of their own (10_state.md R25 to R30); the others mirror unit state. -/
structure Status where
  /-- BUSY (R26). -/
  busy : Bool
  /-- DONE (R27). -/
  done : Bool
  /-- ERR (R28). -/
  err : Bool
  /-- OVR (R29). -/
  ovr : Bool
  /-- ERRCODE (R30). -/
  errCode : BitVec 4
  deriving DecidableEq, Repr

/-- The command latch (10_state.md R43). -/
structure Latch where
  /-- L_OP. -/
  op : BitVec 8
  /-- L_RSV. -/
  rsv : BitVec 24
  /-- L_SRC. -/
  src : Word
  /-- L_DST. -/
  dst : Word
  /-- L_LEN. -/
  len : Word
  /-- L_AUX. -/
  aux : Word
  /-- L_AUXLEN. -/
  auxlen : Word
  deriving DecidableEq, Repr

/-- The CC unit (10_state.md R44). -/
structure CcUnit where
  /-- CC_S: 4 constants, 8 key words, the counter's low and high word, 2 nonce words. -/
  s : Vector Word 16
  /-- CC_KS, the keystream block. -/
  ks : Vector Byte 64
  /-- CC_CUR, the index of the next unused keystream byte (R45: below 64, which its 6 bits say). -/
  cur : BitVec 6
  /-- CC_KEYED. -/
  keyed : Bool
  deriving DecidableEq, Repr

/-- SHA_ST, the lifecycle state of the SHA unit (10_state.md R46). The value 3 does not exist (R32). -/
inductive ShaState where
  /-- No engine exists. -/
  | idle
  /-- Created, accepting updates. -/
  | active
  /-- Digest taken. -/
  | finalized
  deriving DecidableEq, Repr

/-- The SHA unit (10_state.md R46). -/
structure ShaUnit where
  /-- SHA_H. -/
  h : Vector Word 5
  /-- SHA_BUF, the pending-data buffer. -/
  buf : Vector Byte 64
  /-- SHA_CURLEN, how many bytes are buffered (R47: below 64, which its 6 bits say). -/
  curlen : BitVec 6
  /-- SHA_BITLEN, the total bit length. -/
  bitlen : BitVec 64
  /-- SHA_ST. -/
  st : ShaState
  deriving DecidableEq, Repr

/-- The BC unit (10_state.md R48). -/
structure BcUnit where
  /-- BC_KEY. -/
  key : Vector Byte 32
  /-- BC_KEYLEN. -/
  keyLen : Nat
  /-- BC_KEYED. -/
  keyed : Bool
  /-- BC_PREV, the IV latch, `B` bytes. -/
  prev : List Byte
  deriving DecidableEq, Repr

/-- A secure cell of the ZW unit (10_state.md R49). -/
structure SecCell where
  /-- `open`. -/
  isOpen : Bool
  /-- `base`. -/
  base : Word
  /-- `len`. -/
  len : Word
  deriving DecidableEq, Repr

/-- The data buffer (10_state.md R53, 20_memory.md R60). `cells` lists the bytes that were written since power-on, by
address; a byte it does not list holds the free value of the power-on numbered `epoch` (R242, log 2). -/
structure Memory where
  /-- The written bytes. -/
  cells : List Host.Cell
  /-- Which power-on the unwritten bytes come from. -/
  epoch : Nat
  deriving DecidableEq, Repr

/-- A host access of any number of bytes (20_memory.md R62, R63, R68), at a place: a bus address where the host makes it,
an offset of the 128 KiB window where the CCE takes it (R61). -/
inductive Access (Place : Type) where
  /-- A read of `n` bytes. -/
  | read (place : Place) (n : Nat)
  /-- A write of `n` bytes. A narrow write stores the value's low bytes (R63); one of more than 4 bytes stores none, so
  the value's first 32 bits are all that is kept of it. -/
  | write (place : Place) (n : Nat) (v : Word)
  deriving DecidableEq, Repr

/-- Where an access goes. -/
def Access.place {Place : Type} : Access Place → Place
  | .read p _ => p
  | .write p _ _ => p

/-- How many bytes an access moves. -/
def Access.width {Place : Type} : Access Place → Nat
  | .read _ n => n
  | .write _ n _ => n

/-- The same access at another place. -/
def Access.moveTo {Place Place' : Type} (a : Access Place) (p : Place') : Access Place' :=
  match a with
  | .read _ n => .read p n
  | .write _ n v => .write p n v

/-- One turn of the system (60_exceptions.md R230, 70_reset_and_hazards.md R240). -/
inductive Turn where
  /-- The engine moves. -/
  | engine
  /-- The host performs an access at a bus address. -/
  | host (a : Access Nat)
  /-- The reset input is asserted (RST). -/
  | warmReset
  /-- Power is applied (POR). -/
  | powerOn
  deriving DecidableEq, Repr

/-- The state of the CCE. The last three fields, `params` and the counters are the model's own (INVENTORY.md). -/
structure State where
  /-- The implementation's parameters (log 1). -/
  params : Params
  /-- Registers. -/
  regs : Regs
  /-- STATUS. -/
  status : Status
  /-- The command latch. -/
  latch : Latch
  /-- The CC unit. -/
  cc : CcUnit
  /-- The SHA unit. -/
  sha : ShaUnit
  /-- The BC unit. -/
  bc : BcUnit
  /-- The ZW unit: CELL[0], CELL[1] and so on. -/
  cells : List SecCell
  /-- The data buffer. -/
  dbuf : Memory
  /-- How many commands a reset has aborted: the number of the next draw of `Config.abortedByte` (log 8). -/
  aborts : Nat
  /-- The turns still to come, the next one first (log 4). -/
  schedule : List Turn
  /-- What the most recent host read of the CCE's window returned; none before the first (log 6). -/
  lastRead : Option Word
  deriving DecidableEq, Repr

/-- Why the machine stops. -/
inductive Fault where
  /-- Raised by a host access that reaches a data-buffer byte while BUSY = 1 (20_memory.md R71, I1). The spec leaves its
  outcome unspecified and asks a model for this fault. Safe: hardware goes on with an outcome no claim speaks of. -/
  | hostRace
  deriving DecidableEq, Repr

/-- Why a command has no meaning. -/
inductive Refusal where
  /-- Raised by `exec` alone, for a command whose meaning is not written. Safe. No arm raises it in this model. -/
  | notModelled (mnemonic : String)
  deriving DecidableEq, Repr

/-- What a step or a meaning answers. -/
abbrev Result := Host.Outcome State Fault Refusal

/-- The errors a command can complete with (60_exceptions.md R210). -/
inductive Err where
  | invalidLength
  | invalidIv
  | misusedEngine
  | unimplementedOperation
  | addressRange
  | cellUnavailable
  deriving DecidableEq, Repr

/-- The registers after a reset (R22). -/
def Regs.zero : Regs := { ie := false, src := 0, dst := 0, len := 0, aux := 0, auxlen := 0, result := 0 }

/-- STATUS after a reset (R25). -/
def Status.zero : Status := { busy := false, done := false, err := false, ovr := false, errCode := 0 }

/-- The latch after a reset (R43). -/
def Latch.zero : Latch := { op := 0, rsv := 0, src := 0, dst := 0, len := 0, aux := 0, auxlen := 0 }

/-- The CC unit without an engine (R44, R241). -/
def CcUnit.zero : CcUnit :=
  { s := Vector.replicate 16 0, ks := Vector.replicate 64 0, cur := 0, keyed := false }

/-- The SHA unit zeroed, in a lifecycle state (R46, R241; 42_sha1.md R146, R147). -/
def ShaUnit.zeroed (st : ShaState) : ShaUnit :=
  { h := Vector.replicate 5 0, buf := Vector.replicate 64 0, curlen := 0, bitlen := 0, st := st }

/-- The BC unit after a reset, for block length `b` (R48, R241). -/
def BcUnit.zero (b : Nat) : BcUnit :=
  { key := Vector.replicate 32 0, keyLen := 0, keyed := false, prev := List.replicate b 0 }

/-- A closed cell (R49, R241). -/
def SecCell.zero : SecCell := { isOpen := false, base := 0, len := 0 }

/-- The machine right after power-on reset, for given parameters (R241, R242). -/
def State.resetWith (p : Params) : State :=
  { params := p, regs := Regs.zero, status := Status.zero, latch := Latch.zero, cc := CcUnit.zero,
    sha := ShaUnit.zeroed .idle, bc := BcUnit.zero p.blockSize, cells := List.replicate p.nCells SecCell.zero,
    dbuf := { cells := [], epoch := 0 }, aborts := 0, schedule := [], lastRead := none }

/-- The machine right after power-on reset, with the default parameters (log 1). -/
def State.reset : State := State.resetWith Params.default

/-! Updates of one component of the state. -/

/-- Replace the registers. -/
def State.setRegs (s : State) (x : Regs) : State := { s with regs := x }
/-- Replace RESULT. -/
def State.setResult (s : State) (x : Word) : State := { s with regs := { s.regs with result := x } }
/-- Replace STATUS. -/
def State.setStatus (s : State) (x : Status) : State := { s with status := x }
/-- Replace the latch. -/
def State.setLatch (s : State) (x : Latch) : State := { s with latch := x }
/-- Replace the CC unit. -/
def State.setCc (s : State) (x : CcUnit) : State := { s with cc := x }
/-- Replace the SHA unit. -/
def State.setSha (s : State) (x : ShaUnit) : State := { s with sha := x }
/-- Replace the BC unit. -/
def State.setBc (s : State) (x : BcUnit) : State := { s with bc := x }
/-- Replace the secure cells. -/
def State.setCells (s : State) (x : List SecCell) : State := { s with cells := x }
/-- Replace the data buffer. -/
def State.setDbuf (s : State) (x : Memory) : State := { s with dbuf := x }
/-- Replace the abort counter. -/
def State.setAborts (s : State) (x : Nat) : State := { s with aborts := x }
/-- Replace the schedule. -/
def State.setSchedule (s : State) (x : List Turn) : State := { s with schedule := x }
/-- Replace the last read value. -/
def State.setLastRead (s : State) (x : Option Word) : State := { s with lastRead := x }

end Sys2Proof.Machine
end

