-- ==== Sys2Proof/Machine/Ops.lean ====
section
/-! DEFINITION. The named operations over the data buffer (00_scope.md R15, 20_memory.md R64) and the two ways a command
ends (60_exceptions.md R211, R212). -/

namespace Sys2Proof.Machine

/-- The byte written at an address since power-on, if any. -/
def lookupCell : List Host.Cell → Nat → Option Byte
  | [], _ => none
  | (b, v) :: cs, a => if a = b then some v else lookupCell cs a

/-- The cells with one byte written, kept in rising order of address. -/
def setCell : List Host.Cell → Nat → Byte → List Host.Cell
  | [], a, v => [(a, v)]
  | (b, u) :: cs, a, v =>
    if a < b then (a, v) :: (b, u) :: cs
    else if a = b then (a, v) :: cs
    else (b, u) :: setCell cs a v

/-- The canonical form of the data buffer: addresses strictly rising. No value of a byte is "not written since
power-on", so no entry equals what an unlisted address reads as (log 2). -/
abbrev Memory.wf (m : Memory) : Prop := m.cells.Pairwise (fun x y => x.1 < y.1)

/-- What an unlisted address reads as: the free value of its power-on (R242, log 2). -/
def Memory.unlisted (m : Memory) (a : Nat) : Byte := Config.powerOnByte m.epoch a

/-- `DBUF[a]`. -/
def Memory.read (m : Memory) (a : Nat) : Byte := (lookupCell m.cells a).getD (m.unlisted a)

/-- `DBUF[a] <- v`. -/
def Memory.write (m : Memory) (a : Nat) (v : Byte) : Memory := { m with cells := setCell m.cells a v }

/-- `MemRead(a, n)` (R15, R64). -/
def Memory.readBytes (m : Memory) (a : Nat) : Nat → List Byte
  | 0 => []
  | n + 1 => m.read a :: m.readBytes (a + 1) n

/-- `MemWrite(a, n, v)`: `v[0]` first (R15, R64). -/
def Memory.writeBytes (m : Memory) (a : Nat) : List Byte → Memory
  | [] => m
  | b :: bs => (m.write a b).writeBytes (a + 1) bs

/-- `MemWrite` of `n` zero bytes (44_secure_memory.md R180: the all-zero form). -/
def Memory.zeroBytes (m : Memory) (a n : Nat) : Memory := m.writeBytes a (List.replicate n 0)

/-- The code of an error (60_exceptions.md R210). -/
def Err.code : Err → BitVec 4
  | .invalidLength => 1
  | .invalidIv => 2
  | .misusedEngine => 3
  | .unimplementedOperation => 4
  | .addressRange => 5
  | .cellUnavailable => 6

/-- What `complete()` leaves: BUSY, DONE, ERR and ERRCODE are written, nothing else (60_exceptions.md R211). -/
def State.completed (s : State) : State :=
  s.setStatus { busy := false, done := true, err := false, ovr := s.status.ovr, errCode := 0 }

/-- What `raise Err(code)` leaves: BUSY, DONE, ERR and ERRCODE are written, nothing else (60_exceptions.md R212). -/
def State.failed (s : State) (e : Err) : State :=
  s.setStatus { busy := false, done := true, err := true, ovr := s.status.ovr, errCode := e.code }

/-- `complete()`: completion without error (60_exceptions.md R211). -/
def State.complete (s : State) : Result := .next s.completed

/-- `raise Err(code)`: completion with an error (60_exceptions.md R212, R215). This is all that "taking an exception" is
on the CCE: nothing is saved, no mode changes, nothing is jumped to, and there is no return (R216). -/
def State.raise (s : State) (e : Err) : Result := .next (s.failed e)

end Sys2Proof.Machine
end

