-- ==== Sys2Proof/Machine/Operands.lean ====
section
/-! DEFINITION. Operands: the latched arguments as unbounded numbers (30_encoding.md R81, R82), operand bounds
(20_memory.md R65), and the operand range a command writes (70_reset_and_hazards.md R243). -/

namespace Sys2Proof.Machine

/-- `L_SRC` as a number (R82). -/
def State.argSrc (s : State) : Nat := s.latch.src.toNat
/-- `L_DST` as a number (R82). -/
def State.argDst (s : State) : Nat := s.latch.dst.toNat
/-- `L_LEN` as a number (R82). -/
def State.argLen (s : State) : Nat := s.latch.len.toNat
/-- `L_AUX` as a number (R82). -/
def State.argAux (s : State) : Nat := s.latch.aux.toNat
/-- `L_AUXLEN` as a number (R82). -/
def State.argAuxlen (s : State) : Nat := s.latch.auxlen.toNat

/-- `InRange(a, n)`, over unbounded integers (20_memory.md R65). -/
abbrev State.InRange (s : State) (a n : Nat) : Prop := n = 0 ∨ a + n ≤ s.params.dbufSize

/-- The accepted key lengths `BC_KEY_SIZES` (00_scope.md R9). -/
def keySizeOk (p : Params) (n : Nat) : Bool :=
  (n == 16 && p.key16) || (n == 24 && p.key24) || (n == 32 && p.key32)

/-- The loaded key, `BC_KEY[0 .. BC_KEYLEN-1]` (40_block_modes.md R100). -/
def BcUnit.loadedKey (u : BcUnit) : List Byte := u.key.toList.take u.keyLen

end Sys2Proof.Machine
end

