-- ==== Sys2Proof/Machine/Flags.lean ====
section
/-! DEFINITION. The flags of the CCE: the STATUS word (10_state.md R25 to R34), the read values of ID and CTRL (R23, R24)
and the IRQ output (R51, 60_exceptions.md R220). -/

namespace Sys2Proof.Machine

/-- The hardwired value of ID (R23). -/
def idValue : Word := 0x43434501

/-- The number of a lifecycle state in STATUS.SHA_ST (R32). -/
def ShaState.code : ShaState → BitVec 2
  | .idle => 0
  | .active => 1
  | .finalized => 2

/-- STATUS.CELLS_OPEN: bit `i` is `CELL[i].open` for `i < NCELLS`, the others read 0 (R34). -/
def cellsOpenField (n : Nat) : List SecCell → BitVec 8
  | [] => 0
  | c :: cs =>
    match n with
    | 0 => 0
    | n + 1 => (BitVec.ofBool c.isOpen).setWidth 8 ||| (cellsOpenField n cs <<< 1)

/-- The STATUS word (R25): reserved bits 15:12 and 31:24 read 0. -/
def State.statusWord (s : State) : Word :=
  bitWord s.status.busy ||| (bitWord s.status.done <<< 1) ||| (bitWord s.status.err <<< 2) |||
  (bitWord s.status.ovr <<< 3) ||| (s.status.errCode.setWidth 32 <<< 4) ||| (bitWord s.cc.keyed <<< 8) |||
  (s.sha.st.code.setWidth 32 <<< 9) ||| (bitWord s.bc.keyed <<< 11) |||
  ((cellsOpenField s.params.nCells s.cells).setWidth 32 <<< 16)

/-- The CTRL word as it reads: `zext_32(IE)` (R24). -/
def State.ctrlWord (s : State) : Word := bitWord s.regs.ie

/-- The IRQ output, a level (R51, R220). OVR does not drive it (R222). -/
def State.irq (s : State) : Bool := s.regs.ie && s.status.done

end Sys2Proof.Machine
end

