-- ==== Sys2Proof/Syntax.lean ====
section
/-! DEFINITION. The commands of the CCE: one constructor per row of the opcode table (30_encoding.md R83, R86, R87).
Operands are not part of the command word (R80, R81), so a constructor carries only the bits of the word that its row
leaves open. -/

namespace Sys2Proof

/-- A command of the CCE. -/
inductive Instr where
  /-- NOP, 0x00 (45_system.md R200). -/
  | nop
  /-- CC_INIT, 0x01 (41_chacha20.md R122). -/
  | ccInit
  /-- CC_COMBINE, 0x02 (41_chacha20.md R123). -/
  | ccCombine
  /-- CC_DESTROY, 0x03 (41_chacha20.md R124). -/
  | ccDestroy
  /-- SHA1_CREATE, 0x10 (42_sha1.md R144). -/
  | sha1Create
  /-- SHA1_UPDATE, 0x11 (42_sha1.md R145). -/
  | sha1Update
  /-- SHA1_DIGEST, 0x12 (42_sha1.md R146). -/
  | sha1Digest
  /-- SHA1_DESTROY, 0x13 (42_sha1.md R147). -/
  | sha1Destroy
  /-- BC_SETKEY, 0x20 (40_block_modes.md R101). -/
  | bcSetKey
  /-- BC_CLEAR, 0x21 (40_block_modes.md R102). -/
  | bcClear
  /-- ECB_ENC, 0x22 (40_block_modes.md R104). -/
  | ecbEnc
  /-- ECB_DEC, 0x23 (40_block_modes.md R105). -/
  | ecbDec
  /-- CBC_ENC, 0x24 (40_block_modes.md R106). -/
  | cbcEnc
  /-- CBC_DEC, 0x25 (40_block_modes.md R107). -/
  | cbcDec
  /-- CT_EQ, 0x30 (43_ct_equality.md R171). -/
  | ctEq
  /-- CT_EQB, 0x31 (43_ct_equality.md R173). -/
  | ctEqb
  /-- CELL_OPEN, 0x40 (44_secure_memory.md R181). -/
  | cellOpen
  /-- CELL_CLOSE, 0x41 (44_secure_memory.md R182). -/
  | cellClose
  /-- ZEROIZE, 0x42 (44_secure_memory.md R183). -/
  | zeroize
  /-- UNIMPLEMENTED, the second hash function's stub range 0x18 to 0x1F: its low 3 bits (R87, 45_system.md R202). -/
  | unimplHash2 (k : BitVec 3)
  /-- UNIMPLEMENTED, the RSA stub range 0x50 to 0x5F: its low 4 bits (R87, 45_system.md R202). -/
  | unimplRsa (k : BitVec 4)
  /-- UNIMPLEMENTED, every other word: RSV not 0, or OP in no row above (R86, 45_system.md R202). -/
  | unimplOther (w : Word)
  deriving DecidableEq, Repr

end Sys2Proof
end

