-- ==== Sys2Proof/WellFormed.lean ====
section
/-! DEFINITION. When a term of Instr is a command of the opcode table (30_encoding.md R83, R86, R87): the row "every
other word" holds only words that no other row holds. -/

namespace Sys2Proof

/-- The assigned command words (R83, with RSV = 0). -/
def assignedWords : List Nat :=
  [0x00, 0x01, 0x02, 0x03, 0x10, 0x11, 0x12, 0x13, 0x20, 0x21, 0x22, 0x23, 0x24, 0x25, 0x30, 0x31, 0x40, 0x41, 0x42]

/-- The word is an assigned command (R83). -/
def isAssignedWord (w : Word) : Bool := assignedWords.contains w.toNat

/-- The word lies in the stub range of the second hash function (R87). -/
def isHash2Word (w : Word) : Bool := decide (0x18 ≤ w.toNat ∧ w.toNat ≤ 0x1F)

/-- The word lies in the stub range of RSA (R87). -/
def isRsaWord (w : Word) : Bool := decide (0x50 ≤ w.toNat ∧ w.toNat ≤ 0x5F)

/-- A command is well formed unless it is an "every other word" term for a word that another row holds (R86). -/
def Instr.wf : Instr → Bool
  | .unimplOther w => !(isAssignedWord w || isHash2Word w || isRsaWord w)
  | .nop | .ccInit | .ccCombine | .ccDestroy | .sha1Create | .sha1Update | .sha1Digest | .sha1Destroy | .bcSetKey
  | .bcClear | .ecbEnc | .ecbDec | .cbcEnc | .cbcDec | .ctEq | .ctEqb | .cellOpen | .cellClose | .zeroize
  | .unimplHash2 _ | .unimplRsa _ => true

end Sys2Proof
end

