-- ==== Sys2Proof/Decode.lean ====
section
/-! DEFINITION. The decoder of command words (30_encoding.md R80, R86), total on words, and on byte sequences rejecting
by name; the encoder, written from the same opcode map (R83, R87); and the decoder as the host's tools ask for it. -/

namespace Sys2Proof

/-- OP, bits 7:0 of a command word (R80). -/
def opField (w : Word) : BitVec 8 := w.extractLsb' 0 8

/-- RSV, bits 31:8 of a command word (R80). -/
def rsvField (w : Word) : BitVec 24 := w.extractLsb' 8 24

/-- The command of an OP value with RSV = 0 (R83, R87). The argument `w` is the whole word, which "every other word"
keeps. -/
def decodeOp (w : Word) : Nat → Instr
  | 0x00 => .nop
  | 0x01 => .ccInit
  | 0x02 => .ccCombine
  | 0x03 => .ccDestroy
  | 0x10 => .sha1Create
  | 0x11 => .sha1Update
  | 0x12 => .sha1Digest
  | 0x13 => .sha1Destroy
  | 0x20 => .bcSetKey
  | 0x21 => .bcClear
  | 0x22 => .ecbEnc
  | 0x23 => .ecbDec
  | 0x24 => .cbcEnc
  | 0x25 => .cbcDec
  | 0x30 => .ctEq
  | 0x31 => .ctEqb
  | 0x40 => .cellOpen
  | 0x41 => .cellClose
  | 0x42 => .zeroize
  | op =>
    if 0x18 ≤ op ∧ op ≤ 0x1F then .unimplHash2 (w.extractLsb' 0 3)
    else if 0x50 ≤ op ∧ op ≤ 0x5F then .unimplRsa (w.extractLsb' 0 4)
    else .unimplOther w

/-- Decoding of a command word (R86): RSV must be 0, else UNIMPLEMENTED; then OP. Every word decodes. -/
def decode (w : Word) : Instr :=
  if rsvField w ≠ 0 then .unimplOther w else decodeOp w (opField w).toNat

/-- The command word of a command (R80, R83, R87). -/
def encode : Instr → Word
  | .nop => 0x00
  | .ccInit => 0x01
  | .ccCombine => 0x02
  | .ccDestroy => 0x03
  | .sha1Create => 0x10
  | .sha1Update => 0x11
  | .sha1Digest => 0x12
  | .sha1Destroy => 0x13
  | .bcSetKey => 0x20
  | .bcClear => 0x21
  | .ecbEnc => 0x22
  | .ecbDec => 0x23
  | .cbcEnc => 0x24
  | .cbcDec => 0x25
  | .ctEq => 0x30
  | .ctEqb => 0x31
  | .cellOpen => 0x40
  | .cellClose => 0x41
  | .zeroize => 0x42
  | .unimplHash2 k => 0x18 ||| k.setWidth 32
  | .unimplRsa k => 0x50 ||| k.setWidth 32
  | .unimplOther w => w

/-- Why a byte sequence is no command word. -/
inductive DecodeError where
  /-- Fewer than the four bytes of a command word (R80: every command has this one length). -/
  | truncated
  deriving DecidableEq, Repr

/-- The first command of a byte sequence and the bytes after it. A command word is four bytes, least significant first,
as the little-endian host bus carries it (20_memory.md R66, log 11). -/
def decodeBytes : List Byte → Except DecodeError (Instr × List Byte)
  | b0 :: b1 :: b2 :: b3 :: rest => .ok (decode (Machine.le32 b0 b1 b2 b3), rest)
  | _ => .error .truncated

/-- The bytes of a command word, least significant first. -/
def encodeBytes (i : Instr) : List Byte := Machine.le32bytes (encode i)

/-- A word of `nbits` bits, numbered as the opcode table numbers them, as a whole command word: the bits above are 0. -/
def tableWord (nbits w : Nat) : Word := BitVec.ofNat 32 (w % 2 ^ nbits)

/-- What the decoder reads from an instruction of the opcode table whose bits are `w`: the word is laid out in bytes as
the bus carries it and handed to `decodeBytes`. A row longer than the one length of a command is none (R80). -/
def decodeTableWord (nbits w : Nat) : Option Instr :=
  if nbits ≤ 32 then
    match decodeBytes (Machine.le32bytes (tableWord nbits w)) with
    | .ok (i, _) => some i
    | .error _ => none
  else none

end Sys2Proof
end

