-- ==== Sys2Proof/Machine/SecureMem.lean ====
section
/-! DEFINITION. The secure memory zeroing wrapper, the ZW unit (44_secure_memory.md). -/

namespace Sys2Proof.Machine

/-- The least index of a closed cell below NCELLS, if there is one (R181). -/
def freeCell : Nat → List SecCell → Option Nat
  | 0, _ => none
  | _, [] => none
  | n + 1, c :: cs => if c.isOpen then (freeCell n cs).map (· + 1) else some 0

/-- The open cell of an index, if the index is below NCELLS and the cell is open (R182). -/
def State.openCell (s : State) (i : Nat) : Option SecCell :=
  if i < s.params.nCells then
    match s.cells[i]? with
    | some c => if c.isOpen then some c else none
    | none => none
  else none

/-- CELL_OPEN (R181). -/
def execCellOpen (s : State) : Result :=
  if s.argAuxlen = 0 then s.raise .invalidLength
  else if ¬ s.InRange s.argAux s.argAuxlen then s.raise .addressRange
  else
    match freeCell s.params.nCells s.cells with
    | none => s.raise .cellUnavailable
    | some i =>
      ((s.setCells (s.cells.set i { isOpen := true, base := s.latch.aux, len := s.latch.auxlen })).setResult
        (BitVec.ofNat 32 i)).complete

/-- CELL_CLOSE (R182): the region is zeroed, then the cell is free. -/
def execCellClose (s : State) : Result :=
  match s.openCell s.argSrc with
  | none => s.raise .misusedEngine
  | some c =>
    ((s.setDbuf (s.dbuf.zeroBytes c.base.toNat c.len.toNat)).setCells (s.cells.set s.argSrc SecCell.zero)).complete

/-- ZEROIZE (R183): the cells are neither consulted nor changed. -/
def execZeroize (s : State) : Result :=
  if ¬ s.InRange s.argDst s.argLen then s.raise .addressRange
  else (s.setDbuf (s.dbuf.zeroBytes s.argDst s.argLen)).complete

end Sys2Proof.Machine
end

