-- ==== Sys2Proof/Machine/Reset.lean ====
section
/-! DEFINITION. The reset events (70_reset_and_hazards.md R240 to R243). -/

namespace Sys2Proof.Machine

/-- The command word in the latch (30_encoding.md R84): `L_RSV || L_OP`. -/
def Latch.word (l : Latch) : Word := l.rsv ++ l.op

/-- The DST range of the latched command, as a first address and a count (R243): the operand range its rule writes. A
command that writes no data-buffer byte has none. -/
def State.dstRange (s : State) : Nat × Nat :=
  match decode s.latch.word with
  | .ccCombine | .ecbEnc | .ecbDec | .cbcEnc | .cbcDec | .zeroize => (s.argDst, s.argLen)
  | .sha1Digest => (s.argDst, 20)
  | .cellClose =>
    match s.openCell s.argSrc with
    | some c => (c.base.toNat, c.len.toNat)
    | none => (0, 0)
  | .nop | .ccInit | .ccDestroy | .sha1Create | .sha1Update | .sha1Destroy | .bcSetKey | .bcClear | .ctEq | .ctEqb
  | .cellOpen | .unimplHash2 _ | .unimplRsa _ | .unimplOther _ => (0, 0)

/-- `n` bytes from `a` on, each the free value of the given abort (R243). -/
def Memory.scramble (m : Memory) (draw a : Nat) : Nat → Memory
  | 0 => m
  | n + 1 => (m.write a (Config.abortedByte draw a)).scramble draw (a + 1) n

/-- Step 1 of a reset: a running command is aborted, and the bytes of its DST range that lie in the data buffer may hold
any value (R241, R243, log 8). -/
def State.abortRunning (s : State) : State :=
  if s.status.busy then
    (s.setDbuf (s.dbuf.scramble s.aborts s.dstRange.1
      (min (s.dstRange.1 + s.dstRange.2) s.params.dbufSize - s.dstRange.1))).setAborts (s.aborts + 1)
  else s

/-- Step 2 of a reset: the region of every open cell is zeroed, in increasing index (R241). -/
def zeroOpenCells : List SecCell → Memory → Memory
  | [], m => m
  | c :: cs, m => zeroOpenCells cs (if c.isOpen then m.zeroBytes c.base.toNat c.len.toNat else m)

/-- Steps 3 and 4 of a reset: unit state, latch and registers at their reset values (R241). -/
def State.clearUnits (s : State) : State :=
  { s with
    regs := Regs.zero, status := Status.zero, latch := Latch.zero, cc := CcUnit.zero, sha := ShaUnit.zeroed .idle,
    bc := BcUnit.zero s.params.blockSize, cells := List.replicate s.params.nCells SecCell.zero }

/-- A warm or soft reset (R240, R241). -/
def State.warmReset (s : State) : State :=
  let s1 := s.abortRunning
  (s1.setDbuf (zeroOpenCells (s1.cells.take s1.params.nCells) s1.dbuf)).clearUnits

/-- A power-on reset: every data-buffer byte is a new free value, all else as after R241 (R240, R242). -/
def State.powerOnReset (s : State) : State :=
  (s.setDbuf { cells := [], epoch := s.dbuf.epoch + 1 }).clearUnits

end Sys2Proof.Machine
end

