-- ==== Sys2Proof/Machine/Bus.lean ====
section
/-! DEFINITION. The host's accesses: the register window (10_state.md R22 to R42), the data buffer (20_memory.md R61 to
R63, R71), the CTRL actions (10_state.md R24) and the issue of a command (30_encoding.md R84, R85). -/

namespace Sys2Proof.Machine

/-- The widths of data-buffer accesses, in bytes (20_memory.md R63, R68). -/
abbrev BufferWidth (n : Nat) : Prop := n = 1 ∨ n = 2 ∨ n = 4

/-- What a 32-bit read of a register offset returns (R22): write-only and reserved offsets read 0. -/
def State.regRead (s : State) : Nat → Word
  | 0x00 => idValue
  | 0x04 => s.ctrlWord
  | 0x08 => s.statusWord
  | 0x10 => s.regs.src
  | 0x14 => s.regs.dst
  | 0x18 => s.regs.len
  | 0x1C => s.regs.aux
  | 0x20 => s.regs.auxlen
  | 0x24 => s.regs.result
  | _ => 0

/-- An accepted write of CMD: the word and the arguments are latched, the completion fields are cleared, BUSY is set
(R84). -/
def State.issue (s : State) (w : Word) : State :=
  (s.setLatch { op := opField w, rsv := rsvField w, src := s.regs.src, dst := s.regs.dst, len := s.regs.len,
                aux := s.regs.aux, auxlen := s.regs.auxlen }).setStatus
    { busy := true, done := false, err := false, ovr := s.status.ovr, errCode := 0 }

/-- A write of CMD: accepted while BUSY = 0 (R84), else dropped with OVR set (R85). -/
def State.writeCmd (s : State) (w : Word) : State :=
  if s.status.busy then s.setStatus { s.status with ovr := true } else s.issue w

/-- A write of CTRL (R24): SRST takes the whole write; else IE is stored and the two clear actions act. -/
def State.writeCtrl (s : State) (v : Word) : State :=
  if v.getLsbD 1 then s.warmReset
  else
    (s.setRegs { s.regs with ie := v.getLsbD 0 }).setStatus
      { s.status with
        ovr := if v.getLsbD 2 then false else s.status.ovr
        done := if v.getLsbD 3 then false else s.status.done }

/-- A 32-bit write of a register offset (R22): read-only and reserved offsets ignore it. -/
def State.regWrite (s : State) (off : Nat) (v : Word) : State :=
  match off with
  | 0x04 => s.writeCtrl v
  | 0x0C => s.writeCmd v
  | 0x10 => s.setRegs { s.regs with src := v }
  | 0x14 => s.setRegs { s.regs with dst := v }
  | 0x18 => s.setRegs { s.regs with len := v }
  | 0x1C => s.setRegs { s.regs with aux := v }
  | 0x20 => s.setRegs { s.regs with auxlen := v }
  | _ => s

/-- Where an access goes (R61 to R63). -/
inductive Target where
  /-- A performed register access at an offset. -/
  | register (off : Nat)
  /-- A performed data-buffer access at a data-buffer address. -/
  | buffer (a : Nat)
  /-- Not performed: reserved, misaligned, or of a width that the place does not take (R62; log 7 for the data buffer). A
  read returns 0, a write is ignored. -/
  | nowhere
  deriving DecidableEq, Repr

/-- The target of an access of `n` bytes at a window offset, for a data buffer of `size` bytes (R61 to R63). -/
def targetOf (size off n : Nat) : Target :=
  if off < 0x10000 then
    if n = 4 ∧ off % 4 = 0 then .register off else .nowhere
  else if BufferWidth n ∧ (off - 0x10000) % n = 0 ∧ off - 0x10000 + n ≤ size then .buffer (off - 0x10000)
  else .nowhere

/-- The bytes that a write of `n` bytes stores, least significant first (R63). -/
def storedBytes (n : Nat) (v : Word) : List Byte := (le32bytes v).take n

/-- A host access at a window offset (R62, R63, R68). A data-buffer access that is performed while BUSY = 1 is the fault
HostRace (R71). -/
def State.hostAccess (s : State) : Access (BitVec 17) → Result
  | .read off n =>
    match targetOf s.params.dbufSize off.toNat n with
    | .register r => .next (s.setLastRead (some (s.regRead r)))
    | .buffer a =>
      if s.status.busy then .fault .hostRace
      else .next (s.setLastRead (some (leValue (s.dbuf.readBytes a n))))
    | .nowhere => .next (s.setLastRead (some 0))
  | .write off n v =>
    match targetOf s.params.dbufSize off.toNat n with
    | .register r => .next (s.regWrite r v)
    | .buffer a =>
      if s.status.busy then .fault .hostRace
      else .next (s.setDbuf (s.dbuf.writeBytes a (storedBytes n v)))
    | .nowhere => .next s

/-- The window offset of a bus address, for the window at a base address (R61). -/
def windowOffset (base addr : Nat) : Option (BitVec 17) :=
  if base ≤ addr ∧ addr < base + 0x20000 then some (BitVec.ofNat 17 (addr - base)) else none

/-- A host access on the bus: the CCE takes those whose address lies in its window, and the others change nothing of it
(R61, log 7). -/
def State.busAccess (s : State) (a : Access Nat) : Result :=
  match windowOffset s.params.cceBase a.place with
  | some off => s.hostAccess (a.moveTo off)
  | none => .next s

end Sys2Proof.Machine
end

