-- ==== Sys2Proof/Machine/BlockModes.lean ====
section
/-! DEFINITION. The ECB/CBC mode controller, the BC unit (40_block_modes.md). The modes are written over any cipher port;
the commands use the machine's own, `Config.cipher`. -/

namespace Sys2Proof.Machine

/-- `BC_ENC(K, blk)`: exactly `B` bytes (R100). -/
def portEnc (port : CipherPort) (b : Nat) (k blk : List Byte) : List Byte := (List.range b).map (port.encByte k blk)

/-- `BC_DEC(K, blk)`: exactly `B` bytes (R100). -/
def portDec (port : CipherPort) (b : Nat) (k blk : List Byte) : List Byte := (List.range b).map (port.decByte k blk)

/-- `n` blocks of `b` bytes transformed one by one, in increasing order; each block is read whole before it is written
(R104, R105, 20_memory.md R74). -/
def ecbLoop (f : List Byte → List Byte) (b : Nat) : Nat → Nat → Nat → Memory → Memory
  | 0, _, _, m => m
  | n + 1, src, dst, m => ecbLoop f b n (src + b) (dst + b) (m.writeBytes dst (f (m.readBytes src b)))

/-- The loop of CBC_ENC over `n` blocks, with BC_PREV threaded (R106). -/
def cbcEncLoop (enc : List Byte → List Byte) (b : Nat) : Nat → Nat → Nat → List Byte → Memory → Memory
  | 0, _, _, _, m => m
  | n + 1, src, dst, prev, m =>
    let c := enc (xorBytes (m.readBytes src b) prev)
    cbcEncLoop enc b n (src + b) (dst + b) c (m.writeBytes dst c)

/-- The loop of CBC_DEC over `n` blocks: the next BC_PREV is the ciphertext as it was read (R107, 20_memory.md R74). -/
def cbcDecLoop (dec : List Byte → List Byte) (b : Nat) : Nat → Nat → Nat → List Byte → Memory → Memory
  | 0, _, _, _, m => m
  | n + 1, src, dst, prev, m =>
    let c := m.readBytes src b
    cbcDecLoop dec b n (src + b) (dst + b) c (m.writeBytes dst (xorBytes (dec c) prev))

/-- The common shape of ECB_ENC and ECB_DEC (R104, R105), for one cipher function. -/
def ecbWith (f : List Byte → List Byte) (s : State) : Result :=
  if s.bc.keyed = false then s.raise .misusedEngine
  else if s.argLen % s.params.blockSize ≠ 0 then s.raise .invalidLength
  else if ¬ s.InRange s.argSrc s.argLen ∨ ¬ s.InRange s.argDst s.argLen then s.raise .addressRange
  else
    (s.setDbuf (ecbLoop f s.params.blockSize (s.argLen / s.params.blockSize) s.argSrc s.argDst s.dbuf)).complete

/-- The common shape of CBC_ENC and CBC_DEC (R106, R107), for one loop over the blocks. BC_PREV is cleared at the end. -/
def cbcWith (loop : Nat → Nat → Nat → Nat → List Byte → Memory → Memory) (s : State) : Result :=
  if s.bc.keyed = false then s.raise .misusedEngine
  else if s.argAuxlen ≠ s.params.blockSize then s.raise .invalidIv
  else if s.argLen % s.params.blockSize ≠ 0 then s.raise .invalidLength
  else if ¬ s.InRange s.argAux s.params.blockSize ∨ ¬ s.InRange s.argSrc s.argLen ∨ ¬ s.InRange s.argDst s.argLen then
    s.raise .addressRange
  else
    let b := s.params.blockSize
    let iv := s.dbuf.readBytes s.argAux b
    ((s.setDbuf (loop b (s.argLen / b) s.argSrc s.argDst iv s.dbuf)).setBc
      { s.bc with prev := List.replicate b 0 }).complete

/-- ECB_ENC over a port (R104). -/
def ecbEncOver (port : CipherPort) (s : State) : Result :=
  ecbWith (portEnc port s.params.blockSize s.bc.loadedKey) s

/-- ECB_DEC over a port (R105). -/
def ecbDecOver (port : CipherPort) (s : State) : Result :=
  ecbWith (portDec port s.params.blockSize s.bc.loadedKey) s

/-- CBC_ENC over a port (R106). -/
def cbcEncOver (port : CipherPort) (s : State) : Result :=
  cbcWith (cbcEncLoop (portEnc port s.params.blockSize s.bc.loadedKey)) s

/-- CBC_DEC over a port (R107). -/
def cbcDecOver (port : CipherPort) (s : State) : Result :=
  cbcWith (cbcDecLoop (portDec port s.params.blockSize s.bc.loadedKey)) s

/-- BC_KEY holding a key of at most 32 bytes, the rest 0 (R101). -/
@[irreducible] def padKey (k : List Byte) : Vector Byte 32 := Vector.ofFn fun i => k.getD i.val 0

/-- The unit with a key of a length loaded (R101). -/
def BcUnit.withKey (u : BcUnit) (k : List Byte) (n : Nat) : BcUnit :=
  { u with key := padKey k, keyLen := n, keyed := true }

/-- BC_SETKEY (R101). -/
def execBcSetKey (s : State) : Result :=
  if keySizeOk s.params s.argAuxlen = false then s.raise .invalidLength
  else if ¬ s.InRange s.argAux s.argAuxlen then s.raise .addressRange
  else (s.setBc (s.bc.withKey (s.dbuf.readBytes s.argAux s.argAuxlen) s.argAuxlen)).complete

/-- BC_CLEAR (R102). -/
def execBcClear (s : State) : Result :=
  (s.setBc { s.bc with key := Vector.replicate 32 0, keyLen := 0, keyed := false }).complete

/-- ECB_ENC (R104). -/
def execEcbEnc (s : State) : Result := ecbEncOver Config.cipher s

/-- ECB_DEC (R105). -/
def execEcbDec (s : State) : Result := ecbDecOver Config.cipher s

/-- CBC_ENC (R106). -/
def execCbcEnc (s : State) : Result := cbcEncOver Config.cipher s

/-- CBC_DEC (R107). -/
def execCbcDec (s : State) : Result := cbcDecOver Config.cipher s

end Sys2Proof.Machine
end

