-- ==== Sys2Proof/Machine/Chacha.lean ====
section
/-! DEFINITION. The ChaCha20 state permutation engine, the CC unit (41_chacha20.md). -/

namespace Sys2Proof.Machine

/-- Byte `i` of a byte sequence of the pseudocode; every use below has `i` inside the sequence. -/
def byteAt (bs : List Byte) (i : Nat) : Byte := bs.getD i 0

/-- The little-endian word at index `i` of a byte sequence (00_scope.md R14). -/
def leWordAt (bs : List Byte) (i : Nat) : Word :=
  le32 (byteAt bs i) (byteAt bs (i + 1)) (byteAt bs (i + 2)) (byteAt bs (i + 3))

/-- The initial state for a 32-byte key and an 8-byte nonce (R120). -/
def chachaInit (k n : List Byte) : Vector Word 16 :=
  #v[0x61707865, 0x3320646e, 0x79622d32, 0x6b206574,
     leWordAt k 0, leWordAt k 4, leWordAt k 8, leWordAt k 12,
     leWordAt k 16, leWordAt k 20, leWordAt k 24, leWordAt k 28,
     0, 0, leWordAt n 0, leWordAt n 4]

/-- The quarter-round on four words (R121). -/
def quarterWords (a b c d : Word) : Word × Word × Word × Word :=
  let a := a + b; let d := rotl32 (d ^^^ a) 16
  let c := c + d; let b := rotl32 (b ^^^ c) 12
  let a := a + b; let d := rotl32 (d ^^^ a) 8
  let c := c + d; let b := rotl32 (b ^^^ c) 7
  (a, b, c, d)

/-- `QR(w, a, b, c, d)` on the working array (R121). -/
def quarterRound (w : Vector Word 16) (a b c d : Fin 16) : Vector Word 16 :=
  match quarterWords w[a] w[b] w[c] w[d] with
  | (x, y, z, t) => (((w.set a x).set b y).set c z).set d t

/-- One double-round: the column groups, then the diagonal groups (R121). -/
def doubleRound (w : Vector Word 16) : Vector Word 16 :=
  let w := quarterRound w 0 4 8 12
  let w := quarterRound w 1 5 9 13
  let w := quarterRound w 2 6 10 14
  let w := quarterRound w 3 7 11 15
  let w := quarterRound w 0 5 10 15
  let w := quarterRound w 1 6 11 12
  let w := quarterRound w 2 7 8 13
  quarterRound w 3 4 9 14

/-- `n` double-rounds. -/
def doubleRounds : Nat → Vector Word 16 → Vector Word 16
  | 0, w => w
  | n + 1, w => doubleRounds n (doubleRound w)

/-- The 16 words of the block of a state: 10 double-rounds, then the original state added word by word (R121). -/
def blockWords (s : Vector Word 16) : Vector Word 16 := Vector.zipWith (· + ·) (doubleRounds 10 s) s

/-- The 64 bytes of 16 words, each little-endian (R121). -/
def serializeWords (w : Vector Word 16) : Vector Byte 64 :=
  ⟨(w.toList.flatMap le32bytes).toArray, by simp [le32bytes, List.length_flatMap]⟩

/-- The keystream block of a state, with the counter value it holds (R121). -/
def keystreamBlock (s : Vector Word 16) : Vector Byte 64 := serializeWords (blockWords s)

/-- The counter after an increment: the low word plus 1, and on its wrap to 0 the high word plus 1 (R121, R125). -/
def bumpCounter (s : Vector Word 16) : Vector Word 16 :=
  let lo := s[12] + 1
  let s' := s.set 12 lo
  if lo = 0 then s'.set 13 (s[13] + 1) else s'

/-- `Advance()` (R121). -/
def CcUnit.advance (u : CcUnit) : CcUnit :=
  { u with s := bumpCounter u.s, ks := keystreamBlock u.s, cur := 0 }

/-- One byte of CC_COMBINE leaves the unit with the cursor one further, and a new block when it reaches 64 (R123). -/
def CcUnit.consume (u : CcUnit) : CcUnit :=
  if u.cur.toNat + 1 = 64 then u.advance else { u with cur := u.cur + 1 }

/-- The next keystream byte, `CC_KS[CC_CUR]`. -/
def CcUnit.keyByte (u : CcUnit) : Byte := u.ks[u.cur.toNat]

/-- The loop of CC_COMBINE over `n` bytes, byte by byte in increasing address (R123, 20_memory.md R74). -/
def combineLoop : Nat → Nat → Nat → CcUnit → Memory → CcUnit × Memory
  | 0, _, _, u, m => (u, m)
  | n + 1, src, dst, u, m =>
    combineLoop n (src + 1) (dst + 1) u.consume (m.write dst (m.read src ^^^ u.keyByte))

/-- CC_INIT (R122). -/
def execCcInit (s : State) : Result :=
  if s.argAuxlen ≠ 32 ∨ s.argLen ≠ 8 then s.raise .invalidLength
  else if ¬ s.InRange s.argAux 32 ∨ ¬ s.InRange s.argSrc 8 then s.raise .addressRange
  else
    let k := s.dbuf.readBytes s.argAux 32
    let n := s.dbuf.readBytes s.argSrc 8
    let u : CcUnit := CcUnit.advance { s.cc with s := chachaInit k n }
    (s.setCc { u with keyed := true }).complete

/-- CC_COMBINE (R123). -/
def execCcCombine (s : State) : Result :=
  if s.cc.keyed = false then s.raise .misusedEngine
  else if ¬ s.InRange s.argSrc s.argLen ∨ ¬ s.InRange s.argDst s.argLen then s.raise .addressRange
  else
    match combineLoop s.argLen s.argSrc s.argDst s.cc s.dbuf with
    | (u, m) => ((s.setCc u).setDbuf m).complete

/-- CC_DESTROY (R124). -/
def execCcDestroy (s : State) : Result := (s.setCc CcUnit.zero).complete

end Sys2Proof.Machine
end

