-- ==== Sys2Proof/Machine/CtEq.lean ====
section
/-! DEFINITION. The constant-time byte-equality comparator, the EQ unit (43_ct_equality.md). -/

namespace Sys2Proof.Machine

/-- `CtEqByte(x, y)`: the complement of the XOR folded by shifted ANDs (R170). -/
def ctEqByte (x y : Byte) : BitVec 1 :=
  let v := ~~~(x ^^^ y)
  let v := v &&& (v >>> 4)
  let v := v &&& (v >>> 2)
  let v := v &&& (v >>> 1)
  v.extractLsb' 0 1

/-- The comparator's pass over `n` byte pairs: what it accumulates, and the addresses it reads, in order. Every pair is
read, whatever the values (R171, R172). -/
def eqScan (m : Memory) : Nat → Nat → Nat → Byte → List Nat → Byte × List Nat
  | 0, _, _, acc, reads => (acc, reads)
  | n + 1, a, b, acc, reads => eqScan m n (a + 1) (b + 1) (acc ||| (m.read a ^^^ m.read b)) (reads ++ [a, b])

/-- The pass of CT_EQ over the two sequences of a state whose lengths are equal (R171). -/
def State.eqPass (s : State) : Byte × List Nat := eqScan s.dbuf s.argLen s.argSrc s.argAux 0 []

/-- CT_EQ (R171): the range checks come before the length comparison. -/
def execCtEq (s : State) : Result :=
  if ¬ s.InRange s.argSrc s.argLen ∨ ¬ s.InRange s.argAux s.argAuxlen then s.raise .addressRange
  else if s.argLen ≠ s.argAuxlen then (s.setResult 0).complete
  else (s.setResult ((ctEqByte s.eqPass.1 0).setWidth 32)).complete

/-- CT_EQB (R173). -/
def execCtEqb (s : State) : Result :=
  if ¬ s.InRange s.argSrc 1 ∨ ¬ s.InRange s.argAux 1 then s.raise .addressRange
  else (s.setResult ((ctEqByte (s.dbuf.read s.argSrc) (s.dbuf.read s.argAux)).setWidth 32)).complete

end Sys2Proof.Machine
end

