-- ==== Sys2Proof/Machine/Sha1.lean ====
section
/-! DEFINITION. The SHA-1 round processor and its Merkle–Damgård state machine, the SHA unit (42_sha1.md). -/

namespace Sys2Proof.Machine

/-- The initial hash value (R140). The spec marks it as general knowledge (FIPS 180), not its source's (log 12). -/
def sha1InitialHash : Vector Word 5 := #v[0x67452301, 0xEFCDAB89, 0x98BADCFE, 0x10325476, 0xC3D2E1F0]

/-- The 16 big-endian words of a 64-byte block (R141). -/
def blockWordsBE : List Byte → List Word
  | b0 :: b1 :: b2 :: b3 :: rest => be32 b0 b1 b2 b3 :: blockWordsBE rest
  | _ => []

/-- The message schedule extended by `n` words: `W[t] = rotl32(W[t-3] ^ W[t-8] ^ W[t-14] ^ W[t-16], 1)` (R141). -/
def extendSchedule : Nat → List Word → List Word
  | 0, w => w
  | n + 1, w =>
    let t := w.length
    extendSchedule n
      (w ++ [rotl32 (w.getD (t - 3) 0 ^^^ w.getD (t - 8) 0 ^^^ w.getD (t - 14) 0 ^^^ w.getD (t - 16) 0) 1])

/-- `W[0..79]` of a block (R141). -/
def messageSchedule (blk : List Byte) : List Word := extendSchedule 64 (blockWordsBE blk)

/-- The round function of step `t` (R141). -/
def roundF (t : Nat) (x y z : Word) : Word :=
  if t / 20 = 0 then z ^^^ (x &&& (y ^^^ z))
  else if t / 20 = 1 then x ^^^ y ^^^ z
  else if t / 20 = 2 then (x &&& y) ||| (z &&& (x ||| y))
  else x ^^^ y ^^^ z

/-- The round constant of step `t` (R141). -/
def roundK (t : Nat) : Word :=
  if t / 20 = 0 then 0x5a827999
  else if t / 20 = 1 then 0x6ed9eba1
  else if t / 20 = 2 then 0x8f1bbcdc
  else 0xca62c1d6

/-- The working variables a to e (R141). -/
structure Working where
  a : Word
  b : Word
  c : Word
  d : Word
  e : Word
  deriving DecidableEq, Repr

/-- One of the 80 steps (R141). -/
def compressStep (t : Nat) (w : Word) (v : Working) : Working :=
  { a := rotl32 v.a 5 + roundF t v.b v.c v.d + v.e + w + roundK t, b := v.a, c := rotl32 v.b 30, d := v.c, e := v.d }

/-- The steps from `t` on, one for each word of the schedule (R141). -/
def compressSteps : Nat → List Word → Working → Working
  | _, [], v => v
  | t, w :: ws, v => compressSteps (t + 1) ws (compressStep t w v)

/-- The running hash with the working variables added, word by word (R141). -/
def addWorking (h : Vector Word 5) (v : Working) : Vector Word 5 :=
  #v[h[0] + v.a, h[1] + v.b, h[2] + v.c, h[3] + v.d, h[4] + v.e]

/-- `Compress(blk)` on the running hash (R141). -/
def compress (h : Vector Word 5) (blk : List Byte) : Vector Word 5 :=
  addWorking h (compressSteps 0 (messageSchedule blk) { a := h[0], b := h[1], c := h[2], d := h[3], e := h[4] })

/-- `SHA_BUF[k .. k + |bs| - 1] <- bs`; every use stays inside the 64 bytes. -/
def bufStore (buf : Vector Byte 64) (k : Nat) : List Byte → Vector Byte 64
  | [] => buf
  | b :: bs => bufStore (buf.setIfInBounds k b) (k + 1) bs

/-- The loop of `Absorb` over the bytes still to take (R142). Each round takes at least one, so as many rounds as there
are bytes (the first argument) suffice. -/
def absorbLoop : Nat → List Byte → ShaUnit → ShaUnit
  | 0, _, u => u
  | fuel + 1, bs, u =>
    if bs.length = 0 then u
    else if u.curlen = 0 ∧ 64 ≤ bs.length then
      absorbLoop fuel (bs.drop 64) { u with h := compress u.h (bs.take 64) }
    else
      let m := min (64 - u.curlen.toNat) bs.length
      let buf := bufStore u.buf u.curlen.toNat (bs.take m)
      if u.curlen.toNat + m = 64 then
        absorbLoop fuel (bs.drop m) { u with buf := buf, h := compress u.h buf.toList, curlen := 0 }
      else
        absorbLoop fuel (bs.drop m) { u with buf := buf, curlen := BitVec.ofNat 6 (u.curlen.toNat + m) }

/-- `Absorb` of a byte sequence: the loop, then `8 * n` added to the bit length modulo `2^64` (R142). -/
def ShaUnit.absorb (u : ShaUnit) (bs : List Byte) : ShaUnit :=
  let u' := absorbLoop bs.length bs u
  { u' with bitlen := u.bitlen + BitVec.ofNat 64 (8 * bs.length) }

/-- The digest's 20 bytes from the running hash (R143). -/
def digestBytes (h : Vector Word 5) : List Byte := h.toList.flatMap be32bytes

/-- `Finalize()` on a unit: the running hash after the padding is compressed (R143). -/
def ShaUnit.finalHash (u : ShaUnit) : Vector Word 5 :=
  let c := u.curlen.toNat + 1
  let buf := u.buf.setIfInBounds u.curlen.toNat 0x80
  if c > 56 then
    let full := bufStore buf c (List.replicate (64 - c) 0)
    let fresh := bufStore (Vector.replicate 64 0) 56 (be64bytes u.bitlen)
    compress (compress u.h full.toList) fresh.toList
  else
    let padded := bufStore buf c (List.replicate (56 - c) 0)
    compress u.h (bufStore padded 56 (be64bytes u.bitlen)).toList

/-- What `Finalize()` returns (R143). -/
def ShaUnit.finalize (u : ShaUnit) : List Byte := digestBytes u.finalHash

/-- SHA1_CREATE (R144). -/
def execSha1Create (s : State) : Result :=
  (s.setSha { ShaUnit.zeroed .active with h := sha1InitialHash }).complete

/-- SHA1_UPDATE (R145). -/
def execSha1Update (s : State) : Result :=
  if s.sha.st ≠ .active then s.raise .misusedEngine
  else if ¬ s.InRange s.argSrc s.argLen then s.raise .addressRange
  else (s.setSha (s.sha.absorb (s.dbuf.readBytes s.argSrc s.argLen))).complete

/-- SHA1_DIGEST (R146): the digest is written, then the unit is zeroed. -/
def execSha1Digest (s : State) : Result :=
  if s.sha.st ≠ .active then s.raise .misusedEngine
  else if ¬ s.InRange s.argDst 20 then s.raise .addressRange
  else ((s.setDbuf (s.dbuf.writeBytes s.argDst s.sha.finalize)).setSha (ShaUnit.zeroed .finalized)).complete

/-- SHA1_DESTROY (R147). -/
def execSha1Destroy (s : State) : Result := (s.setSha (ShaUnit.zeroed .idle)).complete

end Sys2Proof.Machine
end

