-- ==== Sys2Proof/Machine/System.lean ====
section
/-! DEFINITION. NOP and the UNIMPLEMENTED rows (45_system.md). -/

namespace Sys2Proof.Machine

/-- NOP (R200). -/
def execNop (s : State) : Result := s.complete

/-- UNIMPLEMENTED: no operand is read, nothing but the completion changes (R202, I11). -/
def unimplemented (s : State) : Result := s.raise .unimplementedOperation

/-- A word of the second hash function's stub range (R87, R202). -/
def execUnimplHash2 (_k : BitVec 3) (s : State) : Result := unimplemented s

/-- A word of RSA's stub range (R87, R202, R203). -/
def execUnimplRsa (_k : BitVec 4) (s : State) : Result := unimplemented s

/-- Every other word (R86, R202). -/
def execUnimplOther (_w : Word) (s : State) : Result := unimplemented s

end Sys2Proof.Machine
end

