-- ==== Sys2Proof/Machine/Dispatch.lean ====
section
/-! DEFINITION. The engine step of each command: one arm per constructor of Instr. -/

namespace Sys2Proof.Machine

/-- The engine step of a command, on a state whose latch holds its arguments (30_encoding.md R84, R86). -/
def exec (i : Instr) (s : State) : Host.Outcome State Fault Refusal :=
  match i with
  | .nop => Sys2Proof.Machine.execNop s
  | .ccInit => Sys2Proof.Machine.execCcInit s
  | .ccCombine => Sys2Proof.Machine.execCcCombine s
  | .ccDestroy => Sys2Proof.Machine.execCcDestroy s
  | .sha1Create => Sys2Proof.Machine.execSha1Create s
  | .sha1Update => Sys2Proof.Machine.execSha1Update s
  | .sha1Digest => Sys2Proof.Machine.execSha1Digest s
  | .sha1Destroy => Sys2Proof.Machine.execSha1Destroy s
  | .bcSetKey => Sys2Proof.Machine.execBcSetKey s
  | .bcClear => Sys2Proof.Machine.execBcClear s
  | .ecbEnc => Sys2Proof.Machine.execEcbEnc s
  | .ecbDec => Sys2Proof.Machine.execEcbDec s
  | .cbcEnc => Sys2Proof.Machine.execCbcEnc s
  | .cbcDec => Sys2Proof.Machine.execCbcDec s
  | .ctEq => Sys2Proof.Machine.execCtEq s
  | .ctEqb => Sys2Proof.Machine.execCtEqb s
  | .cellOpen => Sys2Proof.Machine.execCellOpen s
  | .cellClose => Sys2Proof.Machine.execCellClose s
  | .zeroize => Sys2Proof.Machine.execZeroize s
  | .unimplHash2 k => Sys2Proof.Machine.execUnimplHash2 k s
  | .unimplRsa k => Sys2Proof.Machine.execUnimplRsa k s
  | .unimplOther w => Sys2Proof.Machine.execUnimplOther w s

end Sys2Proof.Machine
end

