-- ==== Sys2Proof/Machine/Engine.lean ====
section
/-! DEFINITION. The engine's turn (60_exceptions.md R230): the latched command runs as one step. -/

namespace Sys2Proof.Machine

/-- The command the engine is to run: decoded from `(L_RSV, L_OP)` (30_encoding.md R84, R86). -/
def State.latched (s : State) : Instr := decode s.latch.word

/-- The engine's turn: a pending command runs to completion; with none pending nothing happens (R230, log 5). -/
def State.engineTurn (s : State) : Result := if s.status.busy then exec s.latched s else .next s

end Sys2Proof.Machine
end

