-- ==== Sys2Proof/Machine/HostProgram.lean ====
section
/-! DEFINITION. Host programs (30_encoding.md R88 to R90): primitive lines, command lines and pseudo-commands, and the
turns of the schedule they stand for, for the base address of the window. -/

namespace Sys2Proof.Machine

/-- The registers by name, as program lines name them (R88). -/
inductive RegName where
  | id | ctrl | status | cmd | src | dst | len | aux | auxlen | result
  deriving DecidableEq, Repr

/-- The offset of a register (10_state.md R22). -/
def RegName.offset : RegName → Nat
  | .id => 0x00
  | .ctrl => 0x04
  | .status => 0x08
  | .cmd => 0x0C
  | .src => 0x10
  | .dst => 0x14
  | .len => 0x18
  | .aux => 0x1C
  | .auxlen => 0x20
  | .result => 0x24

/-- The argument fields of a command line (R88). -/
inductive Field where
  | src | dst | len | aux | auxlen
  deriving DecidableEq, Repr

/-- The register of an argument field (R88). -/
def Field.reg : Field → RegName
  | .src => .src
  | .dst => .dst
  | .len => .len
  | .aux => .aux
  | .auxlen => .auxlen

/-- A line of a host program (R88, R89). -/
inductive Line where
  /-- `W32 <reg>, <value>`. -/
  | w32 (r : RegName) (v : Word)
  /-- `R32 <reg>`. -/
  | r32 (r : RegName)
  /-- `WB <addr>, <hexbytes>`. -/
  | wb (a : Nat) (bs : List Byte)
  /-- `RB <addr>, <n>`. -/
  | rb (a n : Nat)
  /-- `WAIT`. -/
  | wait
  /-- `<MNEMONIC> [<field>=<value>, ...]`. -/
  | command (i : Instr) (args : List (Field × Word))
  /-- `CC_NEW aux=k, src=n` (R89). -/
  | ccNew (k n : Word)
  /-- `CC_ENCRYPT` and `CC_DECRYPT src=a, dst=b, len=n`, which are the same (R89). -/
  | ccCrypt (a b n : Word)
  /-- `SHA1 src=a, len=n, dst=d` (R89). -/
  | sha1 (a n d : Word)
  /-- `EQ src=a, len=n, aux=b, auxlen=m` (R89). -/
  | eq (a n b m : Word)
  /-- `CLEAR dst=a, len=n` (R89). -/
  | clear (a n : Word)
  deriving DecidableEq, Repr

/-- The turn of a 32-bit register write (R88). -/
def w32 (base : Nat) (r : RegName) (v : Word) : Turn := .host (.write (base + r.offset) 4 v)

/-- The turn of a 32-bit register read (R88). -/
def r32 (base : Nat) (r : RegName) : Turn := .host (.read (base + r.offset) 4)

/-- The turns of `WAIT`: with commands as atomic steps the STATUS poll ends after one read, made once the engine has had
its turn (R88, R230; 95_test_vectors.md section 3; log 9). -/
def waitTurns (base : Nat) : List Turn := [.engine, r32 base .status]

/-- The turns of `WB`: 1-byte writes in order, at bus offset `0x10000 + addr` (R88). -/
def wbTurns (base a : Nat) : List Byte → List Turn
  | [] => []
  | b :: bs => .host (.write (base + 0x10000 + a) 1 (b.setWidth 32)) :: wbTurns base (a + 1) bs

/-- The turns of `RB`: 1-byte reads in order (R88). -/
def rbTurns (base a : Nat) : Nat → List Turn
  | 0 => []
  | n + 1 => .host (.read (base + 0x10000 + a) 1) :: rbTurns base (a + 1) n

/-- The turns of a command line: its fields in the order given, then CMD, then WAIT (R88). -/
def commandTurns (base : Nat) (i : Instr) (args : List (Field × Word)) : List Turn :=
  args.map (fun x => w32 base x.1.reg x.2) ++ w32 base .cmd (encode i) :: waitTurns base

/-- The turns of a line (R88, R89). -/
def Line.turns (base : Nat) : Line → List Turn
  | .w32 r v => [Machine.w32 base r v]
  | .r32 r => [Machine.r32 base r]
  | .wb a bs => wbTurns base a bs
  | .rb a n => rbTurns base a n
  | .wait => waitTurns base
  | .command i args => commandTurns base i args
  | .ccNew k n => commandTurns base .ccInit [(.aux, k), (.auxlen, 32), (.src, n), (.len, 8)]
  | .ccCrypt a b n => commandTurns base .ccCombine [(.src, a), (.dst, b), (.len, n)]
  | .sha1 a n d =>
    commandTurns base .sha1Create [] ++ commandTurns base .sha1Update [(.src, a), (.len, n)] ++
      commandTurns base .sha1Digest [(.dst, d)]
  | .eq a n b m =>
    commandTurns base .ctEq [(.src, a), (.len, n), (.aux, b), (.auxlen, m)] ++ [Machine.r32 base .result]
  | .clear a n => commandTurns base .zeroize [(.dst, a), (.len, n)]

/-- The turns of a host program (R90). -/
def programTurns (base : Nat) (p : List Line) : List Turn := p.flatMap (Line.turns base)

end Sys2Proof.Machine
end

