-- ==== Sys2Proof/Machine/Step.lean ====
section
/-! DEFINITION. One step of the system: the next turn of the schedule (60_exceptions.md R230, 20_memory.md R70). -/

namespace Sys2Proof.Machine

/-- What a turn does (R230, R240). -/
def State.takeTurn (s : State) : Turn → Result
  | .engine => s.engineTurn
  | .host a => s.busAccess a
  | .warmReset => .next s.warmReset
  | .powerOn => .next s.powerOnReset

/-- One step: the next turn of the schedule is taken. With no turn left the engine moves, so that a pending command
still completes (70_reset_and_hazards.md R257, log 5). -/
def step (s : State) : Host.Outcome State Fault Refusal :=
  match s.schedule with
  | [] => s.engineTurn
  | t :: rest => (s.setSchedule rest).takeTurn t

/-- The state with a command word put where the next step takes its command from: the word is issued as by an accepted
CMD write (30_encoding.md R84), and the engine moves next (log 10). -/
def State.withFetchWord (s : State) (nbits w : Nat) : State :=
  (s.issue (tableWord nbits w)).setSchedule (.engine :: s.schedule)

end Sys2Proof.Machine
end

