-- ==== Sys2Proof/Safety.lean ====
section
/-! DEFINITION. What counts as a safe run, and the invariants of the machine between steps (10_state.md R45 to R49,
93_implementation_defined.md I17). -/

namespace Sys2Proof.Machine

/-- A safe state: its next step is no HostRace (20_memory.md R71, R251). -/
def State.Safe (s : State) : Prop := step s ≠ .fault .hostRace

/-- A 64-bit counter of a ChaCha20 state: `CTR = CC_S[13] << 32 | CC_S[12]` (R44). -/
def counterOf (v : Vector Word 16) : BitVec 64 := v[13] ++ v[12]

/-- A ChaCha20 state with another counter value. -/
def withCounter (v : Vector Word 16) (c : BitVec 64) : Vector Word 16 :=
  (v.set 12 (c.extractLsb' 0 32)).set 13 (c.extractLsb' 32 32)

/-- The running hash over the first `n` blocks of 64 bytes of a message (42_sha1.md R141, R142). -/
def hashBlocks : Nat → Vector Word 5 → List Byte → Vector Word 5
  | 0, h, _ => h
  | n + 1, h, bs => hashBlocks n (compress h (bs.take 64)) (bs.drop 64)

/-- The data buffer is in canonical form and holds no byte at or above DBUF_SIZE (20_memory.md R60). -/
def State.DbufOk (s : State) : Prop := s.dbuf.wf ∧ ∀ c ∈ s.dbuf.cells, c.1 < s.params.dbufSize

/-- There are NCELLS cells; an open one holds a non-empty region inside the data buffer, a closed one is all zero (R49,
44_secure_memory.md R181, R182). -/
def State.CellsOk (s : State) : Prop :=
  s.cells.length = s.params.nCells ∧
  ∀ c ∈ s.cells,
    (c.isOpen = true → 0 < c.len.toNat ∧ c.base.toNat + c.len.toNat ≤ s.params.dbufSize) ∧
    (c.isOpen = false → c = SecCell.zero)

/-- ERR says whether ERRCODE is 0, ERRCODE is never reserved, and neither DONE nor ERR stands while BUSY does (R26 to
R30, 60_exceptions.md R210, I17). -/
def State.StatusOk (s : State) : Prop :=
  s.status.err = decide (s.status.errCode ≠ 0) ∧ s.status.errCode.toNat ≤ 6 ∧
  (s.status.busy = true → s.status.done = false ∧ s.status.err = false)

/-- A keyed CC unit holds the constants, and in CC_KS the block for the counter before the current one; a CC unit without
an engine is all zero (R44, R45). -/
def State.CcOk (s : State) : Prop :=
  (s.cc.keyed = true →
    s.cc.s[0] = 0x61707865 ∧ s.cc.s[1] = 0x3320646e ∧ s.cc.s[2] = 0x79622d32 ∧ s.cc.s[3] = 0x6b206574 ∧
    s.cc.ks = keystreamBlock (withCounter s.cc.s (counterOf s.cc.s - 1))) ∧
  (s.cc.keyed = false → s.cc = CcUnit.zero)

/-- A SHA unit that is not ACTIVE is all zero (R46, 42_sha1.md R146, R147). -/
def State.ShaOk (s : State) : Prop := s.sha.st ≠ .active → s.sha = ShaUnit.zeroed s.sha.st

/-- BC_PREV is 0 between commands; a loaded key has an accepted length and is 0 beyond it; without a key BC_KEY and
BC_KEYLEN are 0 (R48, 40_block_modes.md R101, R102, R106). -/
def State.BcOk (s : State) : Prop :=
  s.bc.prev = List.replicate s.params.blockSize 0 ∧
  (s.bc.keyed = true → keySizeOk s.params s.bc.keyLen = true) ∧
  (s.bc.keyed = false → s.bc.keyLen = 0) ∧
  ∀ i : Fin 32, s.bc.keyLen ≤ i.val → s.bc.key[i] = 0

/-- The invariant of the machine between steps. -/
structure State.Inv (s : State) : Prop where
  legal : s.params.Legal
  dbuf : s.DbufOk
  cells : s.CellsOk
  status : s.StatusOk
  cc : s.CcOk
  sha : s.ShaOk
  bc : s.BcOk

end Sys2Proof.Machine
end

