-- ==== Sys2Proof/Certificates/Slice0/Obligations.lean ====
section
/-! DEFINITION. The statements about the CCE, for the provers. The helpers under Sys2Proof.Claims write down what the
spec's rules say, apart from the model's own operations. -/

namespace Sys2Proof.Claims

open Sys2Proof.Machine

/-- What `complete()` leaves of a state (60_exceptions.md R211). -/
def completed (s : State) : State :=
  { s with status := { busy := false, done := true, err := false, ovr := s.status.ovr, errCode := 0 } }

/-- What `raise Err(code)` leaves of a state (60_exceptions.md R212). -/
def failed (s : State) (code : BitVec 4) : State :=
  { s with status := { busy := false, done := true, err := true, ovr := s.status.ovr, errCode := code } }

/-- The range `(a, n)` does not fit in the data buffer (20_memory.md R65). -/
def outside (s : State) (a n : Nat) : Bool := decide (n ≠ 0 ∧ s.params.dbufSize < a + n)

/-- The operand ranges a command touches (30_encoding.md R81), as first address and count. -/
def ranges (s : State) : Instr → List (Nat × Nat)
  | .ccInit => [(s.argAux, 32), (s.argSrc, 8)]
  | .ccCombine | .ecbEnc | .ecbDec => [(s.argSrc, s.argLen), (s.argDst, s.argLen)]
  | .sha1Update => [(s.argSrc, s.argLen)]
  | .sha1Digest => [(s.argDst, 20)]
  | .bcSetKey | .cellOpen => [(s.argAux, s.argAuxlen)]
  | .cbcEnc | .cbcDec => [(s.argAux, s.params.blockSize), (s.argSrc, s.argLen), (s.argDst, s.argLen)]
  | .ctEq => [(s.argSrc, s.argLen), (s.argAux, s.argAuxlen)]
  | .ctEqb => [(s.argSrc, 1), (s.argAux, 1)]
  | .zeroize => [(s.argDst, s.argLen)]
  | .nop | .ccDestroy | .sha1Create | .sha1Destroy | .bcClear | .cellClose | .unimplHash2 _ | .unimplRsa _
  | .unimplOther _ => []

/-- The cell index names an open cell below NCELLS. -/
def cellIsOpen (s : State) (i : Nat) : Bool :=
  decide (i < s.params.nCells) && (s.cells[i]?.map SecCell.isOpen).getD false

/-- Whether an error applies to a command in a state: one cell of the table of 60_exceptions.md R217. -/
def applies (s : State) (i : Instr) : Err → Bool
  | .unimplementedOperation =>
    match i with
    | .unimplHash2 _ | .unimplRsa _ | .unimplOther _ => true
    | _ => false
  | .misusedEngine =>
    match i with
    | .ccCombine => !s.cc.keyed
    | .sha1Update | .sha1Digest => decide (s.sha.st ≠ .active)
    | .ecbEnc | .ecbDec | .cbcEnc | .cbcDec => !s.bc.keyed
    | .cellClose => !cellIsOpen s s.argSrc
    | _ => false
  | .invalidIv =>
    match i with
    | .cbcEnc | .cbcDec => decide (s.argAuxlen ≠ s.params.blockSize)
    | _ => false
  | .invalidLength =>
    match i with
    | .ccInit => decide (s.argAuxlen ≠ 32 ∨ s.argLen ≠ 8)
    | .bcSetKey =>
      !((s.params.key16 && s.argAuxlen == 16) || (s.params.key24 && s.argAuxlen == 24) ||
        (s.params.key32 && s.argAuxlen == 32))
    | .ecbEnc | .ecbDec | .cbcEnc | .cbcDec => decide (s.argLen % s.params.blockSize ≠ 0)
    | .cellOpen => decide (s.argAuxlen = 0)
    | _ => false
  | .addressRange => (ranges s i).any fun r => outside s r.1 r.2
  | .cellUnavailable =>
    match i with
    | .cellOpen => (s.cells.take s.params.nCells).all SecCell.isOpen
    | _ => false

/-- The errors in the order in which they are reported, with their codes (60_exceptions.md R210, R213). -/
def reportOrder : List (Err × BitVec 4) :=
  [(.unimplementedOperation, 4), (.misusedEngine, 3), (.invalidIv, 2), (.invalidLength, 1), (.addressRange, 5),
   (.cellUnavailable, 6)]

/-- The error code a command is to report: the first that applies in the order of R213, 0 when none does. -/
def reportedCode (s : State) (i : Instr) : BitVec 4 :=
  ((reportOrder.find? fun e => applies s i e.1).map Prod.snd).getD 0

/-- Two ranges of one length do not overlap. -/
def Disjoint (a b n : Nat) : Prop := a + n ≤ b ∨ b + n ≤ a

/-- Byte `j` of the keystream that is ahead of a CC unit: the rest of its block, then the blocks of the counters from the
current one on (41_chacha20.md R121, R123). -/
def streamByte (u : CcUnit) (j : Nat) : Byte :=
  let p := u.cur.toNat + j
  if p < 64 then u.ks.toList.getD p 0
  else (keystreamBlock (withCounter u.s (counterOf u.s + BitVec.ofNat 64 (p / 64 - 1)))).toList.getD (p % 64) 0

/-- `QR(w, a, b, c, d)` on a working array, assignment by assignment (41_chacha20.md R121). -/
def quarter (w : Nat → Word) (a b c d : Nat) : Nat → Word :=
  let w := Function.update w a (w a + w b); let w := Function.update w d (w d ^^^ w a)
  let w := Function.update w d (rotl32 (w d) 16)
  let w := Function.update w c (w c + w d); let w := Function.update w b (w b ^^^ w c)
  let w := Function.update w b (rotl32 (w b) 12)
  let w := Function.update w a (w a + w b); let w := Function.update w d (w d ^^^ w a)
  let w := Function.update w d (rotl32 (w d) 8)
  let w := Function.update w c (w c + w d); let w := Function.update w b (w b ^^^ w c)
  Function.update w b (rotl32 (w b) 7)

/-- The groups of a double-round, columns then diagonals (41_chacha20.md R121). -/
def groups : List (Nat × Nat × Nat × Nat) :=
  [(0, 4, 8, 12), (1, 5, 9, 13), (2, 6, 10, 14), (3, 7, 11, 15),
   (0, 5, 10, 15), (1, 6, 11, 12), (2, 7, 8, 13), (3, 4, 9, 14)]

/-- `n` double-rounds on a working array (41_chacha20.md R121). -/
def rounds : Nat → (Nat → Word) → Nat → Word
  | 0, w => w
  | n + 1, w => rounds n (groups.foldl (fun w g => quarter w g.1 g.2.1 g.2.2.1 g.2.2.2) w)

/-- `f(x, y, z)` and `K` of the rounds of SHA-1 (42_sha1.md R141). -/
def sha1Round : Nat → (Word → Word → Word → Word) × Word
  | 0 => (fun x y z => z ^^^ (x &&& (y ^^^ z)), 0x5a827999)
  | 1 => (fun x y z => x ^^^ y ^^^ z, 0x6ed9eba1)
  | 2 => (fun x y z => (x &&& y) ||| (z &&& (x ||| y)), 0x8f1bbcdc)
  | _ => (fun x y z => x ^^^ y ^^^ z, 0xca62c1d6)

/-- `KS(j)` of 41_chacha20.md R126 for a key and a nonce. -/
def keyStream (k n : List Byte) (j : Nat) : Byte :=
  (keystreamBlock (withCounter (chachaInit k n) (BitVec.ofNat 64 (j / 64)))).toList.getD (j % 64) 0

/-- The CC unit after a CC_INIT with key `k` and nonce `n` and CC_COMBINE commands that together consumed `N` bytes;
between two of them anything may happen that leaves the unit as it is. -/
inductive Consumed (k n : List Byte) : Nat → CcUnit → Prop where
  | init (s t : State) (hk : s.dbuf.readBytes s.argAux 32 = k) (hn : s.dbuf.readBytes s.argSrc 8 = n)
      (h : exec .ccInit s = .next t) (he : t.status.err = false) : Consumed k n 0 t.cc
  | combine (N : Nat) (s t : State) (hp : Consumed k n N s.cc) (h : exec .ccCombine s = .next t)
      (he : t.status.err = false) : Consumed k n (N + s.argLen) t.cc

/-- The SHA unit after a SHA1_CREATE and SHA1_UPDATE commands that together absorbed the message `m`; between two of them
anything may happen that leaves the unit as it is. -/
inductive Absorbed : List Byte → ShaUnit → Prop where
  | create (s t : State) (h : exec .sha1Create s = .next t) : Absorbed [] t.sha
  | update (m : List Byte) (s t : State) (hp : Absorbed m s.sha) (h : exec .sha1Update s = .next t)
      (he : t.status.err = false) : Absorbed (m ++ s.dbuf.readBytes s.argSrc s.argLen) t.sha

/-- Bytes with the Merkle–Damgård padding: 0x80, zeros up to 56 modulo 64, a bit length in 8 big-endian bytes
(42_sha1.md R143). -/
def pad (bs : List Byte) (bits : BitVec 64) : List Byte :=
  bs ++ [0x80] ++ List.replicate ((119 - bs.length % 64) % 64) 0 ++ be64bytes bits

/-- A message with its padding, for its own bit length (42_sha1.md R143). -/
def padded (m : List Byte) : List Byte := pad m (BitVec.ofNat 64 (8 * m.length))

/-- The bytes a SHA unit buffers, `SHA_BUF[0 .. SHA_CURLEN-1]`. -/
def buffered (u : ShaUnit) : List Byte := u.buf.toList.take u.curlen.toNat

/-- SHA-1 of a message, in one piece (42_sha1.md R140, R141, R143). -/
def sha1Of (m : List Byte) : List Byte :=
  digestBytes (hashBlocks ((padded m).length / 64) #v[0x67452301, 0xEFCDAB89, 0x98BADCFE, 0x10325476, 0xC3D2E1F0] (padded m))

/-- The data buffers `M 0`, `M 1`, … of a command that transforms `n` blocks of `b` bytes one by one in increasing
address, block `j` by `f j`, each read whole before it is written (20_memory.md R74). -/
def BlockRun (b src dst n : Nat) (f : Nat → List Byte → List Byte) (M : Nat → Memory) : Prop :=
  ∀ j < n, M (j + 1) = (M j).writeBytes (dst + j * b) (f j ((M j).readBytes (src + j * b) b))

/-- The window offset of a data-buffer address (20_memory.md R60). -/
def bufferOffset (a : Nat) : BitVec 17 := BitVec.ofNat 17 (0x10000 + a)

/-- The `n` bytes at a bus address are data-buffer bytes: the access has a width of the data buffer, starts in the upper
half of the window, is naturally aligned and ends below DBUF_SIZE (20_memory.md R61, R63). -/
def reachesBuffer (p : Params) (addr n : Nat) : Prop :=
  (n = 1 ∨ n = 2 ∨ n = 4) ∧ p.cceBase + 0x10000 ≤ addr ∧ addr < p.cceBase + 0x20000 ∧
    (addr - (p.cceBase + 0x10000)) % n = 0 ∧ addr - (p.cceBase + 0x10000) + n ≤ p.dbufSize

/-- What a host read answers. -/
def answer : Result → Option Word
  | .next t => t.lastRead
  | _ => none

/-- A write of CTRL with the given bit set, on the bus of a CCE whose window starts at `base`. -/
def ctrlWriteWith (base bit : Nat) : Turn → Prop
  | .host (.write addr n v) => addr = base + 0x04 ∧ n = 4 ∧ v.getLsbD bit = true
  | _ => False

/-- A turn that resets the machine: RST, POR or a CTRL write with SRST (70_reset_and_hazards.md R240). -/
def resetTurn (base : Nat) (t : Turn) : Prop := t = .warmReset ∨ t = .powerOn ∨ ctrlWriteWith base 1 t

/-- A bus access that neither starts in the upper half of the window, where the data buffer is, nor is a soft reset. -/
def quietAccess (base : Nat) (a : Access Nat) : Prop :=
  (a.place < base + 0x10000 ∨ base + 0x20000 ≤ a.place) ∧ ¬ ctrlWriteWith base 1 (.host a)

/-- The two states look the same to a host: registers, STATUS, parameters, data buffer (10_state.md R50). -/
def LookAlike (s u : State) : Prop :=
  s.params = u.params ∧ s.regs = u.regs ∧ s.status = u.status ∧ s.dbuf = u.dbuf ∧ s.cc.keyed = u.cc.keyed ∧
  s.sha.st = u.sha.st ∧ s.bc.keyed = u.bc.keyed ∧ s.cells.map SecCell.isOpen = u.cells.map SecCell.isOpen

/-- The address lies in the region of an open cell below NCELLS. -/
def inOpenCell (s : State) (a : Nat) : Prop :=
  ∃ i, ∃ c, i < s.params.nCells ∧ s.cells[i]? = some c ∧ c.isOpen = true ∧ c.base.toNat ≤ a ∧
    a < c.base.toNat + c.len.toNat

end Sys2Proof.Claims

open Sys2Proof Sys2Proof.Machine Sys2Proof.Claims

/-! ## Encoding and dispatch -/

/-- Words written out from the opcode map decode to their commands (30_encoding.md R83; stub ranges and other words
from section 2). -/
def Obligations.OpcodeMapWordsDecode : Prop :=
  decode 0x00000000 = .nop ∧ decode 0x00000001 = .ccInit ∧ decode 0x00000002 = .ccCombine ∧
  decode 0x00000003 = .ccDestroy ∧ decode 0x00000010 = .sha1Create ∧ decode 0x00000011 = .sha1Update ∧
  decode 0x00000012 = .sha1Digest ∧ decode 0x00000013 = .sha1Destroy ∧ decode 0x00000020 = .bcSetKey ∧
  decode 0x00000021 = .bcClear ∧ decode 0x00000022 = .ecbEnc ∧ decode 0x00000023 = .ecbDec ∧
  decode 0x00000024 = .cbcEnc ∧ decode 0x00000025 = .cbcDec ∧ decode 0x00000030 = .ctEq ∧
  decode 0x00000031 = .ctEqb ∧ decode 0x00000040 = .cellOpen ∧ decode 0x00000041 = .cellClose ∧
  decode 0x00000042 = .zeroize ∧ decode 0x00000018 = .unimplHash2 0 ∧ decode 0x0000001F = .unimplHash2 7 ∧
  decode 0x00000050 = .unimplRsa 0 ∧ decode 0x0000005F = .unimplRsa 15 ∧
  decode 0x00000101 = .unimplOther 0x00000101 ∧ decode 0x000000FF = .unimplOther 0x000000FF

/-- Decoding what was encoded gives the command back, as a word and as the bytes of the bus, for every well-formed
command (30_encoding.md sections 1 and 2, from R80, R83 and R87; log 11 for the order of the bytes). -/
def Obligations.EncodedCommandDecodesBack : Prop :=
  ∀ i : Instr, i.wf = true →
    decode (encode i) = i ∧ ∀ rest, decodeBytes (encodeBytes i ++ rest) = .ok (i, rest)

/-- Every word is the encoding of the one well-formed command it decodes to (30_encoding.md section 2, from R86:
decoding is total). -/
def Obligations.EveryWordHasExactlyOneCommand : Prop :=
  ∀ w : Word, (decode w).wf = true ∧ encode (decode w) = w ∧
    ∀ i : Instr, i.wf = true → encode i = w → i = decode w

/-- A step takes the next turn of the schedule: the engine's turn runs the decoded command of a BUSY machine as `exec`
does and does nothing on an idle one; a host turn performs its access, at the offset of its address from CCE_BASE when
that lies in the window of 128 KiB, and leaves the CCE alone elsewhere; a reset turn resets; and with no turn left the
engine moves. A word that the fetch hook puts there is the word the next step runs, as an accepted CMD write of it
(60_exceptions.md section 5; 20_memory.md section 1, from R61; log 4, log 5, log 7 and log 10: that the schedule holds
the turns, that the engine moves when it is empty, that the start of an access decides whether it is the CCE's, and the
fetch hook are the model's form). -/
def Obligations.StepTakesTheNextTurn : Prop :=
  ∀ (s : State) (rest : List Turn),
    (∀ i, s.schedule = .engine :: rest → s.status.busy = true → decode (s.latch.rsv ++ s.latch.op) = i →
      step s = exec i (s.setSchedule rest)) ∧
    (∀ i, s.schedule = [] → s.status.busy = true → decode (s.latch.rsv ++ s.latch.op) = i → step s = exec i s) ∧
    (s.schedule = .engine :: rest → s.status.busy = false → step s = .next (s.setSchedule rest)) ∧
    (s.schedule = [] → s.status.busy = false → step s = .next s) ∧
    (∀ (a : Access Nat) (off : BitVec 17), s.schedule = .host a :: rest → a.place = s.params.cceBase + off.toNat →
      step s = (s.setSchedule rest).hostAccess (a.moveTo off)) ∧
    (∀ a, s.schedule = .host a :: rest → a.place < s.params.cceBase ∨ s.params.cceBase + 0x20000 ≤ a.place →
      step s = .next (s.setSchedule rest)) ∧
    (s.schedule = .warmReset :: rest → step s = .next (s.setSchedule rest).warmReset) ∧
    (s.schedule = .powerOn :: rest → step s = .next (s.setSchedule rest).powerOnReset) ∧
    (∀ w : Word, step (s.withFetchWord 32 w.toNat) = exec (decode w) (s.issue w))

/-! ## Reset and the register window -/

/-- The register map: what a 32-bit read of each offset returns, that writes of read-only and reserved offsets change
nothing, and that after every reset each register reads its reset value (10_state.md R23, R42; section 2). -/
def Obligations.RegisterMapReadsAndResets : Prop :=
  (∀ s : State,
    (s.hostAccess (.read 0x00 4) = .next (s.setLastRead (some 0x43434501))) ∧
    (s.hostAccess (.read 0x04 4) = .next (s.setLastRead (some (if s.regs.ie then 1 else 0)))) ∧
    (s.hostAccess (.read 0x08 4) = .next (s.setLastRead (some s.statusWord))) ∧
    (s.hostAccess (.read 0x0C 4) = .next (s.setLastRead (some 0))) ∧
    (s.hostAccess (.read 0x10 4) = .next (s.setLastRead (some s.regs.src))) ∧
    (s.hostAccess (.read 0x14 4) = .next (s.setLastRead (some s.regs.dst))) ∧
    (s.hostAccess (.read 0x18 4) = .next (s.setLastRead (some s.regs.len))) ∧
    (s.hostAccess (.read 0x1C 4) = .next (s.setLastRead (some s.regs.aux))) ∧
    (s.hostAccess (.read 0x20 4) = .next (s.setLastRead (some s.regs.auxlen))) ∧
    (s.hostAccess (.read 0x24 4) = .next (s.setLastRead (some s.regs.result))) ∧
    (∀ off : BitVec 17, 0x28 ≤ off.toNat → off.toNat < 0x10000 → off.toNat % 4 = 0 →
      s.hostAccess (.read off 4) = .next (s.setLastRead (some 0)) ∧
      ∀ v, s.hostAccess (.write off 4 v) = .next s) ∧
    (∀ v, s.hostAccess (.write 0x00 4 v) = .next s ∧ s.hostAccess (.write 0x08 4 v) = .next s ∧
      s.hostAccess (.write 0x24 4 v) = .next s)) ∧
  ∀ s : State, ∀ r ∈ [State.reset, s.warmReset, s.powerOnReset],
    answer (r.hostAccess (.read 0x00 4)) = some 0x43434501 ∧
    ∀ off : BitVec 17, 0 < off.toNat → off.toNat < 0x10000 → off.toNat % 4 = 0 →
      answer (r.hostAccess (.read off 4)) = some 0

/-- The state after reset: every register but ID 0, every unit zero, SHA_ST IDLE, no cell open, IRQ 0, no data-buffer
byte written (10_state.md section 2 and 3, 70_reset_and_hazards.md section 1). The parameters are the spec's defaults
and the counters 0 (log 1, log 2, log 8: the model's choice), so nothing is said of them here. -/
def Obligations.ResetStateIsZeroAndIdle : Prop :=
  State.reset.regs = { ie := false, src := 0, dst := 0, len := 0, aux := 0, auxlen := 0, result := 0 } ∧
  State.reset.statusWord = 0 ∧ State.reset.irq = false ∧
  State.reset.latch = { op := 0, rsv := 0, src := 0, dst := 0, len := 0, aux := 0, auxlen := 0 } ∧
  (∀ i : Fin 16, State.reset.cc.s[i] = 0) ∧ (∀ i : Fin 64, State.reset.cc.ks[i] = 0) ∧
  State.reset.cc.cur = 0 ∧ State.reset.cc.keyed = false ∧
  (∀ i : Fin 5, State.reset.sha.h[i] = 0) ∧ (∀ i : Fin 64, State.reset.sha.buf[i] = 0) ∧
  State.reset.sha.curlen = 0 ∧ State.reset.sha.bitlen = 0 ∧ State.reset.sha.st = .idle ∧
  (∀ i : Fin 32, State.reset.bc.key[i] = 0) ∧ State.reset.bc.keyLen = 0 ∧ State.reset.bc.keyed = false ∧
  (∀ b ∈ State.reset.bc.prev, b = 0) ∧
  State.reset.cells.length = State.reset.params.nCells ∧
  (∀ c ∈ State.reset.cells, c = { isOpen := false, base := 0, len := 0 }) ∧ State.reset.dbuf.cells = []

/-- The invariant holds after reset: the parameters are legal, the data buffer is in canonical form, the cells, STATUS and
the units are as the invariant of each says (70_reset_and_hazards.md section 1; 00_scope.md section 3; 20_memory.md
section 1). Log 1: the parameters of the reset state, CCE_BASE = 0 among them, are the model's choice; log 2: the
canonical form is the model's form of the buffer; log 16: so are the shapes of BC_PREV and BC_KEYLEN. -/
def Obligations.ResetMeetsTheInvariant : Prop := State.reset.Inv

/-! ## Invariants every step keeps -/

/-- The data buffer keeps its canonical form and holds no byte outside DBUF_SIZE, and the cells keep their shape and
stay inside the data buffer (20_memory.md section 1; 44_secure_memory.md, from R180 to R182; log 2: the canonical form
is the model's form of the buffer). -/
def Obligations.StepKeepsBufferAndCells : Prop :=
  ∀ s t : State, s.DbufOk ∧ s.CellsOk → step s = .next t → t.DbufOk ∧ t.CellsOk

/-- In a keyed CC unit CC_KS stays the block of the counter before the current one; an absent engine stays all zero
(10_state.md section 3, from R45, whose part on CC_KS the spec marks as derived). -/
def Obligations.StepKeepsKeystreamInvariant : Prop :=
  ∀ s t : State, s.CcOk → step s = .next t → t.CcOk

/-- ERR keeps saying whether ERRCODE is 0, ERRCODE stays below 7, and neither DONE nor ERR stands while BUSY does
(10_state.md section 2, 93_implementation_defined.md I17). -/
def Obligations.StepKeepsStatusFieldsLegal : Prop :=
  ∀ s t : State, s.StatusOk → step s = .next t → t.StatusOk

/-- A SHA unit that is not ACTIVE stays all zero; the BC unit keeps its key length legal, its key zero beyond that
length and BC_PREV zero between commands (10_state.md section 3; 42_sha1.md section 2; 40_block_modes.md section 2;
log 16: the shapes of BC_PREV and BC_KEYLEN are the model's form). -/
def Obligations.StepKeepsHashAndCipherUnitsClean : Prop :=
  ∀ s t : State, s.ShaOk ∧ s.BcOk → step s = .next t → t.ShaOk ∧ t.BcOk

/-- No step changes the parameters (00_scope.md section 3; log 1: that they stand in the state is the model's form). -/
def Obligations.StepKeepsParameters : Prop :=
  ∀ s t : State, step s = .next t → t.params = s.params

/-! ## Errors and completion -/

/-- Every command completes: it answers a next state with BUSY = 0 and DONE = 1, and it changes nothing that only the
host or a reset may change: the argument registers, IE, OVR, the latch, and what belongs to the system around the
engine (10_state.md section 1, 60_exceptions.md section 2; log 1, log 2, log 4, log 6 and log 8: that the parameters, the
two counters, the turns to come and the last read value stand in the state is the model's form). -/
def Obligations.EveryCommandCompletesAndLeavesHostState : Prop :=
  ∀ (i : Instr) (s : State), ∃ t, exec i s = .next t ∧ t.status.busy = false ∧ t.status.done = true ∧
    t.status.ovr = s.status.ovr ∧ t.regs.ie = s.regs.ie ∧ t.regs.src = s.regs.src ∧ t.regs.dst = s.regs.dst ∧
    t.regs.len = s.regs.len ∧ t.regs.aux = s.regs.aux ∧ t.regs.auxlen = s.regs.auxlen ∧ t.latch = s.latch ∧
    t.params = s.params ∧ t.aborts = s.aborts ∧ t.schedule = s.schedule ∧ t.lastRead = s.lastRead ∧
    t.dbuf.epoch = s.dbuf.epoch

/-- The error a command reports is the first that applies in the order of R213, with the code of R210, and ERR is 1
just when one applies (60_exceptions.md R213). -/
def Obligations.FirstApplicableErrorIsReported : Prop :=
  ∀ (i : Instr) (s : State), ∃ t, exec i s = .next t ∧ t.status.errCode = reportedCode s i ∧
    t.status.err = decide (reportedCode s i ≠ 0)

/-- A command that completes with an error performs the four completion writes and nothing else (60_exceptions.md
R212). -/
def Obligations.FailedCommandChangesNothingElse : Prop :=
  ∀ (i : Instr) (s t : State), exec i s = .next t → t.status.err = true → t = failed s t.status.errCode

/-- RESULT is written by CT_EQ, CT_EQB and CELL_OPEN alone, when they complete without error, with 0, 1 or a cell
index; host writes of it are ignored and a reset clears it (10_state.md R41). -/
def Obligations.ResultIsWrittenByThreeCommandsOnly : Prop :=
  (∀ (i : Instr) (s t : State), exec i s = .next t → t.regs.result ≠ s.regs.result →
    t.status.err = false ∧ (i = .ctEq ∨ i = .ctEqb ∨ i = .cellOpen)) ∧
  (∀ s t : State, exec .ctEq s = .next t → t.status.err = false →
    t.regs.result = if s.dbuf.readBytes s.argSrc s.argLen = s.dbuf.readBytes s.argAux s.argAuxlen then 1 else 0) ∧
  (∀ s t : State, exec .ctEqb s = .next t → t.status.err = false →
    t.regs.result = if s.dbuf.read s.argSrc = s.dbuf.read s.argAux then 1 else 0) ∧
  (∀ s t : State, exec .cellOpen s = .next t → t.status.err = false → s.params.nCells ≤ 8 →
    cellIsOpen s t.regs.result.toNat = false ∧ cellIsOpen t t.regs.result.toNat = true) ∧
  (∀ (s : State) v, s.hostAccess (.write 0x24 4 v) = .next s) ∧
  (∀ s : State, s.warmReset.regs.result = 0 ∧ s.powerOnReset.regs.result = 0)

/-- A command word that is no assigned one completes with UnimplementedOperation and changes nothing else, whatever
its row; and the three UNIMPLEMENTED rows do so for every content of their fields (45_system.md R202). -/
def Obligations.UnassignedWordsReportUnimplemented : Prop :=
  (∀ (w : Word) (s : State),
    (w.extractLsb' 8 24 ≠ 0 ∨ (w.extractLsb' 0 8).toNat ∉
      [0x00, 0x01, 0x02, 0x03, 0x10, 0x11, 0x12, 0x13, 0x20, 0x21, 0x22, 0x23, 0x24, 0x25, 0x30, 0x31, 0x40, 0x41, 0x42]) →
    exec (decode w) s = .next (failed s 4)) ∧
  (∀ (k : BitVec 3) (s : State), exec (.unimplHash2 k) s = .next (failed s 4)) ∧
  (∀ (k : BitVec 4) (s : State), exec (.unimplRsa k) s = .next (failed s 4)) ∧
  (∀ (w : Word) (s : State), exec (.unimplOther w) s = .next (failed s 4))

/-! ## Commands -/

/-- NOP completes and does nothing else; CC_DESTROY, SHA1_DESTROY and BC_CLEAR zero their unit, in any state, and
change nothing else but the completion fields (45_system.md R200, 41_chacha20.md R124, 42_sha1.md R147,
40_block_modes.md R102). -/
def Obligations.NopAndDestroyCommandsDoOnlyTheirEffect : Prop :=
  ∀ s : State,
    exec .nop s = .next (completed s) ∧
    (∃ u : CcUnit, exec .ccDestroy s = .next (completed { s with cc := u }) ∧ (∀ i : Fin 16, u.s[i] = 0) ∧
      (∀ i : Fin 64, u.ks[i] = 0) ∧ u.cur = 0 ∧ u.keyed = false) ∧
    (∃ u : ShaUnit, exec .sha1Destroy s = .next (completed { s with sha := u }) ∧ (∀ i : Fin 5, u.h[i] = 0) ∧
      (∀ i : Fin 64, u.buf[i] = 0) ∧ u.curlen = 0 ∧ u.bitlen = 0 ∧ u.st = .idle) ∧
    (∃ u : BcUnit, exec .bcClear s = .next (completed { s with bc := u }) ∧ (∀ i : Fin 32, u.key[i] = 0) ∧
      u.keyLen = 0 ∧ u.keyed = false ∧ u.prev = s.bc.prev)

/-- SHA1_CREATE loads a fresh ACTIVE engine, in any state, and changes nothing else but the completion fields
(42_sha1.md section 2). The five initial words are those of section 1, which the spec marks as general knowledge and
not its source's (log 12). -/
def Obligations.Sha1CreateLoadsAFreshEngine : Prop :=
  ∀ s : State, ∃ u : ShaUnit, exec .sha1Create s = .next (completed { s with sha := u }) ∧
    u.h[0] = 0x67452301 ∧ u.h[1] = 0xEFCDAB89 ∧ u.h[2] = 0x98BADCFE ∧ u.h[3] = 0x10325476 ∧ u.h[4] = 0xC3D2E1F0 ∧
    (∀ i : Fin 64, u.buf[i] = 0) ∧ u.curlen = 0 ∧ u.bitlen = 0 ∧ u.st = .active

/-- CC_INIT: the two errors; else a keyed engine with the constants, the key words, the counter 1, the nonce words,
the cursor 0 and the block of counter 0, and nothing else changed (41_chacha20.md sections 1 and 2; the spec marks the
four constant words and the counter's end value as derived). -/
def Obligations.CcInitBuildsAKeyedEngine : Prop :=
  ∀ s : State,
    (s.argAuxlen ≠ 32 ∨ s.argLen ≠ 8 → exec .ccInit s = .next (failed s 1)) ∧
    (s.argAuxlen = 32 → s.argLen = 8 → ¬ s.InRange s.argAux 32 ∨ ¬ s.InRange s.argSrc 8 →
      exec .ccInit s = .next (failed s 5)) ∧
    (s.argAuxlen = 32 → s.argLen = 8 → s.InRange s.argAux 32 → s.InRange s.argSrc 8 →
      ∃ u : CcUnit, exec .ccInit s = .next (completed { s with cc := u }) ∧ u.keyed = true ∧ u.cur = 0 ∧
        u.s[0] = 0x61707865 ∧ u.s[1] = 0x3320646e ∧ u.s[2] = 0x79622d32 ∧ u.s[3] = 0x6b206574 ∧
        (∀ i : Fin 8, u.s.toList.getD (4 + i.val) 0 =
          le32 (s.dbuf.read (s.argAux + 4 * i.val)) (s.dbuf.read (s.argAux + 4 * i.val + 1))
            (s.dbuf.read (s.argAux + 4 * i.val + 2)) (s.dbuf.read (s.argAux + 4 * i.val + 3))) ∧
        u.s[12] = 1 ∧ u.s[13] = 0 ∧
        u.s[14] = le32 (s.dbuf.read s.argSrc) (s.dbuf.read (s.argSrc + 1)) (s.dbuf.read (s.argSrc + 2))
          (s.dbuf.read (s.argSrc + 3)) ∧
        u.s[15] = le32 (s.dbuf.read (s.argSrc + 4)) (s.dbuf.read (s.argSrc + 5)) (s.dbuf.read (s.argSrc + 6))
          (s.dbuf.read (s.argSrc + 7)) ∧
        u.ks = keystreamBlock (withCounter u.s 0))

/-- CC_COMBINE: the two errors; else every output byte is the input byte, as it stands when the loop reaches it, XORed
with the next keystream byte; the unit moves on by the bytes consumed, with a new block whenever the cursor reaches
64; every byte outside the output range and everything else is unchanged (41_chacha20.md R123). -/
def Obligations.CcCombineXorsTheKeystream : Prop :=
  ∀ s : State,
    (s.cc.keyed = false → exec .ccCombine s = .next (failed s 3)) ∧
    (s.cc.keyed = true → ¬ s.InRange s.argSrc s.argLen ∨ ¬ s.InRange s.argDst s.argLen →
      exec .ccCombine s = .next (failed s 5)) ∧
    (s.cc.keyed = true → s.InRange s.argSrc s.argLen → s.InRange s.argDst s.argLen →
      ∃ (u : CcUnit) (m : Memory), exec .ccCombine s = .next (completed { s with cc := u, dbuf := m }) ∧
        (∀ i < s.argLen, m.read (s.argDst + i) =
          (if s.argSrc < s.argDst ∧ s.argDst ≤ s.argSrc + i then m.read (s.argSrc + i)
            else s.dbuf.read (s.argSrc + i)) ^^^ streamByte s.cc i) ∧
        (∀ a, a < s.argDst ∨ s.argDst + s.argLen ≤ a → m.read a = s.dbuf.read a) ∧
        u.keyed = true ∧ u.cur.toNat = (s.cc.cur.toNat + s.argLen) % 64 ∧
        u.s = withCounter s.cc.s (counterOf s.cc.s + BitVec.ofNat 64 ((s.cc.cur.toNat + s.argLen) / 64)) ∧
        u.ks = if s.cc.cur.toNat + s.argLen < 64 then s.cc.ks else keystreamBlock (withCounter u.s (counterOf u.s - 1)))

/-- The chunking law: byte `m` consumed since a CC_INIT is XORed with `KS(m)`, however the input is split into
commands (41_chacha20.md section 3; the spec marks the law as derived from its rules, R126). The input is where an
earlier output byte of the same command does not fall. -/
def Obligations.KeystreamIgnoresChunking : Prop :=
  ∀ (k n : List Byte) (N : Nat) (s : State), Consumed k n N s.cc →
    s.InRange s.argSrc s.argLen → s.InRange s.argDst s.argLen →
    s.argDst ≤ s.argSrc ∨ s.argSrc + s.argLen ≤ s.argDst →
    ∃ t, exec .ccCombine s = .next t ∧ t.status.err = false ∧
      ∀ i < s.argLen, t.dbuf.read (s.argDst + i) = s.dbuf.read (s.argSrc + i) ^^^ keyStream k n (N + i)

/-- Advance: 10 double-rounds on a copy of the state, the state added back word by word, the 16 words serialized
little-endian; the cursor is 0; the 64-bit counter goes up by 1 modulo `2^64`, after the block was made with the old
one; no other word changes (41_chacha20.md sections 1 and 3, from R121 and R125; that no other word changes the spec
marks as derived). -/
def Obligations.AdvanceMakesTheBlockAndCounts : Prop :=
  ∀ u : CcUnit,
    (∀ i < 16, ∀ j < 4, u.advance.ks.toList.getD (4 * i + j) 0 =
      (rounds 10 (fun n => u.s.toList.getD n 0) i + u.s.toList.getD i 0).extractLsb' (8 * j) 8) ∧
    u.advance.cur = 0 ∧ u.advance.keyed = u.keyed ∧ counterOf u.advance.s = counterOf u.s + 1 ∧
    ∀ i : Fin 16, i.val ≠ 12 → i.val ≠ 13 → u.advance.s[i] = u.s[i]

/-- Compression of a 64-byte block: the message schedule, the 80 steps with their functions and constants, and the
final additions (42_sha1.md R141). -/
def Obligations.CompressionRunsEightySteps : Prop :=
  ∀ (h : Vector Word 5) (blk : List Byte), blk.length = 64 →
    ∃ (W : Nat → Word) (V : Nat → Word × Word × Word × Word × Word),
      (∀ t < 16, W t = be32 (blk.getD (4 * t) 0) (blk.getD (4 * t + 1) 0) (blk.getD (4 * t + 2) 0)
        (blk.getD (4 * t + 3) 0)) ∧
      (∀ t, 16 ≤ t → t < 80 → W t = rotl32 (W (t - 3) ^^^ W (t - 8) ^^^ W (t - 14) ^^^ W (t - 16)) 1) ∧
      V 0 = (h[0], h[1], h[2], h[3], h[4]) ∧
      (∀ t < 80, ∀ a b c d e, V t = (a, b, c, d, e) →
        V (t + 1) = (rotl32 a 5 + (sha1Round (t / 20)).1 b c d + e + W t + (sha1Round (t / 20)).2,
          a, rotl32 b 30, c, d)) ∧
      compress h blk = #v[h[0] + (V 80).1, h[1] + (V 80).2.1, h[2] + (V 80).2.2.1, h[3] + (V 80).2.2.2.1,
        h[4] + (V 80).2.2.2.2]

/-- SHA1_UPDATE: the two errors; else the bytes of the operand are absorbed after the buffered ones: every whole block
of 64 bytes is compressed in order, the rest is buffered, the bit length goes up by 8 for each byte modulo `2^64`, and
nothing else changes; a length of 0 changes nothing (42_sha1.md R145). -/
def Obligations.Sha1UpdateAbsorbsItsOperand : Prop :=
  ∀ s : State,
    let p : List Byte := buffered s.sha ++ s.dbuf.readBytes s.argSrc s.argLen
    (s.sha.st ≠ .active → exec .sha1Update s = .next (failed s 3)) ∧
    (s.sha.st = .active → ¬ s.InRange s.argSrc s.argLen → exec .sha1Update s = .next (failed s 5)) ∧
    (s.sha.st = .active → s.InRange s.argSrc s.argLen →
      ∃ u : ShaUnit, exec .sha1Update s = .next (completed { s with sha := u }) ∧ u.st = .active ∧
        u.h = hashBlocks (p.length / 64) s.sha.h p ∧ buffered u = p.drop (64 * (p.length / 64)) ∧
        u.bitlen = s.sha.bitlen + BitVec.ofNat 64 (8 * s.argLen) ∧ (s.argLen = 0 → u = s.sha))

/-- SHA1_DIGEST: the two errors; else the buffered bytes with their padding are compressed, the five words are written
big-endian at DST, the unit is zeroed and FINALIZED, and nothing else changes (42_sha1.md R146). -/
def Obligations.Sha1DigestWritesTwentyBytesAndFinalizes : Prop :=
  ∀ s : State,
    let p : List Byte := pad (buffered s.sha) s.sha.bitlen
    (s.sha.st ≠ .active → exec .sha1Digest s = .next (failed s 3)) ∧
    (s.sha.st = .active → ¬ s.InRange s.argDst 20 → exec .sha1Digest s = .next (failed s 5)) ∧
    (s.sha.st = .active → s.InRange s.argDst 20 →
      ∃ (u : ShaUnit) (m : Memory), exec .sha1Digest s = .next (completed { s with sha := u, dbuf := m }) ∧
        m.readBytes s.argDst 20 = (hashBlocks (p.length / 64) s.sha.h p).toList.flatMap be32bytes ∧
        (∀ a, a < s.argDst ∨ s.argDst + 20 ≤ a → m.read a = s.dbuf.read a) ∧
        (∀ i : Fin 5, u.h[i] = 0) ∧ (∀ i : Fin 64, u.buf[i] = 0) ∧ u.curlen = 0 ∧ u.bitlen = 0 ∧ u.st = .finalized)

/-- The digest of a message absorbed in any pieces is SHA-1 of the whole message: the padded message cut into 64-byte
blocks and compressed in order (42_sha1.md sections 1 and 3; the spec marks the chunking law R148 as derived, and the
initial words as general knowledge, log 12). -/
def Obligations.DigestIsSha1OfTheWholeMessage : Prop :=
  ∀ (m : List Byte) (s : State), Absorbed m s.sha → s.InRange s.argDst 20 →
    ∃ t, exec .sha1Digest s = .next t ∧ t.status.err = false ∧ t.dbuf.readBytes s.argDst 20 = sha1Of m

/-- BC_SETKEY: the two errors; else the key bytes are loaded and the rest of BC_KEY zeroed, and nothing else changes
(40_block_modes.md R101). -/
def Obligations.SetKeyLoadsTheKey : Prop :=
  ∀ s : State,
    let ok : Prop := (s.argAuxlen = 16 ∧ s.params.key16 = true) ∨ (s.argAuxlen = 24 ∧ s.params.key24 = true) ∨
      (s.argAuxlen = 32 ∧ s.params.key32 = true)
    (¬ ok → exec .bcSetKey s = .next (failed s 1)) ∧
    (ok → ¬ s.InRange s.argAux s.argAuxlen → exec .bcSetKey s = .next (failed s 5)) ∧
    (ok → s.InRange s.argAux s.argAuxlen →
      ∃ u : BcUnit, exec .bcSetKey s = .next (completed { s with bc := u }) ∧ u.keyed = true ∧
        u.keyLen = s.argAuxlen ∧ u.prev = s.bc.prev ∧
        ∀ i : Fin 32, u.key[i] = if i.val < s.argAuxlen then s.dbuf.read (s.argAux + i.val) else 0)

/-- ECB_ENC and ECB_DEC: the three errors in their order; else every block is read, transformed by the cipher under
the loaded key and written, block by block in increasing address, which also fixes every overlap; every byte outside
the output range and everything else is unchanged (40_block_modes.md R104, R105). -/
def Obligations.EcbTransformsBlocksInOrder : Prop :=
  ∀ s : State, ∀ x ∈ [(Instr.ecbEnc, portEnc Config.cipher), (Instr.ecbDec, portDec Config.cipher)],
    (s.bc.keyed = false → exec x.1 s = .next (failed s 3)) ∧
    (s.bc.keyed = true → s.argLen % s.params.blockSize ≠ 0 → exec x.1 s = .next (failed s 1)) ∧
    (s.bc.keyed = true → s.argLen % s.params.blockSize = 0 →
      ¬ s.InRange s.argSrc s.argLen ∨ ¬ s.InRange s.argDst s.argLen → exec x.1 s = .next (failed s 5)) ∧
    (s.bc.keyed = true → s.argLen % s.params.blockSize = 0 → s.InRange s.argSrc s.argLen →
      s.InRange s.argDst s.argLen →
      ∃ M : Nat → Memory, exec x.1 s = .next (completed { s with dbuf := M (s.argLen / s.params.blockSize) }) ∧
        M 0 = s.dbuf ∧
        BlockRun s.params.blockSize s.argSrc s.argDst (s.argLen / s.params.blockSize)
          (fun _ => x.2 s.params.blockSize (s.bc.key.toList.take s.bc.keyLen)) M ∧
        ∀ a, a < s.argDst ∨ s.argDst + s.argLen ≤ a → (M (s.argLen / s.params.blockSize)).read a = s.dbuf.read a)

/-- CBC_ENC: the four errors in their order; else block `j` is XORed with the block before it in the output (the IV
for `j = 0`) and encrypted, block by block in increasing address; BC_PREV ends zero; every byte outside the output
range and everything else is unchanged (40_block_modes.md R106). -/
def Obligations.CbcEncChainsOnTheCiphertext : Prop :=
  ∀ s : State,
    (s.bc.keyed = false → exec .cbcEnc s = .next (failed s 3)) ∧
    (s.bc.keyed = true → s.argAuxlen ≠ s.params.blockSize → exec .cbcEnc s = .next (failed s 2)) ∧
    (s.bc.keyed = true → s.argAuxlen = s.params.blockSize → s.argLen % s.params.blockSize ≠ 0 →
      exec .cbcEnc s = .next (failed s 1)) ∧
    (s.bc.keyed = true → s.argAuxlen = s.params.blockSize → s.argLen % s.params.blockSize = 0 →
      ¬ s.InRange s.argAux s.params.blockSize ∨ ¬ s.InRange s.argSrc s.argLen ∨ ¬ s.InRange s.argDst s.argLen →
      exec .cbcEnc s = .next (failed s 5)) ∧
    (s.bc.keyed = true → s.argAuxlen = s.params.blockSize → s.argLen % s.params.blockSize = 0 →
      s.InRange s.argAux s.params.blockSize → s.InRange s.argSrc s.argLen → s.InRange s.argDst s.argLen →
      ∃ (M : Nat → Memory) (P : Nat → List Byte),
        exec .cbcEnc s = .next (completed { s with
          dbuf := M (s.argLen / s.params.blockSize),
          bc := { s.bc with prev := List.replicate s.params.blockSize 0 } }) ∧
        M 0 = s.dbuf ∧ P 0 = s.dbuf.readBytes s.argAux s.params.blockSize ∧
        (∀ j < s.argLen / s.params.blockSize, P (j + 1) =
          portEnc Config.cipher s.params.blockSize (s.bc.key.toList.take s.bc.keyLen)
            (xorBytes ((M j).readBytes (s.argSrc + j * s.params.blockSize) s.params.blockSize) (P j))) ∧
        BlockRun s.params.blockSize s.argSrc s.argDst (s.argLen / s.params.blockSize) (fun j _ => P (j + 1)) M ∧
        ∀ a, a < s.argDst ∨ s.argDst + s.argLen ≤ a → (M (s.argLen / s.params.blockSize)).read a = s.dbuf.read a)

/-- CBC_DEC: the four errors in their order; else block `j` is decrypted and XORed with the ciphertext block read
before it (the IV for `j = 0`), block by block in increasing address; BC_PREV ends zero; every byte outside the output
range and everything else is unchanged (40_block_modes.md R107). -/
def Obligations.CbcDecChainsOnTheCiphertextRead : Prop :=
  ∀ s : State,
    (s.bc.keyed = false → exec .cbcDec s = .next (failed s 3)) ∧
    (s.bc.keyed = true → s.argAuxlen ≠ s.params.blockSize → exec .cbcDec s = .next (failed s 2)) ∧
    (s.bc.keyed = true → s.argAuxlen = s.params.blockSize → s.argLen % s.params.blockSize ≠ 0 →
      exec .cbcDec s = .next (failed s 1)) ∧
    (s.bc.keyed = true → s.argAuxlen = s.params.blockSize → s.argLen % s.params.blockSize = 0 →
      ¬ s.InRange s.argAux s.params.blockSize ∨ ¬ s.InRange s.argSrc s.argLen ∨ ¬ s.InRange s.argDst s.argLen →
      exec .cbcDec s = .next (failed s 5)) ∧
    (s.bc.keyed = true → s.argAuxlen = s.params.blockSize → s.argLen % s.params.blockSize = 0 →
      s.InRange s.argAux s.params.blockSize → s.InRange s.argSrc s.argLen → s.InRange s.argDst s.argLen →
      ∃ (M : Nat → Memory) (P : Nat → List Byte),
        exec .cbcDec s = .next (completed { s with
          dbuf := M (s.argLen / s.params.blockSize),
          bc := { s.bc with prev := List.replicate s.params.blockSize 0 } }) ∧
        M 0 = s.dbuf ∧ P 0 = s.dbuf.readBytes s.argAux s.params.blockSize ∧
        (∀ j < s.argLen / s.params.blockSize, P (j + 1) =
          (M j).readBytes (s.argSrc + j * s.params.blockSize) s.params.blockSize) ∧
        BlockRun s.params.blockSize s.argSrc s.argDst (s.argLen / s.params.blockSize)
          (fun j c => xorBytes
            (portDec Config.cipher s.params.blockSize (s.bc.key.toList.take s.bc.keyLen) c) (P j)) M ∧
        ∀ a, a < s.argDst ∨ s.argDst + s.argLen ≤ a → (M (s.argLen / s.params.blockSize)).read a = s.dbuf.read a)

/-- The round-trip law, for any cipher port whose decryption undoes its encryption on blocks: decrypting the output of
an encryption, with the same key and IV and without overlap, gives the plaintext, for CBC and for ECB
(40_block_modes.md section 4; the spec marks the law R108 as derived from its rules). -/
def Obligations.DecryptionUndoesEncryption : Prop :=
  ∀ (port : CipherPort) (s t s' : State),
    (∀ x : List Byte, x.length = s.params.blockSize →
      portDec port s.params.blockSize s.bc.loadedKey (portEnc port s.params.blockSize s.bc.loadedKey x) = x) →
    Disjoint s.argSrc s.argDst s.argLen → s'.params = s.params → s'.bc.keyed = s.bc.keyed →
    s'.bc.loadedKey = s.bc.loadedKey → s'.argLen = s.argLen →
    s'.dbuf.readBytes s'.argSrc s.argLen = t.dbuf.readBytes s.argDst s.argLen →
    Disjoint s'.argSrc s'.argDst s.argLen →
    s'.InRange s'.argSrc s.argLen → s'.InRange s'.argDst s.argLen →
    (cbcEncOver port s = .next t → t.status.err = false → s'.argAuxlen = s.argAuxlen →
      s'.InRange s'.argAux s.params.blockSize →
      s'.dbuf.readBytes s'.argAux s.params.blockSize = s.dbuf.readBytes s.argAux s.params.blockSize →
      ∃ t', cbcDecOver port s' = .next t' ∧ t'.status.err = false ∧
        t'.dbuf.readBytes s'.argDst s.argLen = s.dbuf.readBytes s.argSrc s.argLen) ∧
    (ecbEncOver port s = .next t → t.status.err = false →
      ∃ t', ecbDecOver port s' = .next t' ∧ t'.status.err = false ∧
        t'.dbuf.readBytes s'.argDst s.argLen = s.dbuf.readBytes s.argSrc s.argLen)

/-- The fold of the byte comparison is equality of the two bytes (43_ct_equality.md section 1; the spec marks it as
derived). -/
def Obligations.ByteFoldIsEquality : Prop :=
  ∀ x y : Byte, ctEqByte x y = if x = y then 1 else 0

/-- CT_EQ: the range error; else RESULT is 1 just when the lengths are equal and every byte matches, and nothing else
changes (43_ct_equality.md section 2, from R171 and R174, which the spec marks as derived). The pass over equally long
sequences reads every byte of both, in an order that no byte's value changes (from R172; log 18: the list of addresses
is the model's form of the reads). -/
def Obligations.CtEqComparesWholeSequences : Prop :=
  ∀ s : State,
    (¬ s.InRange s.argSrc s.argLen ∨ ¬ s.InRange s.argAux s.argAuxlen → exec .ctEq s = .next (failed s 5)) ∧
    (s.InRange s.argSrc s.argLen → s.InRange s.argAux s.argAuxlen →
      ∃ r : Word, exec .ctEq s = .next (completed { s with regs := { s.regs with result := r } }) ∧
        (r = 0 ∨ r = 1) ∧
        (r = 1 ↔ s.argLen = s.argAuxlen ∧
          ∀ i < s.argLen, s.dbuf.read (s.argSrc + i) = s.dbuf.read (s.argAux + i))) ∧
    s.eqPass.2 = (List.range s.argLen).flatMap fun i => [s.argSrc + i, s.argAux + i]

/-- CT_EQB: the range error; else RESULT is 1 when the two bytes are equal and 0 when not, and nothing else changes
(43_ct_equality.md section 2, from R173; its clause on time is out of the model's scope). -/
def Obligations.CtEqbComparesTwoBytes : Prop :=
  ∀ s : State,
    (s.params.dbufSize ≤ s.argSrc ∨ s.params.dbufSize ≤ s.argAux → exec .ctEqb s = .next (failed s 5)) ∧
    (s.argSrc < s.params.dbufSize → s.argAux < s.params.dbufSize →
      exec .ctEqb s = .next (completed { s with
        regs := { s.regs with result := if s.dbuf.read s.argSrc = s.dbuf.read s.argAux then 1 else 0 } }))

/-- CELL_OPEN, on a machine with NCELLS cells: the three errors in their order; else the lowest closed cell is opened
on the region and its index is the RESULT; no data-buffer byte and nothing else changes (44_secure_memory.md R181). -/
def Obligations.CellOpenTakesTheLowestClosedCell : Prop :=
  ∀ s : State, s.params.Legal → s.cells.length = s.params.nCells →
    (s.argAuxlen = 0 → exec .cellOpen s = .next (failed s 1)) ∧
    (s.argAuxlen ≠ 0 → ¬ s.InRange s.argAux s.argAuxlen → exec .cellOpen s = .next (failed s 5)) ∧
    (s.argAuxlen ≠ 0 → s.InRange s.argAux s.argAuxlen → (∀ c ∈ s.cells, c.isOpen = true) →
      exec .cellOpen s = .next (failed s 6)) ∧
    (s.argAuxlen ≠ 0 → s.InRange s.argAux s.argAuxlen → ∀ i : Nat, cellIsOpen s i = false → i < s.params.nCells →
      (∀ j < i, cellIsOpen s j = true) →
      ∃ cs : List SecCell,
        exec .cellOpen s = .next (completed { s with
          cells := cs, regs := { s.regs with result := BitVec.ofNat 32 i } }) ∧
        cs.length = s.cells.length ∧
        (∀ j, j ≠ i → cs[j]? = s.cells[j]?) ∧
        cs[i]? = some { isOpen := true, base := s.latch.aux, len := s.latch.auxlen } ∧
        (completed { s with cells := cs }).statusWord.getLsbD (16 + i) = true)

/-- CELL_CLOSE: a bad or closed index is MisusedEngine; else the region of the cell reads zero, every other byte is
unchanged, the cell is closed and zeroed, its CELLS_OPEN bit is 0, and nothing else changes (44_secure_memory.md
R182). -/
def Obligations.CellCloseZeroesAndFreesTheCell : Prop :=
  ∀ s : State,
    (cellIsOpen s s.argSrc = false → exec .cellClose s = .next (failed s 3)) ∧
    (∀ c : SecCell, s.argSrc < s.params.nCells → s.cells[s.argSrc]? = some c → c.isOpen = true →
      ∃ (m : Memory) (cs : List SecCell), exec .cellClose s = .next (completed { s with dbuf := m, cells := cs }) ∧
        (∀ a, c.base.toNat ≤ a → a < c.base.toNat + c.len.toNat → m.read a = 0) ∧
        (∀ a, a < c.base.toNat ∨ c.base.toNat + c.len.toNat ≤ a → m.read a = s.dbuf.read a) ∧
        cs[s.argSrc]? = some { isOpen := false, base := 0, len := 0 } ∧ cs.length = s.cells.length ∧
        (∀ j, j ≠ s.argSrc → cs[j]? = s.cells[j]?) ∧
        (completed { s with cells := cs }).statusWord.getLsbD (16 + s.argSrc) = false)

/-- ZEROIZE: the range error; else the region reads zero, every other byte is unchanged, and nothing else changes, the
cells among it (44_secure_memory.md R183). -/
def Obligations.ZeroizeZeroesItsRegion : Prop :=
  ∀ s : State,
    (¬ s.InRange s.argDst s.argLen → exec .zeroize s = .next (failed s 5)) ∧
    (s.InRange s.argDst s.argLen →
      ∃ m : Memory, exec .zeroize s = .next (completed { s with dbuf := m }) ∧
        (∀ a, s.argDst ≤ a → a < s.argDst + s.argLen → m.read a = 0) ∧
        (∀ a, a < s.argDst ∨ s.argDst + s.argLen ≤ a → m.read a = s.dbuf.read a))

/-! ## Secrets -/

/-- Every exit path zeroes: the region of an open cell reads zero after its CELL_CLOSE, after a warm reset and after a
soft reset; a command that fails neither closes a cell nor changes its bytes, and no command but its own CELL_CLOSE
closes it; and after a power-on every byte is the free value of that power-on (44_secure_memory.md, from R184; log 2:
the form of the draw). -/
def Obligations.EveryExitPathZeroesTheCell : Prop :=
  (∀ (s : State) (i : Nat) (c : SecCell) (a : Nat), i < s.params.nCells → s.cells[i]? = some c → c.isOpen = true →
    c.base.toNat ≤ a → a < c.base.toNat + c.len.toNat →
    (s.argSrc = i → ∃ t, exec .cellClose s = .next t ∧ t.dbuf.read a = 0) ∧
    s.warmReset.dbuf.read a = 0 ∧
    (∀ v : Word, v.getLsbD 1 = true → ∃ t, s.hostAccess (.write 0x04 4 v) = .next t ∧ t.dbuf.read a = 0) ∧
    (∀ (k : Instr) (t : State), exec k s = .next t → t.status.err = true →
      t.cells[i]? = some c ∧ t.dbuf.read a = s.dbuf.read a) ∧
    (∀ (k : Instr) (t : State), exec k s = .next t → k ≠ .cellClose ∨ s.argSrc ≠ i → t.cells[i]? = some c)) ∧
  (∀ (s : State) (a : Nat), s.powerOnReset.dbuf.read a = Config.powerOnByte (s.dbuf.epoch + 1) a)

/-- No key survives a reset: two machines that differ only in their CC, SHA and BC units are the same machine outside
the data buffer after a warm reset and after a power-on, and with no command running the warm reset leaves them the same
buffer as well; CC_DESTROY and SHA1_DESTROY leave them the same unit, and so does a SHA1_DIGEST that succeeds on both;
BC_CLEAR leaves them the same BC_KEY and the same loaded key (44_secure_memory.md, from R185). What an aborted command and
a power-on leave in the data buffer is not compared: the spec leaves it open. -/
def Obligations.NoUnitSecretSurvivesReset : Prop :=
  ∀ s u : State, u = { s with cc := u.cc, sha := u.sha, bc := u.bc } →
    (∀ m, s.warmReset.setDbuf m = u.warmReset.setDbuf m) ∧
    (s.status.busy = false → s.warmReset.dbuf = u.warmReset.dbuf) ∧
    (∀ m, s.powerOnReset.setDbuf m = u.powerOnReset.setDbuf m) ∧
    (∀ a b, exec .ccDestroy s = .next a → exec .ccDestroy u = .next b → a.cc = b.cc) ∧
    (∀ a b, exec .sha1Destroy s = .next a → exec .sha1Destroy u = .next b → a.sha = b.sha) ∧
    (∀ a b, exec .sha1Digest s = .next a → exec .sha1Digest u = .next b → a.status.err = false →
      b.status.err = false → a.sha = b.sha) ∧
    (∀ a b, exec .bcClear s = .next a → exec .bcClear u = .next b → a.bc.loadedKey = b.bc.loadedKey ∧
      a.bc.key = b.bc.key)

/-- The host cannot read hidden state: machines that look alike answer every read alike (10_state.md section 3, from
R50). -/
def Obligations.HiddenStateIsUnreadable : Prop :=
  ∀ (s u : State) (off : BitVec 17) (n : Nat), LookAlike s u →
    answer (s.hostAccess (.read off n)) = answer (u.hostAccess (.read off n))

/-! ## Resets -/

/-- Every reset puts the registers, STATUS, the latch and every unit at their reset values, closes every cell and
leaves ID as it is; BUSY, DONE and ERR are 0, so a running command is gone and reports nothing. A warm reset leaves
every byte of an open cell zero, and with no command running keeps every other byte; a soft reset is the same reset
(70_reset_and_hazards.md section 1, from R241; log 1, log 6 and log 15: that a reset keeps the parameters, the turns to
come and the last read value is the model's form). -/
def Obligations.ResetClearsAllButTheBuffer : Prop :=
  ∀ s : State,
    (∀ r ∈ [s.warmReset, s.powerOnReset],
      r.regs = { ie := false, src := 0, dst := 0, len := 0, aux := 0, auxlen := 0, result := 0 } ∧
      r.status = { busy := false, done := false, err := false, ovr := false, errCode := 0 } ∧
      r.latch = { op := 0, rsv := 0, src := 0, dst := 0, len := 0, aux := 0, auxlen := 0 } ∧
      r.cc = { s := Vector.replicate 16 0, ks := Vector.replicate 64 0, cur := 0, keyed := false } ∧
      r.sha = { h := Vector.replicate 5 0, buf := Vector.replicate 64 0, curlen := 0, bitlen := 0, st := .idle } ∧
      r.bc = { key := Vector.replicate 32 0, keyLen := 0, keyed := false,
               prev := List.replicate s.params.blockSize 0 } ∧
      r.cells = List.replicate s.params.nCells { isOpen := false, base := 0, len := 0 } ∧
      answer (r.hostAccess (.read 0x00 4)) = some 0x43434501 ∧
      r.params = s.params ∧ r.schedule = s.schedule ∧ r.lastRead = s.lastRead) ∧
    (∀ a, inOpenCell s a → s.warmReset.dbuf.read a = 0) ∧
    (s.status.busy = false → ∀ a, ¬ inOpenCell s a → s.warmReset.dbuf.read a = s.dbuf.read a) ∧
    ∀ v : Word, v.getLsbD 1 = true → s.hostAccess (.write 0x04 4 v) = .next s.warmReset

/-- A reset while BUSY aborts the command: DONE and ERR stay 0 and no code is reported, and of the data buffer only
the bytes of the command's DST range and of open cells can change, the latter to zero (70_reset_and_hazards.md section
1, from R243; log 8: for a command whose checks would have failed the model leaves the DST range open as well). -/
def Obligations.AbortedCommandLeavesOnlyItsRangeOpen : Prop :=
  ∀ s : State, s.status.busy = true →
    s.warmReset.status.done = false ∧ s.warmReset.status.err = false ∧ s.warmReset.status.errCode = 0 ∧
    (∀ a, inOpenCell s a → s.warmReset.dbuf.read a = 0) ∧
    (∀ a, ¬ inOpenCell s a →
      (decode (s.latch.rsv ++ s.latch.op) ∈ [Instr.ccCombine, .ecbEnc, .ecbDec, .cbcEnc, .cbcDec, .zeroize] →
        a < s.argDst ∨ s.argDst + s.argLen ≤ a → s.warmReset.dbuf.read a = s.dbuf.read a) ∧
      (decode (s.latch.rsv ++ s.latch.op) = .sha1Digest → a < s.argDst ∨ s.argDst + 20 ≤ a →
        s.warmReset.dbuf.read a = s.dbuf.read a) ∧
      (decode (s.latch.rsv ++ s.latch.op) ∉
          [Instr.ccCombine, .ecbEnc, .ecbDec, .cbcEnc, .cbcDec, .zeroize, .sha1Digest] →
        s.warmReset.dbuf.read a = s.dbuf.read a))

/-- After a power-on every data-buffer byte is the free value of that power-on, nothing is written in the buffer, and
all other state of the CCE is as a reset leaves it (70_reset_and_hazards.md section 1, from R242; log 2: the form of
the draw and its counter; log 1, log 6, log 8 and log 15: that a power-on keeps the parameters, the last read value, the
count of aborts and the turns to come is the model's form). -/
def Obligations.PowerOnDrawsEveryByte : Prop :=
  ∀ s : State,
    (∀ a, s.powerOnReset.dbuf.read a = Config.powerOnByte (s.dbuf.epoch + 1) a) ∧
    s.powerOnReset = { State.resetWith s.params with
      dbuf := { cells := [], epoch := s.dbuf.epoch + 1 }, aborts := s.aborts, schedule := s.schedule,
      lastRead := s.lastRead }

/-! ## The host's accesses -/

/-- An accepted CMD write latches the word and the arguments, clears DONE, ERR and ERRCODE and sets BUSY, and nothing
else; the engine then runs the command decoded from the latch (30_encoding.md R84). -/
def Obligations.AcceptedCmdWriteLatchesAndRuns : Prop :=
  ∀ (s : State) (w : Word), s.status.busy = false →
    ∃ t, s.hostAccess (.write 0x0C 4 w) = .next t ∧
      t = { s with
        latch := { op := w.extractLsb' 0 8, rsv := w.extractLsb' 8 24, src := s.regs.src, dst := s.regs.dst,
                   len := s.regs.len, aux := s.regs.aux, auxlen := s.regs.auxlen }
        status := { busy := true, done := false, err := false, ovr := s.status.ovr, errCode := 0 } } ∧
      t.engineTurn = exec (decode w) t

/-- A CMD write while BUSY is dropped: OVR is set and nothing else changes (30_encoding.md R85). -/
def Obligations.CmdWriteWhileBusyOnlySetsOverrun : Prop :=
  ∀ (s : State) (w : Word), s.status.busy = true →
    s.hostAccess (.write 0x0C 4 w) = .next { s with status := { s.status with ovr := true } }

/-- A CTRL write: with SRST the whole write is the soft reset; else IE is stored and OVR_CLR and DONE_CLR clear their
bits, whatever BUSY is; a read returns IE (10_state.md R24). -/
def Obligations.CtrlWriteStoresEnableAndActs : Prop :=
  ∀ (s : State) (v : Word),
    (v.getLsbD 1 = true → s.hostAccess (.write 0x04 4 v) = .next s.warmReset ∧ s.warmReset.regs.ie = false) ∧
    (v.getLsbD 1 = false → ∃ t, s.hostAccess (.write 0x04 4 v) = .next t ∧
      t = { s with regs := t.regs, status := t.status } ∧ t.regs = { s.regs with ie := v.getLsbD 0 } ∧
      t.status.busy = s.status.busy ∧ t.status.err = s.status.err ∧ t.status.errCode = s.status.errCode ∧
      t.status.ovr = (s.status.ovr && !v.getLsbD 2) ∧ t.status.done = (s.status.done && !v.getLsbD 3)) ∧
    s.hostAccess (.read 0x04 4) = .next (s.setLastRead (some (if s.regs.ie then 1 else 0))) ∧
    State.reset.regs.ie = false

/-- The five argument registers store the whole value, read it back, and do so whatever BUSY is, without touching the
latch or anything else; after a reset they read 0 (10_state.md R36 to R40). -/
def Obligations.ArgumentRegistersStoreTheWholeValue : Prop :=
  ∀ (s : State) (v : Word), ∀ off ∈ [(0x10 : BitVec 17), 0x14, 0x18, 0x1C, 0x20],
    ∃ r : Regs, s.hostAccess (.write off 4 v) = .next { s with regs := r } ∧
      r = { s.regs with
        src := if off = 0x10 then v else s.regs.src
        dst := if off = 0x14 then v else s.regs.dst
        len := if off = 0x18 then v else s.regs.len
        aux := if off = 0x1C then v else s.regs.aux
        auxlen := if off = 0x20 then v else s.regs.auxlen } ∧
      answer ({ s with regs := r }.hostAccess (.read off 4)) = some v ∧
      answer (s.warmReset.hostAccess (.read off 4)) = some 0 ∧
      answer (s.powerOnReset.hostAccess (.read off 4)) = some 0

/-- A register access of a width other than 4 bytes, narrower or wider, or at an offset that is no multiple of 4, is not
performed: a read returns 0, a write changes nothing (20_memory.md R62). -/
def Obligations.MalformedRegisterAccessDoesNothing : Prop :=
  ∀ (s : State) (off : BitVec 17) (n : Nat) (v : Word), off.toNat < 0x10000 → n ≠ 4 ∨ off.toNat % 4 ≠ 0 →
    s.hostAccess (.read off n) = .next (s.setLastRead (some 0)) ∧ s.hostAccess (.write off n v) = .next s

/-- Data-buffer accesses of 1, 2 or 4 bytes. At an aligned address below DBUF_SIZE and with no command running: byte
`i` of what a read returns is `DBUF[a+i]` and the bits above are 0; a write stores byte `i` of the value in `DBUF[a+i]`
and changes nothing else. One that is not naturally aligned is not performed, wherever it starts and ends, also where it
straddles the end of the data buffer, and also while a command runs (20_memory.md section 2, from R63; section 5; log 13:
that such an access is no race while a command runs). -/
def Obligations.BufferAccessesAreLittleEndian : Prop :=
  ∀ (s : State) (a n : Nat) (v : Word), s.params.Legal → n = 1 ∨ n = 2 ∨ n = 4 →
    (s.status.busy = false → a + n ≤ s.params.dbufSize → a % n = 0 →
      (∃ r : Word, s.hostAccess (.read (bufferOffset a) n) = .next (s.setLastRead (some r)) ∧
        (∀ i < n, r.extractLsb' (8 * i) 8 = s.dbuf.read (a + i)) ∧ r.toNat < 2 ^ (8 * n)) ∧
      ∃ m : Memory, s.hostAccess (.write (bufferOffset a) n v) = .next { s with dbuf := m } ∧
        (∀ i < n, m.read (a + i) = v.extractLsb' (8 * i) 8) ∧
        ∀ x, x < a ∨ a + n ≤ x → m.read x = s.dbuf.read x) ∧
    (a < 0x10000 → a % n ≠ 0 →
      s.hostAccess (.read (bufferOffset a) n) = .next (s.setLastRead (some 0)) ∧
      s.hostAccess (.write (bufferOffset a) n v) = .next s)

/-- Window offsets at and above the end of the data buffer read 0 and ignore writes, at every width; so do accesses to
the data buffer of a width other than 1, 2 and 4 (log 7: read from R63 and R68). No access in the window is a bus error:
every access answers a next state, or BUSY is 1 and it is the race of R71, on bytes of the data buffer (20_memory.md
section 1, from R61; section 5, from R71). Log 13 (DEDUCED from R61, R63 and R71): while BUSY is 1 an access
that is not performed, reserved, misaligned or of another width, is answered and is no race. -/
def Obligations.ReservedWindowReadsZero : Prop :=
  (∀ (s : State) (off : BitVec 17) (n : Nat) (v : Word), s.params.Legal →
    0x10000 + s.params.dbufSize ≤ off.toNat ∨ (0x10000 ≤ off.toNat ∧ n ≠ 1 ∧ n ≠ 2 ∧ n ≠ 4) →
    s.hostAccess (.read off n) = .next (s.setLastRead (some 0)) ∧ s.hostAccess (.write off n v) = .next s) ∧
  (∀ (s : State) (a : Access (BitVec 17)), (∃ t, s.hostAccess a = .next t) ∨
    (s.hostAccess a = .fault .hostRace ∧ s.status.busy = true ∧
      reachesBuffer s.params (s.params.cceBase + a.place.toNat) a.width))

/-- Reads have no side effects: a read changes only what the host was last answered, and the same read again answers
the same (20_memory.md section 4, from R68). -/
def Obligations.ReadsHaveNoSideEffects : Prop :=
  ∀ (s t : State) (off : BitVec 17) (n : Nat), s.hostAccess (.read off n) = .next t →
    t = s.setLastRead t.lastRead ∧ t.hostAccess (.read off n) = .next t

/-- The only fault is HostRace, raised just when the next turn is a host access that reaches data-buffer bytes while
BUSY = 1; nothing is ever refused (20_memory.md section 5, from R71). Log 13: an access that is not performed reaches
no byte; log 7: one that starts outside the window reaches none either. -/
def Obligations.HostRaceIsTheOnlyStop : Prop :=
  (∀ s : State, step s = .fault .hostRace ↔
    s.status.busy = true ∧ ∃ a rest, s.schedule = .host a :: rest ∧
      reachesBuffer s.params a.place a.width) ∧
  ∀ (s : State) (r : Refusal), step s ≠ .refused r

/-! ## Status, interrupt, ordering -/

/-- The STATUS word holds each field at its place, the unit mirrors and the cells' bits, and 0 in its reserved bits
(10_state.md R34; section 2). -/
def Obligations.StatusWordHoldsItsFields : Prop :=
  ∀ s : State, s.params.Legal →
    s.statusWord.getLsbD 0 = s.status.busy ∧ s.statusWord.getLsbD 1 = s.status.done ∧
    s.statusWord.getLsbD 2 = s.status.err ∧ s.statusWord.getLsbD 3 = s.status.ovr ∧
    s.statusWord.extractLsb' 4 4 = s.status.errCode ∧ s.statusWord.getLsbD 8 = s.cc.keyed ∧
    s.statusWord.extractLsb' 9 2 = (match s.sha.st with | .idle => 0 | .active => 1 | .finalized => 2) ∧
    s.statusWord.getLsbD 11 = s.bc.keyed ∧ s.statusWord.extractLsb' 12 4 = 0 ∧
    (∀ i < 8, s.statusWord.getLsbD (16 + i) = cellIsOpen s i) ∧ s.statusWord.extractLsb' 24 8 = 0 ∧
    State.reset.statusWord = 0

/-- IRQ is IE and DONE: it rises at a completion with IE = 1, it falls at DONE_CLR, at an accepted CMD write, when IE
is cleared and at a reset, and neither OVR nor an error drives it (60_exceptions.md section 3, from R220 to R222). -/
def Obligations.IrqFollowsEnableAndDone : Prop :=
  ∀ s : State, (s.irq = true ↔ s.regs.ie = true ∧ s.status.done = true) ∧
    (∀ (i : Instr) (t : State), exec i s = .next t → t.irq = s.regs.ie) ∧
    (∀ (w : Word) (t : State), s.hostAccess (.write 0x0C 4 w) = .next t →
      t.irq = (s.irq && s.status.busy)) ∧
    (∀ (v : Word) (t : State), s.hostAccess (.write 0x04 4 v) = .next t →
      t.irq = (!v.getLsbD 1 && v.getLsbD 0 && s.status.done && !v.getLsbD 3)) ∧
    s.warmReset.irq = false ∧ s.powerOnReset.irq = false ∧
    (∀ (off : BitVec 17) (n : Nat) (t : State), s.hostAccess (.read off n) = .next t → t.irq = s.irq)

/-- OVR is sticky: a step sets it just by a CMD write while BUSY, and clears it just by CTRL.OVR_CLR or a reset
(10_state.md R29). -/
def Obligations.OverrunIsSticky : Prop :=
  ∀ (s t : State) (x : Turn) (rest : List Turn), s.schedule = x :: rest → step s = .next t →
    (s.status.ovr = true → t.status.ovr = false →
      ctrlWriteWith s.params.cceBase 2 x ∨ resetTurn s.params.cceBase x) ∧
    (s.status.ovr = false → t.status.ovr = true →
      s.status.busy = true ∧ ∃ v, x = .host (.write (s.params.cceBase + 0x0C) 4 v)) ∧
    (∀ v, s.status.busy = true → x = .host (.write (s.params.cceBase + 0x0C) 4 v) → t.status.ovr = true) ∧
    (ctrlWriteWith s.params.cceBase 2 x ∨ resetTurn s.params.cceBase x → t.status.ovr = false)

/-- ERR and ERRCODE stay until the next accepted CMD write or a reset: a step that changes one of them is an accepted
CMD write, a reset, or the completion of a running command (60_exceptions.md section 2, from R216; log 7: an access that
starts outside the window changes nothing). -/
def Obligations.ErrorStaysUntilIssueOrReset : Prop :=
  ∀ (s t : State) (x : Turn) (rest : List Turn), s.schedule = x :: rest → step s = .next t →
    t.status.err ≠ s.status.err ∨ t.status.errCode ≠ s.status.errCode →
    resetTurn s.params.cceBase x ∨ (s.status.busy = true ∧ x = .engine) ∨
    (s.status.busy = false ∧ ∃ v, x = .host (.write (s.params.cceBase + 0x0C) 4 v))

/-- A CMD write that races the completion of the running command may land on either side of it: before, it is dropped
and OVR is set, and the command completes; after, it is accepted. A DONE_CLR that races it leaves DONE 1 or 0
(60_exceptions.md section 3, from R223; log 4: the order is the schedule's). -/
def Obligations.RacingWritesAdmitBothOrders : Prop :=
  ∀ (s : State) (w : Word) (rest : List Turn), s.status.busy = true → s.status.ovr = false →
    (∃ t, Sys2Proof.core.run 2 { s with
        schedule := .host (.write (s.params.cceBase + 0x0C) 4 w) :: .engine :: rest } = .next t ∧
      t.status.busy = false ∧ t.status.done = true ∧ t.status.ovr = true ∧ t.latch = s.latch ∧ t.schedule = rest) ∧
    (∃ t, Sys2Proof.core.run 2 { s with
        schedule := .engine :: .host (.write (s.params.cceBase + 0x0C) 4 w) :: rest } = .next t ∧
      t.status.busy = true ∧ t.status.done = false ∧ t.status.ovr = false ∧
      t.latch.op = w.extractLsb' 0 8 ∧ t.latch.rsv = w.extractLsb' 8 24 ∧ t.schedule = rest) ∧
    (∀ v : Word, v.getLsbD 1 = false → v.getLsbD 3 = true →
      (∃ t, Sys2Proof.core.run 2 { s with
          schedule := .host (.write (s.params.cceBase + 0x04) 4 v) :: .engine :: rest } = .next t ∧
        t.status.busy = false ∧ t.status.done = true) ∧
      (∃ t, Sys2Proof.core.run 2 { s with
          schedule := .engine :: .host (.write (s.params.cceBase + 0x04) 4 v) :: rest } = .next t ∧
        t.status.busy = false ∧ t.status.done = false))

/-- A pending command completes at the engine's next turn, whatever accesses but soft resets the host makes before it in
the register space or outside the window, and its effect on the data buffer, the units and RESULT is what it would have
been without them: the arguments it uses are the latched ones (70_reset_and_hazards.md sections 3 and 4, from R250, R252
and R257; 20_memory.md sections 1 and 2, from R61 and R62; 10_state.md section 2, from R24). Log 7 (DEDUCED from R61): an
access that starts outside the window changes nothing of the CCE; log 4: the turns are the model's form. -/
def Obligations.PendingCommandCompletesUndisturbed : Prop :=
  ∀ (s : State) (pre : List (Access Nat)) (rest : List Turn), s.status.busy = true →
    (∀ a ∈ pre, quietAccess s.params.cceBase a) →
    s.schedule = pre.map Turn.host ++ .engine :: rest →
    ∃ t u, Sys2Proof.core.run (pre.length + 1) s = .next t ∧
      exec (decode (s.latch.rsv ++ s.latch.op)) s = .next u ∧
      t.status.busy = false ∧ t.status.done = true ∧ t.status.err = u.status.err ∧
      t.status.errCode = u.status.errCode ∧ t.dbuf = u.dbuf ∧ t.cc = u.cc ∧ t.sha = u.sha ∧ t.bc = u.bc ∧
      t.cells = u.cells ∧ t.regs.result = u.regs.result ∧ t.schedule = rest

/-- A command line is encoded as its register writes in the order given, then the CMD write, then the wait, whatever
CCE_BASE is (30_encoding.md section 4, from R88 and R90; log 9: the wait is the engine's turn and one STATUS read). -/
def Obligations.CommandLineEncodesAsItsWrites : Prop :=
  ∀ (base : Nat) (i : Instr) (args : List (Field × Word)),
    (Line.command i args).turns base =
      args.map (fun x => Turn.host (.write (base + match x.1 with
        | .src => 0x10 | .dst => 0x14 | .len => 0x18 | .aux => 0x1C | .auxlen => 0x20) 4 x.2)) ++
      [.host (.write (base + 0x0C) 4 (encode i)), .engine, .host (.read (base + 0x08) 4)]
end

