-- ==== Sys2Proof/Laws/Bits.lean ====
section
/-! SUPPORT. Laws of words, bytes and their orders, and of the fields of a command word. -/

namespace Sys2Proof

namespace Machine

/-- The little-endian bytes of a word give the word back. -/
theorem le32_le32bytes (w : Word) :
    le32 (w.extractLsb' 0 8) (w.extractLsb' 8 8) (w.extractLsb' 16 8) (w.extractLsb' 24 8) = w := by
  apply BitVec.eq_of_getLsbD_eq
  intro i hi
  simp only [le32, BitVec.getLsbD_or, BitVec.getLsbD_shiftLeft, BitVec.getLsbD_setWidth, BitVec.getLsbD_extractLsb']
  interval_cases i <;> simp

/-- Byte `j` of a little-endian word. -/
theorem extract_le32 (b0 b1 b2 b3 : Byte) :
    (le32 b0 b1 b2 b3).extractLsb' 0 8 = b0 ∧ (le32 b0 b1 b2 b3).extractLsb' 8 8 = b1 ∧
    (le32 b0 b1 b2 b3).extractLsb' 16 8 = b2 ∧ (le32 b0 b1 b2 b3).extractLsb' 24 8 = b3 := by
  refine ⟨?_, ?_, ?_, ?_⟩ <;>
  · apply BitVec.eq_of_getLsbD_eq
    intro i hi
    simp only [le32, BitVec.getLsbD_or, BitVec.getLsbD_shiftLeft, BitVec.getLsbD_setWidth, BitVec.getLsbD_extractLsb']
    interval_cases i <;> simp

@[simp] theorem le32bytes_length (w : Word) : (le32bytes w).length = 4 := rfl

@[simp] theorem be32bytes_length (w : Word) : (be32bytes w).length = 4 := rfl

@[simp] theorem be64bytes_length (v : BitVec 64) : (be64bytes v).length = 8 := rfl

end Machine

/-- A table word of 32 bits is the word itself. -/
@[simp] theorem tableWord_toNat (w : Word) : tableWord 32 w.toNat = w := by
  apply BitVec.eq_of_toNat_eq
  have := w.isLt
  simp only [tableWord, BitVec.toNat_ofNat]
  omega

/-- A word is its RSV field before its OP field. -/
theorem rsv_append_op (w : Word) : rsvField w ++ opField w = w := by
  apply BitVec.eq_of_getLsbD_eq
  intro i hi
  simp only [rsvField, opField, BitVec.getLsbD_append, BitVec.getLsbD_extractLsb']
  interval_cases i <;> simp

/-- With RSV = 0 a word is below 256 and is its OP field. -/
theorem toNat_of_rsvField {w : Word} (h : rsvField w = 0) : w.toNat < 256 ∧ (opField w).toNat = w.toNat := by
  have h1 : (rsvField w).toNat = 0 := by rw [h]; rfl
  simp only [rsvField, BitVec.extractLsb'_toNat, Nat.shiftRight_eq_div_pow] at h1
  have h2 : (opField w).toNat = w.toNat % 256 := by simp [opField]
  have := w.isLt
  omega

/-- A word below 256 has RSV = 0. -/
theorem rsvField_of_lt {w : Word} (h : w.toNat < 256) : rsvField w = 0 := by
  apply BitVec.eq_of_toNat_eq
  show (rsvField w).toNat = 0
  simp only [rsvField, BitVec.extractLsb'_toNat, Nat.shiftRight_eq_div_pow]
  omega

/-- A word with RSV not 0 is UNIMPLEMENTED, as the row "every other word" (30_encoding.md R86). -/
theorem decode_of_rsvField {w : Word} (h : rsvField w ≠ 0) : decode w = .unimplOther w := if_pos h

/-- A word with RSV = 0 decodes by its OP field (30_encoding.md R86). -/
theorem decode_of_op {w : Word} (h : rsvField w = 0) : decode w = decodeOp w w.toNat := by
  rw [decode, if_neg (by simp [h]), (toNat_of_rsvField h).2]

end Sys2Proof
end

