-- ==== Sys2Proof/Laws/State.lean ====
section
/-! SUPPORT. One lemma per field per update of State, so that no proof unfolds a record update. -/

namespace Sys2Proof.Machine

@[simp] theorem State.setRegs_params (s : State) (x : Regs) : (s.setRegs x).params = s.params := rfl
@[simp] theorem State.setRegs_regs (s : State) (x : Regs) : (s.setRegs x).regs = x := rfl
@[simp] theorem State.setRegs_status (s : State) (x : Regs) : (s.setRegs x).status = s.status := rfl
@[simp] theorem State.setRegs_latch (s : State) (x : Regs) : (s.setRegs x).latch = s.latch := rfl
@[simp] theorem State.setRegs_cc (s : State) (x : Regs) : (s.setRegs x).cc = s.cc := rfl
@[simp] theorem State.setRegs_sha (s : State) (x : Regs) : (s.setRegs x).sha = s.sha := rfl
@[simp] theorem State.setRegs_bc (s : State) (x : Regs) : (s.setRegs x).bc = s.bc := rfl
@[simp] theorem State.setRegs_cells (s : State) (x : Regs) : (s.setRegs x).cells = s.cells := rfl
@[simp] theorem State.setRegs_dbuf (s : State) (x : Regs) : (s.setRegs x).dbuf = s.dbuf := rfl
@[simp] theorem State.setRegs_aborts (s : State) (x : Regs) : (s.setRegs x).aborts = s.aborts := rfl
@[simp] theorem State.setRegs_schedule (s : State) (x : Regs) : (s.setRegs x).schedule = s.schedule := rfl
@[simp] theorem State.setRegs_lastRead (s : State) (x : Regs) : (s.setRegs x).lastRead = s.lastRead := rfl

@[simp] theorem State.setStatus_params (s : State) (x : Status) : (s.setStatus x).params = s.params := rfl
@[simp] theorem State.setStatus_regs (s : State) (x : Status) : (s.setStatus x).regs = s.regs := rfl
@[simp] theorem State.setStatus_status (s : State) (x : Status) : (s.setStatus x).status = x := rfl
@[simp] theorem State.setStatus_latch (s : State) (x : Status) : (s.setStatus x).latch = s.latch := rfl
@[simp] theorem State.setStatus_cc (s : State) (x : Status) : (s.setStatus x).cc = s.cc := rfl
@[simp] theorem State.setStatus_sha (s : State) (x : Status) : (s.setStatus x).sha = s.sha := rfl
@[simp] theorem State.setStatus_bc (s : State) (x : Status) : (s.setStatus x).bc = s.bc := rfl
@[simp] theorem State.setStatus_cells (s : State) (x : Status) : (s.setStatus x).cells = s.cells := rfl
@[simp] theorem State.setStatus_dbuf (s : State) (x : Status) : (s.setStatus x).dbuf = s.dbuf := rfl
@[simp] theorem State.setStatus_aborts (s : State) (x : Status) : (s.setStatus x).aborts = s.aborts := rfl
@[simp] theorem State.setStatus_schedule (s : State) (x : Status) : (s.setStatus x).schedule = s.schedule := rfl
@[simp] theorem State.setStatus_lastRead (s : State) (x : Status) : (s.setStatus x).lastRead = s.lastRead := rfl

@[simp] theorem State.setLatch_params (s : State) (x : Latch) : (s.setLatch x).params = s.params := rfl
@[simp] theorem State.setLatch_regs (s : State) (x : Latch) : (s.setLatch x).regs = s.regs := rfl
@[simp] theorem State.setLatch_status (s : State) (x : Latch) : (s.setLatch x).status = s.status := rfl
@[simp] theorem State.setLatch_latch (s : State) (x : Latch) : (s.setLatch x).latch = x := rfl
@[simp] theorem State.setLatch_cc (s : State) (x : Latch) : (s.setLatch x).cc = s.cc := rfl
@[simp] theorem State.setLatch_sha (s : State) (x : Latch) : (s.setLatch x).sha = s.sha := rfl
@[simp] theorem State.setLatch_bc (s : State) (x : Latch) : (s.setLatch x).bc = s.bc := rfl
@[simp] theorem State.setLatch_cells (s : State) (x : Latch) : (s.setLatch x).cells = s.cells := rfl
@[simp] theorem State.setLatch_dbuf (s : State) (x : Latch) : (s.setLatch x).dbuf = s.dbuf := rfl
@[simp] theorem State.setLatch_aborts (s : State) (x : Latch) : (s.setLatch x).aborts = s.aborts := rfl
@[simp] theorem State.setLatch_schedule (s : State) (x : Latch) : (s.setLatch x).schedule = s.schedule := rfl
@[simp] theorem State.setLatch_lastRead (s : State) (x : Latch) : (s.setLatch x).lastRead = s.lastRead := rfl

@[simp] theorem State.setCc_params (s : State) (x : CcUnit) : (s.setCc x).params = s.params := rfl
@[simp] theorem State.setCc_regs (s : State) (x : CcUnit) : (s.setCc x).regs = s.regs := rfl
@[simp] theorem State.setCc_status (s : State) (x : CcUnit) : (s.setCc x).status = s.status := rfl
@[simp] theorem State.setCc_latch (s : State) (x : CcUnit) : (s.setCc x).latch = s.latch := rfl
@[simp] theorem State.setCc_cc (s : State) (x : CcUnit) : (s.setCc x).cc = x := rfl
@[simp] theorem State.setCc_sha (s : State) (x : CcUnit) : (s.setCc x).sha = s.sha := rfl
@[simp] theorem State.setCc_bc (s : State) (x : CcUnit) : (s.setCc x).bc = s.bc := rfl
@[simp] theorem State.setCc_cells (s : State) (x : CcUnit) : (s.setCc x).cells = s.cells := rfl
@[simp] theorem State.setCc_dbuf (s : State) (x : CcUnit) : (s.setCc x).dbuf = s.dbuf := rfl
@[simp] theorem State.setCc_aborts (s : State) (x : CcUnit) : (s.setCc x).aborts = s.aborts := rfl
@[simp] theorem State.setCc_schedule (s : State) (x : CcUnit) : (s.setCc x).schedule = s.schedule := rfl
@[simp] theorem State.setCc_lastRead (s : State) (x : CcUnit) : (s.setCc x).lastRead = s.lastRead := rfl

@[simp] theorem State.setSha_params (s : State) (x : ShaUnit) : (s.setSha x).params = s.params := rfl
@[simp] theorem State.setSha_regs (s : State) (x : ShaUnit) : (s.setSha x).regs = s.regs := rfl
@[simp] theorem State.setSha_status (s : State) (x : ShaUnit) : (s.setSha x).status = s.status := rfl
@[simp] theorem State.setSha_latch (s : State) (x : ShaUnit) : (s.setSha x).latch = s.latch := rfl
@[simp] theorem State.setSha_cc (s : State) (x : ShaUnit) : (s.setSha x).cc = s.cc := rfl
@[simp] theorem State.setSha_sha (s : State) (x : ShaUnit) : (s.setSha x).sha = x := rfl
@[simp] theorem State.setSha_bc (s : State) (x : ShaUnit) : (s.setSha x).bc = s.bc := rfl
@[simp] theorem State.setSha_cells (s : State) (x : ShaUnit) : (s.setSha x).cells = s.cells := rfl
@[simp] theorem State.setSha_dbuf (s : State) (x : ShaUnit) : (s.setSha x).dbuf = s.dbuf := rfl
@[simp] theorem State.setSha_aborts (s : State) (x : ShaUnit) : (s.setSha x).aborts = s.aborts := rfl
@[simp] theorem State.setSha_schedule (s : State) (x : ShaUnit) : (s.setSha x).schedule = s.schedule := rfl
@[simp] theorem State.setSha_lastRead (s : State) (x : ShaUnit) : (s.setSha x).lastRead = s.lastRead := rfl

@[simp] theorem State.setBc_params (s : State) (x : BcUnit) : (s.setBc x).params = s.params := rfl
@[simp] theorem State.setBc_regs (s : State) (x : BcUnit) : (s.setBc x).regs = s.regs := rfl
@[simp] theorem State.setBc_status (s : State) (x : BcUnit) : (s.setBc x).status = s.status := rfl
@[simp] theorem State.setBc_latch (s : State) (x : BcUnit) : (s.setBc x).latch = s.latch := rfl
@[simp] theorem State.setBc_cc (s : State) (x : BcUnit) : (s.setBc x).cc = s.cc := rfl
@[simp] theorem State.setBc_sha (s : State) (x : BcUnit) : (s.setBc x).sha = s.sha := rfl
@[simp] theorem State.setBc_bc (s : State) (x : BcUnit) : (s.setBc x).bc = x := rfl
@[simp] theorem State.setBc_cells (s : State) (x : BcUnit) : (s.setBc x).cells = s.cells := rfl
@[simp] theorem State.setBc_dbuf (s : State) (x : BcUnit) : (s.setBc x).dbuf = s.dbuf := rfl
@[simp] theorem State.setBc_aborts (s : State) (x : BcUnit) : (s.setBc x).aborts = s.aborts := rfl
@[simp] theorem State.setBc_schedule (s : State) (x : BcUnit) : (s.setBc x).schedule = s.schedule := rfl
@[simp] theorem State.setBc_lastRead (s : State) (x : BcUnit) : (s.setBc x).lastRead = s.lastRead := rfl

@[simp] theorem State.setCells_params (s : State) (x : List SecCell) : (s.setCells x).params = s.params := rfl
@[simp] theorem State.setCells_regs (s : State) (x : List SecCell) : (s.setCells x).regs = s.regs := rfl
@[simp] theorem State.setCells_status (s : State) (x : List SecCell) : (s.setCells x).status = s.status := rfl
@[simp] theorem State.setCells_latch (s : State) (x : List SecCell) : (s.setCells x).latch = s.latch := rfl
@[simp] theorem State.setCells_cc (s : State) (x : List SecCell) : (s.setCells x).cc = s.cc := rfl
@[simp] theorem State.setCells_sha (s : State) (x : List SecCell) : (s.setCells x).sha = s.sha := rfl
@[simp] theorem State.setCells_bc (s : State) (x : List SecCell) : (s.setCells x).bc = s.bc := rfl
@[simp] theorem State.setCells_cells (s : State) (x : List SecCell) : (s.setCells x).cells = x := rfl
@[simp] theorem State.setCells_dbuf (s : State) (x : List SecCell) : (s.setCells x).dbuf = s.dbuf := rfl
@[simp] theorem State.setCells_aborts (s : State) (x : List SecCell) : (s.setCells x).aborts = s.aborts := rfl
@[simp] theorem State.setCells_schedule (s : State) (x : List SecCell) : (s.setCells x).schedule = s.schedule := rfl
@[simp] theorem State.setCells_lastRead (s : State) (x : List SecCell) : (s.setCells x).lastRead = s.lastRead := rfl

@[simp] theorem State.setDbuf_params (s : State) (x : Memory) : (s.setDbuf x).params = s.params := rfl
@[simp] theorem State.setDbuf_regs (s : State) (x : Memory) : (s.setDbuf x).regs = s.regs := rfl
@[simp] theorem State.setDbuf_status (s : State) (x : Memory) : (s.setDbuf x).status = s.status := rfl
@[simp] theorem State.setDbuf_latch (s : State) (x : Memory) : (s.setDbuf x).latch = s.latch := rfl
@[simp] theorem State.setDbuf_cc (s : State) (x : Memory) : (s.setDbuf x).cc = s.cc := rfl
@[simp] theorem State.setDbuf_sha (s : State) (x : Memory) : (s.setDbuf x).sha = s.sha := rfl
@[simp] theorem State.setDbuf_bc (s : State) (x : Memory) : (s.setDbuf x).bc = s.bc := rfl
@[simp] theorem State.setDbuf_cells (s : State) (x : Memory) : (s.setDbuf x).cells = s.cells := rfl
@[simp] theorem State.setDbuf_dbuf (s : State) (x : Memory) : (s.setDbuf x).dbuf = x := rfl
@[simp] theorem State.setDbuf_aborts (s : State) (x : Memory) : (s.setDbuf x).aborts = s.aborts := rfl
@[simp] theorem State.setDbuf_schedule (s : State) (x : Memory) : (s.setDbuf x).schedule = s.schedule := rfl
@[simp] theorem State.setDbuf_lastRead (s : State) (x : Memory) : (s.setDbuf x).lastRead = s.lastRead := rfl

@[simp] theorem State.setAborts_params (s : State) (x : Nat) : (s.setAborts x).params = s.params := rfl
@[simp] theorem State.setAborts_regs (s : State) (x : Nat) : (s.setAborts x).regs = s.regs := rfl
@[simp] theorem State.setAborts_status (s : State) (x : Nat) : (s.setAborts x).status = s.status := rfl
@[simp] theorem State.setAborts_latch (s : State) (x : Nat) : (s.setAborts x).latch = s.latch := rfl
@[simp] theorem State.setAborts_cc (s : State) (x : Nat) : (s.setAborts x).cc = s.cc := rfl
@[simp] theorem State.setAborts_sha (s : State) (x : Nat) : (s.setAborts x).sha = s.sha := rfl
@[simp] theorem State.setAborts_bc (s : State) (x : Nat) : (s.setAborts x).bc = s.bc := rfl
@[simp] theorem State.setAborts_cells (s : State) (x : Nat) : (s.setAborts x).cells = s.cells := rfl
@[simp] theorem State.setAborts_dbuf (s : State) (x : Nat) : (s.setAborts x).dbuf = s.dbuf := rfl
@[simp] theorem State.setAborts_aborts (s : State) (x : Nat) : (s.setAborts x).aborts = x := rfl
@[simp] theorem State.setAborts_schedule (s : State) (x : Nat) : (s.setAborts x).schedule = s.schedule := rfl
@[simp] theorem State.setAborts_lastRead (s : State) (x : Nat) : (s.setAborts x).lastRead = s.lastRead := rfl

@[simp] theorem State.setSchedule_params (s : State) (x : List Turn) : (s.setSchedule x).params = s.params := rfl
@[simp] theorem State.setSchedule_regs (s : State) (x : List Turn) : (s.setSchedule x).regs = s.regs := rfl
@[simp] theorem State.setSchedule_status (s : State) (x : List Turn) : (s.setSchedule x).status = s.status := rfl
@[simp] theorem State.setSchedule_latch (s : State) (x : List Turn) : (s.setSchedule x).latch = s.latch := rfl
@[simp] theorem State.setSchedule_cc (s : State) (x : List Turn) : (s.setSchedule x).cc = s.cc := rfl
@[simp] theorem State.setSchedule_sha (s : State) (x : List Turn) : (s.setSchedule x).sha = s.sha := rfl
@[simp] theorem State.setSchedule_bc (s : State) (x : List Turn) : (s.setSchedule x).bc = s.bc := rfl
@[simp] theorem State.setSchedule_cells (s : State) (x : List Turn) : (s.setSchedule x).cells = s.cells := rfl
@[simp] theorem State.setSchedule_dbuf (s : State) (x : List Turn) : (s.setSchedule x).dbuf = s.dbuf := rfl
@[simp] theorem State.setSchedule_aborts (s : State) (x : List Turn) : (s.setSchedule x).aborts = s.aborts := rfl
@[simp] theorem State.setSchedule_schedule (s : State) (x : List Turn) : (s.setSchedule x).schedule = x := rfl
@[simp] theorem State.setSchedule_lastRead (s : State) (x : List Turn) : (s.setSchedule x).lastRead = s.lastRead := rfl

@[simp] theorem State.setLastRead_params (s : State) (x : Option Word) : (s.setLastRead x).params = s.params := rfl
@[simp] theorem State.setLastRead_regs (s : State) (x : Option Word) : (s.setLastRead x).regs = s.regs := rfl
@[simp] theorem State.setLastRead_status (s : State) (x : Option Word) : (s.setLastRead x).status = s.status := rfl
@[simp] theorem State.setLastRead_latch (s : State) (x : Option Word) : (s.setLastRead x).latch = s.latch := rfl
@[simp] theorem State.setLastRead_cc (s : State) (x : Option Word) : (s.setLastRead x).cc = s.cc := rfl
@[simp] theorem State.setLastRead_sha (s : State) (x : Option Word) : (s.setLastRead x).sha = s.sha := rfl
@[simp] theorem State.setLastRead_bc (s : State) (x : Option Word) : (s.setLastRead x).bc = s.bc := rfl
@[simp] theorem State.setLastRead_cells (s : State) (x : Option Word) : (s.setLastRead x).cells = s.cells := rfl
@[simp] theorem State.setLastRead_dbuf (s : State) (x : Option Word) : (s.setLastRead x).dbuf = s.dbuf := rfl
@[simp] theorem State.setLastRead_aborts (s : State) (x : Option Word) : (s.setLastRead x).aborts = s.aborts := rfl
@[simp] theorem State.setLastRead_schedule (s : State) (x : Option Word) : (s.setLastRead x).schedule = s.schedule := rfl
@[simp] theorem State.setLastRead_lastRead (s : State) (x : Option Word) : (s.setLastRead x).lastRead = x := rfl

@[simp] theorem State.setResult_params (s : State) (x : Word) : (s.setResult x).params = s.params := rfl
@[simp] theorem State.setResult_regs (s : State) (x : Word) : (s.setResult x).regs = { s.regs with result := x } := rfl
@[simp] theorem State.setResult_status (s : State) (x : Word) : (s.setResult x).status = s.status := rfl
@[simp] theorem State.setResult_latch (s : State) (x : Word) : (s.setResult x).latch = s.latch := rfl
@[simp] theorem State.setResult_cc (s : State) (x : Word) : (s.setResult x).cc = s.cc := rfl
@[simp] theorem State.setResult_sha (s : State) (x : Word) : (s.setResult x).sha = s.sha := rfl
@[simp] theorem State.setResult_bc (s : State) (x : Word) : (s.setResult x).bc = s.bc := rfl
@[simp] theorem State.setResult_cells (s : State) (x : Word) : (s.setResult x).cells = s.cells := rfl
@[simp] theorem State.setResult_dbuf (s : State) (x : Word) : (s.setResult x).dbuf = s.dbuf := rfl
@[simp] theorem State.setResult_aborts (s : State) (x : Word) : (s.setResult x).aborts = s.aborts := rfl
@[simp] theorem State.setResult_schedule (s : State) (x : Word) : (s.setResult x).schedule = s.schedule := rfl
@[simp] theorem State.setResult_lastRead (s : State) (x : Word) : (s.setResult x).lastRead = s.lastRead := rfl

@[simp] theorem State.completed_params (s : State) : s.completed.params = s.params := rfl
@[simp] theorem State.completed_regs (s : State) : s.completed.regs = s.regs := rfl
@[simp] theorem State.completed_latch (s : State) : s.completed.latch = s.latch := rfl
@[simp] theorem State.completed_cc (s : State) : s.completed.cc = s.cc := rfl
@[simp] theorem State.completed_sha (s : State) : s.completed.sha = s.sha := rfl
@[simp] theorem State.completed_bc (s : State) : s.completed.bc = s.bc := rfl
@[simp] theorem State.completed_cells (s : State) : s.completed.cells = s.cells := rfl
@[simp] theorem State.completed_dbuf (s : State) : s.completed.dbuf = s.dbuf := rfl
@[simp] theorem State.completed_aborts (s : State) : s.completed.aborts = s.aborts := rfl
@[simp] theorem State.completed_schedule (s : State) : s.completed.schedule = s.schedule := rfl
@[simp] theorem State.completed_lastRead (s : State) : s.completed.lastRead = s.lastRead := rfl
@[simp] theorem State.failed_params (s : State) (e : Err) : (s.failed e).params = s.params := rfl
@[simp] theorem State.failed_regs (s : State) (e : Err) : (s.failed e).regs = s.regs := rfl
@[simp] theorem State.failed_latch (s : State) (e : Err) : (s.failed e).latch = s.latch := rfl
@[simp] theorem State.failed_cc (s : State) (e : Err) : (s.failed e).cc = s.cc := rfl
@[simp] theorem State.failed_sha (s : State) (e : Err) : (s.failed e).sha = s.sha := rfl
@[simp] theorem State.failed_bc (s : State) (e : Err) : (s.failed e).bc = s.bc := rfl
@[simp] theorem State.failed_cells (s : State) (e : Err) : (s.failed e).cells = s.cells := rfl
@[simp] theorem State.failed_dbuf (s : State) (e : Err) : (s.failed e).dbuf = s.dbuf := rfl
@[simp] theorem State.failed_aborts (s : State) (e : Err) : (s.failed e).aborts = s.aborts := rfl
@[simp] theorem State.failed_schedule (s : State) (e : Err) : (s.failed e).schedule = s.schedule := rfl
@[simp] theorem State.failed_lastRead (s : State) (e : Err) : (s.failed e).lastRead = s.lastRead := rfl
@[simp] theorem State.completed_status_busy (s : State) : s.completed.status.busy = false := rfl
@[simp] theorem State.completed_status_done (s : State) : s.completed.status.done = true := rfl
@[simp] theorem State.completed_status_err (s : State) : s.completed.status.err = false := rfl
@[simp] theorem State.completed_status_ovr (s : State) : s.completed.status.ovr = s.status.ovr := rfl
@[simp] theorem State.completed_status_errCode (s : State) : s.completed.status.errCode = 0 := rfl
@[simp] theorem State.failed_status_busy (s : State) (e : Err) : (s.failed e).status.busy = false := rfl
@[simp] theorem State.failed_status_done (s : State) (e : Err) : (s.failed e).status.done = true := rfl
@[simp] theorem State.failed_status_err (s : State) (e : Err) : (s.failed e).status.err = true := rfl
@[simp] theorem State.failed_status_ovr (s : State) (e : Err) : (s.failed e).status.ovr = s.status.ovr := rfl
@[simp] theorem State.failed_status_errCode (s : State) (e : Err) : (s.failed e).status.errCode = e.code := rfl

/-- A completion is always a next state. -/
theorem State.complete_eq (s : State) : s.complete = .next s.completed := rfl

/-- An error is always a next state: the status fields change and nothing else. -/
theorem State.raise_eq (s : State) (e : Err) : s.raise e = .next (s.failed e) := rfl

/-- No error has code 0 (60_exceptions.md R210). -/
@[simp] theorem Err.code_ne_zero (e : Err) : ¬ e.code = 0#4 := by cases e <;> decide

/-- No error has a reserved code (60_exceptions.md R210, I17). -/
theorem Err.code_le_six (e : Err) : e.code.toNat ≤ 6 := by cases e <;> decide

/-- Different errors have different codes. -/
theorem Err.code_injective (e f : Err) (h : e.code = f.code) : e = f := by
  cases e <;> cases f <;> first | rfl | (exact absurd h (by decide))

end Sys2Proof.Machine
end

