-- ==== Sys2Proof/Laws/Memory.lean ====
section
/-! SUPPORT. Laws of the data buffer: reads after writes, the canonical form, and bounds. -/

namespace Sys2Proof.Machine

/-- A byte reads as the last one written there, and other bytes are as before. -/
theorem lookupCell_setCell (cs : List Host.Cell) (a : Nat) (v : Byte) (x : Nat) :
    lookupCell (setCell cs a v) x = if x = a then some v else lookupCell cs x := by
  induction cs with
  | nil => simp [setCell, lookupCell]
  | cons c cs ih =>
    obtain ⟨b, u⟩ := c
    simp only [setCell]
    split
    · simp [lookupCell]
    · split
      · subst_vars
        by_cases hx : x = b <;> simp [lookupCell, hx]
      · by_cases hx : x = b
        · subst hx
          simp only [lookupCell, if_pos]
          rw [if_neg (by omega)]
        · simp only [lookupCell, if_neg hx, ih]

/-- An address that is written or was listed is listed after a write, and no other. -/
theorem mem_setCell {cs : List Host.Cell} {a : Nat} {v : Byte} {c : Host.Cell} (h : c ∈ setCell cs a v) :
    c = (a, v) ∨ c ∈ cs := by
  induction cs with
  | nil => simpa [setCell] using h
  | cons d cs ih =>
    simp only [setCell] at h
    split at h
    · simpa using h
    · split at h
      · rcases List.mem_cons.1 h with h | h
        · exact .inl h
        · exact .inr (List.mem_cons_of_mem _ h)
      · rcases List.mem_cons.1 h with h | h
        · exact .inr (h ▸ List.mem_cons_self)
        · exact (ih h).imp id (List.mem_cons_of_mem _)

/-- A write keeps the addresses strictly rising. -/
theorem setCell_rising (cs : List Host.Cell) (a : Nat) (v : Byte) (h : cs.Pairwise (fun x y => x.1 < y.1)) :
    (setCell cs a v).Pairwise (fun x y => x.1 < y.1) := by
  induction cs with
  | nil => simp [setCell]
  | cons d cs ih =>
    obtain ⟨b, u⟩ := d
    rw [List.pairwise_cons] at h
    simp only [setCell]
    split
    · rename_i hab
      refine List.pairwise_cons.2 ⟨fun y hy => ?_, List.pairwise_cons.2 h⟩
      rcases List.mem_cons.1 hy with rfl | hy
      · exact hab
      · exact Nat.lt_trans hab (h.1 y hy)
    · split
      · subst_vars
        exact List.pairwise_cons.2 h
      · refine List.pairwise_cons.2 ⟨fun y hy => ?_, ih h.2⟩
        rcases mem_setCell hy with rfl | hy
        · show b < a
          omega
        · exact h.1 y hy

/-! `Memory.write` and `Memory.read`. -/

@[simp] theorem Memory.write_epoch (m : Memory) (a : Nat) (v : Byte) : (m.write a v).epoch = m.epoch := rfl

theorem Memory.read_write (m : Memory) (a : Nat) (v : Byte) (x : Nat) :
    (m.write a v).read x = if x = a then v else m.read x := by
  simp only [Memory.read, Memory.write, lookupCell_setCell, Memory.unlisted]
  split <;> rfl

@[simp] theorem Memory.read_write_same (m : Memory) (a : Nat) (v : Byte) : (m.write a v).read a = v := by
  simp [Memory.read_write]

theorem Memory.read_write_other (m : Memory) {a x : Nat} (v : Byte) (h : x ≠ a) :
    (m.write a v).read x = m.read x := by
  simp [Memory.read_write, h]

theorem Memory.write_wf {m : Memory} (h : m.wf) (a : Nat) (v : Byte) : (m.write a v).wf := setCell_rising _ _ _ h

/-- Every listed address is below a bound. -/
def Memory.Below (m : Memory) (n : Nat) : Prop := ∀ c ∈ m.cells, c.1 < n

theorem Memory.write_below {m : Memory} {n : Nat} (h : m.Below n) {a : Nat} (ha : a < n) (v : Byte) :
    (m.write a v).Below n := by
  intro c hc
  rcases mem_setCell hc with rfl | hc
  · exact ha
  · exact h c hc

/-! `Memory.readBytes`. -/

@[simp] theorem Memory.readBytes_length (m : Memory) (a n : Nat) : (m.readBytes a n).length = n := by
  induction n generalizing a with
  | zero => rfl
  | succ n ih => simp [Memory.readBytes, ih]

theorem Memory.readBytes_getD (m : Memory) (a : Nat) {n i : Nat} (h : i < n) (d : Byte) :
    (m.readBytes a n).getD i d = m.read (a + i) := by
  induction n generalizing a i with
  | zero => omega
  | succ n ih =>
    cases i with
    | zero => rfl
    | succ i =>
      simp only [Memory.readBytes, List.getD_cons_succ]
      rw [ih (a + 1) (by omega)]
      congr 1
      omega

theorem Memory.readBytes_getElem (m : Memory) (a : Nat) {n i : Nat} (h : i < (m.readBytes a n).length) :
    (m.readBytes a n)[i] = m.read (a + i) := by
  have h' : i < n := by simpa using h
  rw [← m.readBytes_getD a h' 0, List.getD_eq_getElem _ _ h]

/-- Two reads of one length agree when every byte does. -/
theorem Memory.readBytes_congr {m m' : Memory} {a a' n : Nat} (h : ∀ i < n, m.read (a + i) = m'.read (a' + i)) :
    m.readBytes a n = m'.readBytes a' n := by
  apply List.ext_getElem
  · simp
  · intro i h1 h2
    rw [Memory.readBytes_getElem, Memory.readBytes_getElem]
    exact h i (by simpa using h1)

theorem Memory.readBytes_add (m : Memory) (a n k : Nat) :
    m.readBytes a (n + k) = m.readBytes a n ++ m.readBytes (a + n) k := by
  induction n generalizing a with
  | zero => simp [Memory.readBytes]
  | succ n ih =>
    rw [Nat.succ_add]
    simp only [Memory.readBytes, List.cons_append]
    rw [ih (a + 1)]
    congr 3
    omega

/-! `Memory.writeBytes`. -/

@[simp] theorem Memory.writeBytes_epoch (m : Memory) (a : Nat) (bs : List Byte) :
    (m.writeBytes a bs).epoch = m.epoch := by
  induction bs generalizing m a with
  | nil => rfl
  | cons b bs ih => simp [Memory.writeBytes, ih]

/-- A byte after a block write: inside the block the byte written, outside as before. -/
theorem Memory.read_writeBytes (m : Memory) (a : Nat) (bs : List Byte) (x : Nat) :
    (m.writeBytes a bs).read x = if a ≤ x ∧ x < a + bs.length then bs.getD (x - a) 0 else m.read x := by
  induction bs generalizing m a with
  | nil =>
    simp only [Memory.writeBytes, List.length_nil]
    rw [if_neg (by omega)]
  | cons b bs ih =>
    simp only [Memory.writeBytes, ih, Memory.read_write, List.length_cons]
    by_cases hx : x = a
    · subst hx
      rw [if_neg (by omega), if_pos rfl, if_pos (by omega)]
      simp
    · by_cases h : a + 1 ≤ x ∧ x < a + 1 + bs.length
      · rw [if_pos h, if_pos (by omega)]
        obtain ⟨k, hk⟩ : ∃ k, x - a = k + 1 := ⟨x - a - 1, by omega⟩
        rw [hk, List.getD_cons_succ]
        congr 1
        omega
      · rw [if_neg h, if_neg hx, if_neg (by omega)]

theorem Memory.read_writeBytes_outside (m : Memory) {a x : Nat} {bs : List Byte} (h : x < a ∨ a + bs.length ≤ x) :
    (m.writeBytes a bs).read x = m.read x := by
  rw [Memory.read_writeBytes, if_neg (by omega)]

theorem Memory.read_writeBytes_inside (m : Memory) {a i : Nat} {bs : List Byte} (h : i < bs.length) :
    (m.writeBytes a bs).read (a + i) = bs.getD i 0 := by
  rw [Memory.read_writeBytes, if_pos (by omega)]
  congr 1
  omega

/-- A block reads back as it was written. -/
theorem Memory.readBytes_writeBytes (m : Memory) (a : Nat) (bs : List Byte) :
    (m.writeBytes a bs).readBytes a bs.length = bs := by
  apply List.ext_getElem
  · simp
  · intro i h1 h2
    rw [Memory.readBytes_getElem, Memory.read_writeBytes_inside _ h2, List.getD_eq_getElem _ _ h2]

theorem Memory.readBytes_writeBytes_outside (m : Memory) {a b n : Nat} {bs : List Byte}
    (h : b + n ≤ a ∨ a + bs.length ≤ b) : (m.writeBytes a bs).readBytes b n = m.readBytes b n :=
  Memory.readBytes_congr fun i hi => Memory.read_writeBytes_outside _ (by omega)

theorem Memory.writeBytes_wf {m : Memory} (h : m.wf) (a : Nat) (bs : List Byte) : (m.writeBytes a bs).wf := by
  induction bs generalizing m a with
  | nil => exact h
  | cons b bs ih => exact ih (Memory.write_wf h a b) _

theorem Memory.writeBytes_below {m : Memory} {n : Nat} (h : m.Below n) {a : Nat} {bs : List Byte}
    (ha : bs = [] ∨ a + bs.length ≤ n) : (m.writeBytes a bs).Below n := by
  induction bs generalizing m a with
  | nil => exact h
  | cons b bs ih =>
    simp only [List.length_cons, reduceCtorEq, false_or] at ha
    exact ih (Memory.write_below h (by omega) b) (.inr (by omega))

/-! `Memory.zeroBytes`. -/

theorem Memory.read_zeroBytes (m : Memory) (a n x : Nat) :
    (m.zeroBytes a n).read x = if a ≤ x ∧ x < a + n then 0 else m.read x := by
  rw [Memory.zeroBytes, Memory.read_writeBytes, List.length_replicate]
  split
  · rw [List.getD_replicate]
    omega
  · rfl

theorem Memory.zeroBytes_wf {m : Memory} (h : m.wf) (a n : Nat) : (m.zeroBytes a n).wf := Memory.writeBytes_wf h _ _

theorem Memory.zeroBytes_below {m : Memory} {k : Nat} (h : m.Below k) {a n : Nat} (ha : n = 0 ∨ a + n ≤ k) :
    (m.zeroBytes a n).Below k := by
  refine Memory.writeBytes_below h ?_
  rcases ha with rfl | ha
  · exact .inl rfl
  · exact .inr (by simpa using ha)

@[simp] theorem Memory.zeroBytes_epoch (m : Memory) (a n : Nat) : (m.zeroBytes a n).epoch = m.epoch := by
  simp [Memory.zeroBytes]

end Sys2Proof.Machine
end

