-- ==== Sys2Proof/Laws/BlockModes.lean ====
section
/-! SUPPORT. Laws of the BC unit: the loops of the four commands as one run over blocks, and what that run leaves. -/

namespace Sys2Proof.Machine

@[simp] theorem portEnc_length (port : CipherPort) (b : Nat) (k x : List Byte) : (portEnc port b k x).length = b := by
  simp [portEnc]

@[simp] theorem portDec_length (port : CipherPort) (b : Nat) (k x : List Byte) : (portDec port b k x).length = b := by
  simp [portDec]

@[simp] theorem xorBytes_length (p q : List Byte) : (xorBytes p q).length = min p.length q.length := by
  simp [xorBytes]

/-- XOR with the same bytes twice gives the bytes back. -/
theorem xorBytes_cancel {p q : List Byte} (h : p.length = q.length) : xorBytes (xorBytes p q) q = p := by
  apply List.ext_getElem
  · simp [h]
  · intro i h1 h2
    simp [xorBytes]

/-- Byte `i` of a padded key (40_block_modes.md R101). -/
theorem padKey_getElem (k : List Byte) (i : Nat) (h : i < 32) : (padKey k)[i] = k.getD i 0 := by
  unfold padKey
  rw [Vector.getElem_ofFn]

@[simp] theorem BcUnit.withKey_key (u : BcUnit) (k : List Byte) (n : Nat) : (u.withKey k n).key = padKey k := rfl
@[simp] theorem BcUnit.withKey_keyLen (u : BcUnit) (k : List Byte) (n : Nat) : (u.withKey k n).keyLen = n := rfl
@[simp] theorem BcUnit.withKey_keyed (u : BcUnit) (k : List Byte) (n : Nat) : (u.withKey k n).keyed = true := rfl
@[simp] theorem BcUnit.withKey_prev (u : BcUnit) (k : List Byte) (n : Nat) : (u.withKey k n).prev = u.prev := rfl

/-- A run over blocks: the carried bytes and the data buffer after `n` blocks. `g` answers, for the carried bytes and a
block read, the block to write and the bytes to carry. -/
def blockRun (g : List Byte → List Byte → List Byte × List Byte) (b src dst : Nat) (p : List Byte) (m : Memory) :
    Nat → List Byte × Memory
  | 0 => (p, m)
  | n + 1 =>
    let r := blockRun g b src dst p m n
    let x := g r.1 (r.2.readBytes (src + n * b) b)
    (x.2, r.2.writeBytes (dst + n * b) x.1)

/-- A run that takes its first block first. -/
theorem blockRun_first (g : List Byte → List Byte → List Byte × List Byte) (b src dst : Nat) (p : List Byte)
    (m : Memory) (n : Nat) :
    blockRun g b src dst p m (n + 1) =
      blockRun g b (src + b) (dst + b) (g p (m.readBytes src b)).2 (m.writeBytes dst (g p (m.readBytes src b)).1) n := by
  induction n with
  | zero => simp [blockRun]
  | succ n ih =>
    rw [blockRun, ih]
    conv_rhs => rw [blockRun]
    rw [show src + b + n * b = src + (n + 1) * b by rw [Nat.succ_mul]; omega,
      show dst + b + n * b = dst + (n + 1) * b by rw [Nat.succ_mul]; omega]

/-- ECB as a run that carries nothing (40_block_modes.md R104, R105). -/
theorem ecbLoop_eq_run (f : List Byte → List Byte) (b n src dst : Nat) (m : Memory) :
    ecbLoop f b n src dst m = (blockRun (fun _ x => (f x, [])) b src dst [] m n).2 := by
  induction n generalizing src dst m with
  | zero => rfl
  | succ n ih => rw [blockRun_first, ecbLoop, ih]

/-- CBC_ENC as a run that carries the ciphertext written (40_block_modes.md R106). -/
theorem cbcEncLoop_eq_run (enc : List Byte → List Byte) (b n src dst : Nat) (p : List Byte) (m : Memory) :
    cbcEncLoop enc b n src dst p m =
      (blockRun (fun p x => (enc (xorBytes x p), enc (xorBytes x p))) b src dst p m n).2 := by
  induction n generalizing src dst p m with
  | zero => rfl
  | succ n ih => rw [blockRun_first, cbcEncLoop, ih]

/-- CBC_DEC as a run that carries the ciphertext read (40_block_modes.md R107). -/
theorem cbcDecLoop_eq_run (dec : List Byte → List Byte) (b n src dst : Nat) (p : List Byte) (m : Memory) :
    cbcDecLoop dec b n src dst p m = (blockRun (fun p c => (xorBytes (dec c) p, c)) b src dst p m n).2 := by
  induction n generalizing src dst p m with
  | zero => rfl
  | succ n ih => rw [blockRun_first, cbcDecLoop, ih]

/-! What a run of blocks of `b` bytes leaves. The hypothesis on `g` says that every block written has `b` bytes. -/

section
variable {g : List Byte → List Byte → List Byte × List Byte} {b src dst : Nat} {p : List Byte} {m : Memory}

/-- The carried bytes keep a property that `g` gives them. -/
theorem blockRun_carried (P : List Byte → Prop) (h0 : P p) (h : ∀ p x, P p → x.length = b → P (g p x).2) (n : Nat) :
    P (blockRun g b src dst p m n).1 := by
  induction n with
  | zero => exact h0
  | succ n ih => exact h _ _ ih (by simp)

theorem blockRun_outside (P : List Byte → Prop) (h0 : P p)
    (h : ∀ p x, P p → x.length = b → P (g p x).2 ∧ (g p x).1.length = b) (n : Nat) {a : Nat}
    (ha : a < dst ∨ dst + n * b ≤ a) : (blockRun g b src dst p m n).2.read a = m.read a := by
  induction n with
  | zero => rfl
  | succ n ih =>
    rw [Nat.succ_mul] at ha
    have hp := blockRun_carried (src := src) (dst := dst) (m := m) P h0 (fun p x hp hx => (h p x hp hx).1) n
    rw [blockRun, Memory.read_writeBytes_outside, ih (by omega)]
    rw [(h _ _ hp (by simp)).2]
    omega

/-- A run whose ranges do not overlap reads its blocks as they were before it. -/
theorem blockRun_input (P : List Byte → Prop) (h0 : P p)
    (h : ∀ p x, P p → x.length = b → P (g p x).2 ∧ (g p x).1.length = b) {n j : Nat} (hj : j < n)
    (hd : src + n * b ≤ dst ∨ dst + n * b ≤ src) :
    (blockRun g b src dst p m j).2.readBytes (src + j * b) b = m.readBytes (src + j * b) b := by
  have : j * b + b ≤ n * b := by rw [← Nat.succ_mul]; exact Nat.mul_le_mul_right b hj
  exact Memory.readBytes_congr fun i hi => blockRun_outside P h0 h j (by omega)

/-- A block written stays: after the whole run it is what `g` answered. -/
theorem blockRun_output (P : List Byte → Prop) (h0 : P p)
    (h : ∀ p x, P p → x.length = b → P (g p x).2 ∧ (g p x).1.length = b) {n j : Nat} (hj : j < n) :
    (blockRun g b src dst p m n).2.readBytes (dst + j * b) b =
      (g (blockRun g b src dst p m j).1 ((blockRun g b src dst p m j).2.readBytes (src + j * b) b)).1 := by
  induction n with
  | zero => omega
  | succ n ih =>
    have hp := fun k => blockRun_carried (src := src) (dst := dst) (m := m) P h0 (fun p x hp hx => (h p x hp hx).1) k
    have hlen := fun k => (h _ ((blockRun g b src dst p m k).2.readBytes (src + k * b) b) (hp k) (by simp)).2
    by_cases hn : j = n
    · subst hn
      have := Memory.readBytes_writeBytes (blockRun g b src dst p m j).2 (dst + j * b)
        (g (blockRun g b src dst p m j).1 ((blockRun g b src dst p m j).2.readBytes (src + j * b) b)).1
      rw [hlen] at this
      exact this
    · have hjn : j * b + b ≤ n * b := by rw [← Nat.succ_mul]; exact Nat.mul_le_mul_right b (by omega)
      rw [blockRun, Memory.readBytes_writeBytes_outside _ (by omega)]
      exact ih (by omega)

theorem blockRun_wf (h : m.wf) (n : Nat) : (blockRun g b src dst p m n).2.wf := by
  induction n with
  | zero => exact h
  | succ n ih => exact Memory.writeBytes_wf ih _ _

theorem blockRun_below (P : List Byte → Prop) (h0 : P p)
    (h : ∀ p x, P p → x.length = b → P (g p x).2 ∧ (g p x).1.length = b) {k : Nat} (hm : m.Below k) (n : Nat)
    (hk : n * b = 0 ∨ dst + n * b ≤ k) : (blockRun g b src dst p m n).2.Below k := by
  induction n with
  | zero => exact hm
  | succ n ih =>
    rw [Nat.succ_mul] at hk
    have hp := blockRun_carried (src := src) (dst := dst) (m := m) P h0 (fun p x hp hx => (h p x hp hx).1) n
    refine Memory.writeBytes_below (ih (by omega)) ?_
    rw [(h _ _ hp (by simp)).2]
    rcases Nat.eq_zero_or_pos b with rfl | hb
    · exact .inl (List.eq_nil_of_length_eq_zero (h _ _ hp (by simp)).2)
    · exact .inr (by omega)

end

end Sys2Proof.Machine
end

