-- ==== Sys2Proof/Laws/Reset.lean ====
section
/-! SUPPORT. Laws of the resets: what an abort and the zeroing of the open cells do to the data buffer, and what a reset
leaves of the rest of the state. -/

namespace Sys2Proof.Machine

/-! `Memory.scramble`. -/

theorem Memory.scramble_outside (m : Memory) (draw a n : Nat) {x : Nat} (h : x < a ∨ a + n ≤ x) :
    (m.scramble draw a n).read x = m.read x := by
  induction n generalizing m a with
  | zero => rfl
  | succ n ih => rw [Memory.scramble, ih _ _ (by omega), Memory.read_write_other _ _ (by omega)]

theorem Memory.scramble_wf {m : Memory} (h : m.wf) (draw a n : Nat) : (m.scramble draw a n).wf := by
  induction n generalizing m a with
  | zero => exact h
  | succ n ih => exact ih (Memory.write_wf h _ _) _

theorem Memory.scramble_below {m : Memory} {k : Nat} (h : m.Below k) (draw : Nat) {a n : Nat}
    (ha : n = 0 ∨ a + n ≤ k) : (m.scramble draw a n).Below k := by
  induction n generalizing m a with
  | zero => exact h
  | succ n ih => exact ih (Memory.write_below h (by omega) _) (.inr (by omega))

@[simp] theorem Memory.scramble_epoch (m : Memory) (draw a n : Nat) : (m.scramble draw a n).epoch = m.epoch := by
  induction n generalizing m a with
  | zero => rfl
  | succ n ih => rw [Memory.scramble, ih]; rfl

/-! `zeroOpenCells`. -/

/-- A byte that was 0 stays 0 while cells are zeroed. -/
theorem zeroOpenCells_zero (cs : List SecCell) (m : Memory) {a : Nat} (h : m.read a = 0) :
    (zeroOpenCells cs m).read a = 0 := by
  induction cs generalizing m with
  | nil => exact h
  | cons c cs ih =>
    refine ih _ ?_
    split
    · rw [Memory.read_zeroBytes]
      split
      · rfl
      · exact h
    · exact h

/-- Every byte of an open cell is zeroed (70_reset_and_hazards.md R241). -/
theorem zeroOpenCells_inside {cs : List SecCell} (m : Memory) {a : Nat} {c : SecCell} (hc : c ∈ cs)
    (ho : c.isOpen = true) (h1 : c.base.toNat ≤ a) (h2 : a < c.base.toNat + c.len.toNat) :
    (zeroOpenCells cs m).read a = 0 := by
  induction cs generalizing m with
  | nil => cases hc
  | cons d cs ih =>
    rcases List.mem_cons.1 hc with rfl | hc
    · rw [zeroOpenCells, if_pos ho]
      refine zeroOpenCells_zero _ _ ?_
      rw [Memory.read_zeroBytes, if_pos ⟨h1, h2⟩]
    · exact ih _ hc

/-- Every byte outside the open cells is kept. -/
theorem zeroOpenCells_outside {cs : List SecCell} (m : Memory) {a : Nat}
    (h : ∀ c ∈ cs, c.isOpen = true → a < c.base.toNat ∨ c.base.toNat + c.len.toNat ≤ a) :
    (zeroOpenCells cs m).read a = m.read a := by
  induction cs generalizing m with
  | nil => rfl
  | cons d cs ih =>
    rw [zeroOpenCells, ih _ fun c hc => h c (List.mem_cons_of_mem _ hc)]
    split
    · have := h d List.mem_cons_self ‹_›
      rw [Memory.read_zeroBytes, if_neg (by omega)]
    · rfl

theorem zeroOpenCells_wf (cs : List SecCell) {m : Memory} (h : m.wf) : (zeroOpenCells cs m).wf := by
  induction cs generalizing m with
  | nil => exact h
  | cons d cs ih =>
    refine ih ?_
    split
    · exact Memory.zeroBytes_wf h _ _
    · exact h

theorem zeroOpenCells_below {cs : List SecCell} {m : Memory} {k : Nat} (h : m.Below k)
    (hc : ∀ c ∈ cs, c.isOpen = true → c.base.toNat + c.len.toNat ≤ k) : (zeroOpenCells cs m).Below k := by
  induction cs generalizing m with
  | nil => exact h
  | cons d cs ih =>
    refine ih ?_ fun c h => hc c (List.mem_cons_of_mem _ h)
    split
    · exact Memory.zeroBytes_below h (.inr (hc d List.mem_cons_self ‹_›))
    · exact h

@[simp] theorem zeroOpenCells_epoch (cs : List SecCell) (m : Memory) : (zeroOpenCells cs m).epoch = m.epoch := by
  induction cs generalizing m with
  | nil => rfl
  | cons d cs ih =>
    rw [zeroOpenCells, ih]
    split <;> simp

/-! `State.abortRunning`, `State.warmReset` and `State.powerOnReset`: the rest of the state. -/

theorem State.abortRunning_idle {s : State} (h : s.status.busy = false) : s.abortRunning = s := by
  simp [State.abortRunning, h]

/-- An abort changes the data buffer and the abort counter alone. -/
theorem State.abortRunning_frame (s : State) :
    s.abortRunning = { s with dbuf := s.abortRunning.dbuf, aborts := s.abortRunning.aborts } := by
  unfold State.abortRunning
  split <;> rfl

/-- An abort leaves every byte outside the DST range of the command (70_reset_and_hazards.md R243). -/
theorem State.abortRunning_outside (s : State) {a : Nat}
    (h : a < s.dstRange.1 ∨ s.dstRange.1 + s.dstRange.2 ≤ a) : s.abortRunning.dbuf.read a = s.dbuf.read a := by
  unfold State.abortRunning
  split
  · exact Memory.scramble_outside _ _ _ _ (by omega)
  · rfl

theorem State.abortRunning_wf {s : State} (h : s.dbuf.wf) : s.abortRunning.dbuf.wf := by
  unfold State.abortRunning
  split
  · exact Memory.scramble_wf h _ _ _
  · exact h

theorem State.abortRunning_below {s : State} (h : s.dbuf.Below s.params.dbufSize) :
    s.abortRunning.dbuf.Below s.params.dbufSize := by
  unfold State.abortRunning
  split
  · exact Memory.scramble_below h _ (by omega)
  · exact h

/-- The data buffer after a warm reset. -/
theorem State.warmReset_dbuf (s : State) :
    s.warmReset.dbuf = zeroOpenCells (s.cells.take s.params.nCells) s.abortRunning.dbuf := by
  show zeroOpenCells (s.abortRunning.cells.take s.abortRunning.params.nCells) _ = _
  rw [s.abortRunning_frame]

@[simp] theorem State.warmReset_regs (s : State) : s.warmReset.regs = Regs.zero := rfl
@[simp] theorem State.warmReset_status (s : State) : s.warmReset.status = Status.zero := rfl
@[simp] theorem State.warmReset_latch (s : State) : s.warmReset.latch = Latch.zero := rfl
@[simp] theorem State.warmReset_cc (s : State) : s.warmReset.cc = CcUnit.zero := rfl
@[simp] theorem State.warmReset_sha (s : State) : s.warmReset.sha = ShaUnit.zeroed .idle := rfl

@[simp] theorem State.warmReset_params (s : State) : s.warmReset.params = s.params := by
  show s.abortRunning.params = _
  rw [s.abortRunning_frame]

@[simp] theorem State.warmReset_schedule (s : State) : s.warmReset.schedule = s.schedule := by
  show s.abortRunning.schedule = _
  rw [s.abortRunning_frame]

@[simp] theorem State.warmReset_lastRead (s : State) : s.warmReset.lastRead = s.lastRead := by
  show s.abortRunning.lastRead = _
  rw [s.abortRunning_frame]

@[simp] theorem State.warmReset_bc (s : State) : s.warmReset.bc = BcUnit.zero s.params.blockSize := by
  show BcUnit.zero s.abortRunning.params.blockSize = _
  rw [s.abortRunning_frame]

@[simp] theorem State.warmReset_cells (s : State) :
    s.warmReset.cells = List.replicate s.params.nCells SecCell.zero := by
  show List.replicate s.abortRunning.params.nCells _ = _
  rw [s.abortRunning_frame]

@[simp] theorem State.powerOnReset_regs (s : State) : s.powerOnReset.regs = Regs.zero := rfl
@[simp] theorem State.powerOnReset_status (s : State) : s.powerOnReset.status = Status.zero := rfl
@[simp] theorem State.powerOnReset_latch (s : State) : s.powerOnReset.latch = Latch.zero := rfl
@[simp] theorem State.powerOnReset_cc (s : State) : s.powerOnReset.cc = CcUnit.zero := rfl
@[simp] theorem State.powerOnReset_sha (s : State) : s.powerOnReset.sha = ShaUnit.zeroed .idle := rfl
@[simp] theorem State.powerOnReset_params (s : State) : s.powerOnReset.params = s.params := rfl
@[simp] theorem State.powerOnReset_schedule (s : State) : s.powerOnReset.schedule = s.schedule := rfl
@[simp] theorem State.powerOnReset_lastRead (s : State) : s.powerOnReset.lastRead = s.lastRead := rfl
@[simp] theorem State.powerOnReset_bc (s : State) : s.powerOnReset.bc = BcUnit.zero s.params.blockSize := rfl
@[simp] theorem State.powerOnReset_cells (s : State) :
    s.powerOnReset.cells = List.replicate s.params.nCells SecCell.zero := rfl

/-- A power-on leaves no byte written. -/
@[simp] theorem State.powerOnReset_dbuf (s : State) :
    s.powerOnReset.dbuf = { cells := [], epoch := s.dbuf.epoch + 1 } := rfl

end Sys2Proof.Machine
end

