-- ==== Sys2Proof/Laws/Bus.lean ====
section
/-! SUPPORT. Laws of the host's accesses: where they go and the ways they end. -/

namespace Sys2Proof.Machine

@[simp] theorem Access.moveTo_place {P Q : Type} (a : Access P) (p : Q) : (a.moveTo p).place = p := by cases a <;> rfl
@[simp] theorem Access.moveTo_width {P Q : Type} (a : Access P) (p : Q) : (a.moveTo p).width = a.width := by
  cases a <;> rfl

theorem targetOf_register {size off n : Nat} (ho : off < 0x10000) (hn : n = 4) (ha : off % 4 = 0) :
    targetOf size off n = .register off := by
  rw [targetOf, if_pos ho, if_pos ⟨hn, ha⟩]

theorem targetOf_malformed {size off n : Nat} (ho : off < 0x10000) (h : n ≠ 4 ∨ off % 4 ≠ 0) :
    targetOf size off n = .nowhere := by
  rw [targetOf, if_pos ho, if_neg (by omega)]

theorem targetOf_buffer {size off n : Nat} (ho : 0x10000 ≤ off) (hn : BufferWidth n) (ha : (off - 0x10000) % n = 0)
    (hs : off - 0x10000 + n ≤ size) : targetOf size off n = .buffer (off - 0x10000) := by
  rw [targetOf, if_neg (by omega), if_pos ⟨hn, ha, hs⟩]

theorem targetOf_reserved {size off n : Nat} (ho : 0x10000 ≤ off)
    (h : ¬ BufferWidth n ∨ (off - 0x10000) % n ≠ 0 ∨ size < off - 0x10000 + n) : targetOf size off n = .nowhere := by
  rw [targetOf, if_neg (by omega), if_neg (by rintro ⟨h1, h2, h3⟩; rcases h with h | h | h <;> first | exact h h1 | omega)]

/-- A performed register access is aligned, 32 bits wide and in the register space (20_memory.md R62). -/
theorem targetOf_eq_register {size off n r : Nat} :
    targetOf size off n = .register r ↔ off < 0x10000 ∧ n = 4 ∧ off % 4 = 0 ∧ r = off := by
  unfold targetOf
  split <;> split <;> simp_all [eq_comm]

/-- A performed data-buffer access has one of the widths, is aligned and stays below DBUF_SIZE (20_memory.md R61, R63). -/
theorem targetOf_eq_buffer {size off n a : Nat} :
    targetOf size off n = .buffer a ↔
      0x10000 ≤ off ∧ BufferWidth n ∧ (off - 0x10000) % n = 0 ∧ off - 0x10000 + n ≤ size ∧ a = off - 0x10000 := by
  unfold targetOf
  split <;> split <;> simp_all [eq_comm]

theorem storedBytes_length {n : Nat} (hn : BufferWidth n) (v : Word) : (storedBytes n v).length = n := by
  rcases hn with rfl | rfl | rfl <;> rfl

/-- Byte `i` of what a write stores (20_memory.md R63). -/
theorem storedBytes_getD {n : Nat} (hn : BufferWidth n) (v : Word) {i : Nat} (h : i < n) :
    (storedBytes n v).getD i 0 = v.extractLsb' (8 * i) 8 := by
  rcases hn with rfl | rfl | rfl <;> interval_cases i <;> rfl

/-- A bit of bytes assembled little-endian. -/
theorem getLsbD_leValue (bs : List Byte) (i : Nat) :
    (leValue bs).getLsbD i = (decide (i < 32) && (bs.getD (i / 8) 0).getLsbD (i % 8)) := by
  induction bs generalizing i with
  | nil => simp [leValue]
  | cons b bs ih =>
    rw [leValue, BitVec.getLsbD_or, BitVec.getLsbD_setWidth, BitVec.getLsbD_shiftLeft, ih]
    by_cases h : i < 8
    · simp [h, show i / 8 = 0 by omega, show i % 8 = i by omega]
    · obtain ⟨k, rfl⟩ : ∃ k, i = k + 8 := ⟨i - 8, by omega⟩
      by_cases h32 : k + 8 < 32
      · simp [h32, show k < 32 by omega, show (k + 8) / 8 = k / 8 + 1 by omega]
      · simp [h32]

/-- Byte `i` of bytes assembled little-endian (20_memory.md R63). -/
theorem extract_leValue (bs : List Byte) {i : Nat} (h : i < 4) : (leValue bs).extractLsb' (8 * i) 8 = bs.getD i 0 := by
  apply BitVec.eq_of_getLsbD_eq
  intro j hj
  rw [BitVec.getLsbD_extractLsb', getLsbD_leValue]
  simp [hj, show 8 * i + j < 32 by omega, show (8 * i + j) / 8 = i by omega, show (8 * i + j) % 8 = j by omega]

/-- At most so many bytes assembled little-endian leave the bits above 0 (20_memory.md R63). -/
theorem leValue_lt (bs : List Byte) : (leValue bs).toNat < 2 ^ (8 * bs.length) := by
  induction bs with
  | nil => simp [leValue]
  | cons b bs ih =>
    have hb := b.isLt
    rw [leValue, BitVec.toNat_or, List.length_cons, Nat.mul_succ]
    refine Nat.or_lt_two_pow ?_ ?_
    · rw [BitVec.toNat_setWidth]
      refine Nat.lt_of_le_of_lt (Nat.mod_le _ _) (Nat.lt_of_lt_of_le hb (Nat.pow_le_pow_right (by omega) (by omega)))
    · rw [BitVec.toNat_shiftLeft, Nat.shiftLeft_eq, Nat.pow_add]
      exact Nat.lt_of_le_of_lt (Nat.mod_le _ _) (Nat.mul_lt_mul_of_pos_right ih (by decide))

/-- The ways a host access ends: an answered read, a register write, a data-buffer write with no command running, an
access that is not performed, or HostRace. -/
theorem State.hostAccess_cases (s : State) (a : Access (BitVec 17)) :
    (∃ v, s.hostAccess a = .next (s.setLastRead (some v))) ∨
    (∃ off v, a = .write off 4 v ∧ off.toNat < 0x10000 ∧ off.toNat % 4 = 0 ∧
      s.hostAccess a = .next (s.regWrite off.toNat v)) ∨
    (∃ x bs, s.status.busy = false ∧ x + bs.length ≤ s.params.dbufSize ∧
      s.hostAccess a = .next (s.setDbuf (s.dbuf.writeBytes x bs))) ∨
    s.hostAccess a = .next s ∨
    (s.status.busy = true ∧ 0x10000 ≤ a.place.toNat ∧ s.hostAccess a = .fault .hostRace) := by
  cases a with
  | read off n =>
    simp only [State.hostAccess]
    split
    · exact .inl ⟨_, rfl⟩
    · rename_i h
      split
      · exact .inr (.inr (.inr (.inr ⟨‹_›, (targetOf_eq_buffer.1 h).1, rfl⟩)))
      · exact .inl ⟨_, rfl⟩
    · exact .inl ⟨_, rfl⟩
  | write off n v =>
    simp only [State.hostAccess]
    split
    · rename_i r h
      obtain ⟨h1, h2, h3, rfl⟩ := targetOf_eq_register.1 h
      exact .inr (.inl ⟨off, v, by rw [h2], h1, h3, rfl⟩)
    · rename_i x h
      obtain ⟨h0, hn, -, h1, hx⟩ := targetOf_eq_buffer.1 h
      cases hb : s.status.busy
      · exact .inr (.inr (.inl ⟨x, storedBytes n v, rfl, by rw [storedBytes_length hn, hx]; exact h1, rfl⟩))
      · exact .inr (.inr (.inr (.inr ⟨rfl, h0, rfl⟩)))
    · exact .inr (.inr (.inr (.inl rfl)))

/-- The ways a register write ends: the CTRL and CMD writes, an argument register stored, or nothing. -/
theorem State.regWrite_cases (s : State) (off : Nat) (v : Word) :
    (off = 0x04 ∧ s.regWrite off v = s.writeCtrl v) ∨ (off = 0x0C ∧ s.regWrite off v = s.writeCmd v) ∨
    (∃ r : Regs, r.ie = s.regs.ie ∧ r.result = s.regs.result ∧ s.regWrite off v = s.setRegs r) := by
  unfold State.regWrite
  split
  · exact .inl ⟨rfl, rfl⟩
  · exact .inr (.inl ⟨rfl, rfl⟩)
  · exact .inr (.inr ⟨{ s.regs with src := v }, rfl, rfl, rfl⟩)
  · exact .inr (.inr ⟨{ s.regs with dst := v }, rfl, rfl, rfl⟩)
  · exact .inr (.inr ⟨{ s.regs with len := v }, rfl, rfl, rfl⟩)
  · exact .inr (.inr ⟨{ s.regs with aux := v }, rfl, rfl, rfl⟩)
  · exact .inr (.inr ⟨{ s.regs with auxlen := v }, rfl, rfl, rfl⟩)
  · exact .inr (.inr ⟨s.regs, rfl, rfl, rfl⟩)

/-- A CTRL write without SRST changes IE, OVR and DONE alone (10_state.md R24). -/
theorem State.writeCtrl_of_no_reset {s : State} {v : Word} (h : v.getLsbD 1 = false) :
    s.writeCtrl v = (s.setRegs { s.regs with ie := v.getLsbD 0 }).setStatus
      { s.status with
        ovr := if v.getLsbD 2 then false else s.status.ovr
        done := if v.getLsbD 3 then false else s.status.done } := by
  rw [State.writeCtrl, h]
  rfl

theorem State.writeCtrl_of_reset {s : State} {v : Word} (h : v.getLsbD 1 = true) : s.writeCtrl v = s.warmReset :=
  if_pos h

theorem State.writeCmd_busy {s : State} (h : s.status.busy = true) (w : Word) :
    s.writeCmd w = s.setStatus { s.status with ovr := true } := if_pos h

theorem State.writeCmd_idle {s : State} (h : s.status.busy = false) (w : Word) : s.writeCmd w = s.issue w := by
  rw [State.writeCmd, if_neg (by simp [h])]

/-- A bus address in the window has its distance from the base as offset (20_memory.md R61). -/
theorem windowOffset_eq_some {base addr : Nat} {off : BitVec 17} :
    windowOffset base addr = some off ↔ addr = base + off.toNat := by
  unfold windowOffset
  split
  · rw [Option.some.injEq, ← BitVec.toNat_inj, BitVec.toNat_ofNat]
    omega
  · have := off.isLt
    simp only [reduceCtorEq, false_iff]
    omega

theorem windowOffset_eq_none {base addr : Nat} :
    windowOffset base addr = none ↔ addr < base ∨ base + 0x20000 ≤ addr := by
  unfold windowOffset
  split <;> simp only [reduceCtorEq, false_iff, true_iff] <;> omega

@[simp] theorem windowOffset_add (base : Nat) (off : BitVec 17) : windowOffset base (base + off.toNat) = some off :=
  windowOffset_eq_some.2 rfl

/-- An access on the bus is a host access at its offset, or none of the CCE's (20_memory.md R61). -/
theorem State.busAccess_cases (s : State) (a : Access Nat) :
    (∃ off : BitVec 17, a.place = s.params.cceBase + off.toNat ∧ s.busAccess a = s.hostAccess (a.moveTo off)) ∨
    ((a.place < s.params.cceBase ∨ s.params.cceBase + 0x20000 ≤ a.place) ∧ s.busAccess a = .next s) := by
  unfold State.busAccess
  cases h : windowOffset s.params.cceBase a.place with
  | some off => exact .inl ⟨off, windowOffset_eq_some.1 h, rfl⟩
  | none => exact .inr ⟨windowOffset_eq_none.1 h, rfl⟩

/-- A 4-byte write of a register, on the bus (20_memory.md R61, R62). -/
theorem State.busAccess_write_register (s : State) {r : Nat} (v : Word) (hr : r < 0x10000) (ha : r % 4 = 0) :
    s.busAccess (.write (s.params.cceBase + r) 4 v) = .next (s.regWrite r v) := by
  have ho : (BitVec.ofNat 17 r).toNat = r := by rw [BitVec.toNat_ofNat]; omega
  have hw : windowOffset s.params.cceBase (s.params.cceBase + r) = some (BitVec.ofNat 17 r) :=
    windowOffset_eq_some.2 (by rw [ho])
  simp only [State.busAccess, Access.place, hw, Access.moveTo, State.hostAccess, ho, targetOf_register hr rfl ha]

end Sys2Proof.Machine
end

