-- ==== Sys2Proof/Laws/Exec.lean ====
section
/-! SUPPORT. What each command can do, said once: the two ways it ends, and the part of the state it may write. -/

namespace Sys2Proof.Machine

/-- The state with everything a command may write replaced: RESULT, the units, the cells and the written bytes of the
data buffer. -/
def State.written (s : State) (r : Word) (cc : CcUnit) (sha : ShaUnit) (bc : BcUnit) (cells : List SecCell)
    (m : List Host.Cell) : State :=
  { s with regs := { s.regs with result := r }, cc := cc, sha := sha, bc := bc, cells := cells,
           dbuf := { s.dbuf with cells := m } }

/-- Unchanged components: a state is `written` with its own. -/
theorem State.written_self (s : State) : s = s.written s.regs.result s.cc s.sha s.bc s.cells s.dbuf.cells := rfl

/-- A data buffer of the same power-on is given by its cells. -/
theorem Memory.eq_of_epoch {m m' : Memory} (h : m'.epoch = m.epoch) : m' = { m with cells := m'.cells } := by
  cases m; cases m'; simp_all

/-- How a command ends: with an error and nothing written, or completed with only the writable part changed. -/
def Ends (s : State) (r : Result) : Prop :=
  (∃ e, r = .next (s.failed e)) ∨
  ∃ v cc sha bc cells m, r = .next (s.written v cc sha bc cells m).completed

theorem Ends.raise (s : State) (e : Err) : Ends s (s.raise e) := .inl ⟨e, rfl⟩

theorem Ends.ite {s : State} {p : Prop} [Decidable p] {a b : Result} (ha : p → Ends s a) (hb : ¬p → Ends s b) :
    Ends s (if p then a else b) := by
  split
  · exact ha ‹_›
  · exact hb ‹_›

theorem Ends.complete (s : State) : Ends s s.complete := .inr ⟨_, _, _, _, _, _, rfl⟩

theorem Ends.setCc (s : State) (u : CcUnit) : Ends s (s.setCc u).complete := .inr ⟨_, u, _, _, _, _, rfl⟩

theorem Ends.setSha (s : State) (u : ShaUnit) : Ends s (s.setSha u).complete := .inr ⟨_, _, u, _, _, _, rfl⟩

theorem Ends.setBc (s : State) (u : BcUnit) : Ends s (s.setBc u).complete := .inr ⟨_, _, _, u, _, _, rfl⟩

theorem Ends.setResult (s : State) (v : Word) : Ends s (s.setResult v).complete := .inr ⟨v, _, _, _, _, _, rfl⟩

/-- A completion that replaces the data buffer by one of the same power-on, beside unit state. -/
theorem Ends.setDbuf {s : State} {m : Memory} (h : m.epoch = s.dbuf.epoch) (cc : CcUnit) (sha : ShaUnit) (bc : BcUnit)
    (cells : List SecCell) :
    Ends s { s with cc := cc, sha := sha, bc := bc, cells := cells, dbuf := m }.complete := by
  refine .inr ⟨s.regs.result, cc, sha, bc, cells, m.cells, ?_⟩
  rw [Memory.eq_of_epoch h]
  rfl

/-! The loops of the commands stay in the same power-on. -/

@[simp] theorem combineLoop_epoch (n src dst : Nat) (u : CcUnit) (m : Memory) :
    (combineLoop n src dst u m).2.epoch = m.epoch := by
  induction n generalizing src dst u m with
  | zero => rfl
  | succ n ih => simp [combineLoop, ih]

@[simp] theorem ecbLoop_epoch (f : List Byte → List Byte) (b n src dst : Nat) (m : Memory) :
    (ecbLoop f b n src dst m).epoch = m.epoch := by
  induction n generalizing src dst m with
  | zero => rfl
  | succ n ih => simp [ecbLoop, ih]

@[simp] theorem cbcEncLoop_epoch (f : List Byte → List Byte) (b n src dst : Nat) (p : List Byte) (m : Memory) :
    (cbcEncLoop f b n src dst p m).epoch = m.epoch := by
  induction n generalizing src dst p m with
  | zero => rfl
  | succ n ih => simp [cbcEncLoop, ih]

@[simp] theorem cbcDecLoop_epoch (f : List Byte → List Byte) (b n src dst : Nat) (p : List Byte) (m : Memory) :
    (cbcDecLoop f b n src dst p m).epoch = m.epoch := by
  induction n generalizing src dst p m with
  | zero => rfl
  | succ n ih => simp [cbcDecLoop, ih]

theorem ecbWith_ends (f : List Byte → List Byte) (s : State) : Ends s (ecbWith f s) :=
  .ite (fun _ => .raise _ _) fun _ => .ite (fun _ => .raise _ _) fun _ => .ite (fun _ => .raise _ _) fun _ =>
    Ends.setDbuf (by simp) s.cc s.sha s.bc s.cells

theorem cbcWith_ends {loop : Nat → Nat → Nat → Nat → List Byte → Memory → Memory}
    (h : ∀ b n src dst p m, (loop b n src dst p m).epoch = m.epoch) (s : State) : Ends s (cbcWith loop s) :=
  .ite (fun _ => .raise _ _) fun _ => .ite (fun _ => .raise _ _) fun _ => .ite (fun _ => .raise _ _) fun _ =>
    .ite (fun _ => .raise _ _) fun _ => Ends.setDbuf (h ..) s.cc s.sha _ s.cells

/-- Every command ends: with an error and nothing written, or completed with only the writable part changed. -/
theorem exec_ends (i : Instr) (s : State) : Ends s (exec i s) := by
  cases i with
  | nop => exact .complete s
  | ccInit => exact .ite (fun _ => .raise _ _) fun _ => .ite (fun _ => .raise _ _) fun _ => .setCc _ _
  | ccCombine =>
    exact .ite (fun _ => .raise _ _) fun _ => .ite (fun _ => .raise _ _) fun _ =>
      Ends.setDbuf (combineLoop_epoch ..) _ s.sha s.bc s.cells
  | ccDestroy => exact .setCc _ _
  | sha1Create => exact .setSha _ _
  | sha1Update => exact .ite (fun _ => .raise _ _) fun _ => .ite (fun _ => .raise _ _) fun _ => .setSha _ _
  | sha1Digest =>
    exact .ite (fun _ => .raise _ _) fun _ => .ite (fun _ => .raise _ _) fun _ =>
      Ends.setDbuf (by simp) s.cc _ s.bc s.cells
  | sha1Destroy => exact .setSha _ _
  | bcSetKey => exact .ite (fun _ => .raise _ _) fun _ => .ite (fun _ => .raise _ _) fun _ => .setBc _ _
  | bcClear => exact .setBc _ _
  | ecbEnc => exact ecbWith_ends _ s
  | ecbDec => exact ecbWith_ends _ s
  | cbcEnc => exact cbcWith_ends (fun _ _ _ _ _ _ => cbcEncLoop_epoch ..) s
  | cbcDec => exact cbcWith_ends (fun _ _ _ _ _ _ => cbcDecLoop_epoch ..) s
  | ctEq => exact .ite (fun _ => .raise _ _) fun _ => .ite (fun _ => .setResult _ _) fun _ => .setResult _ _
  | ctEqb => exact .ite (fun _ => .raise _ _) fun _ => .setResult _ _
  | cellOpen =>
    refine .ite (fun _ => .raise _ _) fun _ => .ite (fun _ => .raise _ _) fun _ => ?_
    split
    · exact .raise _ _
    · exact .inr ⟨_, _, _, _, _, _, rfl⟩
  | cellClose =>
    show Ends s (match s.openCell s.argSrc with | none => _ | some c => _)
    split
    · exact .raise _ _
    · exact Ends.setDbuf (by simp) s.cc s.sha s.bc _
  | zeroize => exact .ite (fun _ => .raise _ _) fun _ => Ends.setDbuf (by simp) s.cc s.sha s.bc s.cells
  | unimplHash2 k => exact .raise _ _
  | unimplRsa k => exact .raise _ _
  | unimplOther w => exact .raise _ _

end Sys2Proof.Machine
end

