-- ==== Sys2Proof/Laws/Commands.lean ====
section
/-! SUPPORT. One equation per command and outcome: the state a command leaves when no check fails, and the error it
raises when a check fails after those before it passed. -/

namespace Sys2Proof.Machine

theorem execCcInit_length {s : State} (h : s.argAuxlen ≠ 32 ∨ s.argLen ≠ 8) :
    execCcInit s = .next (s.failed .invalidLength) := if_pos h

theorem execCcInit_range {s : State} (hk : s.argAuxlen = 32) (hn : s.argLen = 8)
    (h : ¬ s.InRange s.argAux 32 ∨ ¬ s.InRange s.argSrc 8) : execCcInit s = .next (s.failed .addressRange) := by
  rw [execCcInit, if_neg (by omega), if_pos h]
  rfl

theorem execCcInit_ok {s : State} (hk : s.argAuxlen = 32) (hn : s.argLen = 8) (h1 : s.InRange s.argAux 32)
    (h2 : s.InRange s.argSrc 8) :
    execCcInit s = .next (s.setCc { CcUnit.advance
      { s.cc with s := chachaInit (s.dbuf.readBytes s.argAux 32) (s.dbuf.readBytes s.argSrc 8) } with
      keyed := true }).completed := by
  rw [execCcInit, if_neg (by omega), if_neg (by tauto)]
  rfl

theorem execCcCombine_misuse {s : State} (h : s.cc.keyed = false) :
    execCcCombine s = .next (s.failed .misusedEngine) := if_pos h

theorem execCcCombine_range {s : State} (hk : s.cc.keyed = true)
    (h : ¬ s.InRange s.argSrc s.argLen ∨ ¬ s.InRange s.argDst s.argLen) :
    execCcCombine s = .next (s.failed .addressRange) := by
  rw [execCcCombine, if_neg (by simp [hk]), if_pos h]
  rfl

theorem execCcCombine_ok {s : State} (hk : s.cc.keyed = true) (h1 : s.InRange s.argSrc s.argLen)
    (h2 : s.InRange s.argDst s.argLen) :
    execCcCombine s = .next ((s.setCc (combineLoop s.argLen s.argSrc s.argDst s.cc s.dbuf).1).setDbuf
      (combineLoop s.argLen s.argSrc s.argDst s.cc s.dbuf).2).completed := by
  rw [execCcCombine, if_neg (by simp [hk]), if_neg (by tauto)]
  rfl

theorem execSha1Update_misuse {s : State} (h : s.sha.st ≠ .active) :
    execSha1Update s = .next (s.failed .misusedEngine) := if_pos h

theorem execSha1Update_range {s : State} (hs : s.sha.st = .active) (h : ¬ s.InRange s.argSrc s.argLen) :
    execSha1Update s = .next (s.failed .addressRange) := by
  rw [execSha1Update, if_neg (by simp [hs]), if_pos h]
  rfl

theorem execSha1Update_ok {s : State} (hs : s.sha.st = .active) (h : s.InRange s.argSrc s.argLen) :
    execSha1Update s = .next (s.setSha (s.sha.absorb (s.dbuf.readBytes s.argSrc s.argLen))).completed := by
  rw [execSha1Update, if_neg (by simp [hs]), if_neg (by tauto)]
  rfl

theorem execSha1Digest_misuse {s : State} (h : s.sha.st ≠ .active) :
    execSha1Digest s = .next (s.failed .misusedEngine) := if_pos h

theorem execSha1Digest_range {s : State} (hs : s.sha.st = .active) (h : ¬ s.InRange s.argDst 20) :
    execSha1Digest s = .next (s.failed .addressRange) := by
  rw [execSha1Digest, if_neg (by simp [hs]), if_pos h]
  rfl

theorem execSha1Digest_ok {s : State} (hs : s.sha.st = .active) (h : s.InRange s.argDst 20) :
    execSha1Digest s = .next ((s.setDbuf (s.dbuf.writeBytes s.argDst s.sha.finalize)).setSha
      (ShaUnit.zeroed .finalized)).completed := by
  rw [execSha1Digest, if_neg (by simp [hs]), if_neg (by tauto)]
  rfl

theorem execBcSetKey_length {s : State} (h : keySizeOk s.params s.argAuxlen = false) :
    execBcSetKey s = .next (s.failed .invalidLength) := if_pos h

theorem execBcSetKey_range {s : State} (hk : keySizeOk s.params s.argAuxlen = true)
    (h : ¬ s.InRange s.argAux s.argAuxlen) : execBcSetKey s = .next (s.failed .addressRange) := by
  rw [execBcSetKey, if_neg (by simp [hk]), if_pos h]
  rfl

theorem execBcSetKey_ok {s : State} (hk : keySizeOk s.params s.argAuxlen = true) (h : s.InRange s.argAux s.argAuxlen) :
    execBcSetKey s =
      .next (s.setBc (s.bc.withKey (s.dbuf.readBytes s.argAux s.argAuxlen) s.argAuxlen)).completed := by
  rw [execBcSetKey, if_neg (by simp [hk]), if_neg (by tauto)]
  rfl

theorem ecbWith_misuse {f : List Byte → List Byte} {s : State} (h : s.bc.keyed = false) :
    ecbWith f s = .next (s.failed .misusedEngine) := if_pos h

theorem ecbWith_length {f : List Byte → List Byte} {s : State} (hk : s.bc.keyed = true)
    (h : s.argLen % s.params.blockSize ≠ 0) : ecbWith f s = .next (s.failed .invalidLength) := by
  rw [ecbWith, if_neg (by simp [hk]), if_pos h]
  rfl

theorem ecbWith_range {f : List Byte → List Byte} {s : State} (hk : s.bc.keyed = true)
    (hl : s.argLen % s.params.blockSize = 0) (h : ¬ s.InRange s.argSrc s.argLen ∨ ¬ s.InRange s.argDst s.argLen) :
    ecbWith f s = .next (s.failed .addressRange) := by
  rw [ecbWith, if_neg (by simp [hk]), if_neg (by simp [hl]), if_pos h]
  rfl

theorem ecbWith_ok {f : List Byte → List Byte} {s : State} (hk : s.bc.keyed = true)
    (hl : s.argLen % s.params.blockSize = 0) (h1 : s.InRange s.argSrc s.argLen) (h2 : s.InRange s.argDst s.argLen) :
    ecbWith f s = .next (s.setDbuf
      (ecbLoop f s.params.blockSize (s.argLen / s.params.blockSize) s.argSrc s.argDst s.dbuf)).completed := by
  rw [ecbWith, if_neg (by simp [hk]), if_neg (by simp [hl]), if_neg (by tauto)]
  rfl

/-- An ECB command that ends without error passed its checks. -/
theorem ecbWith_inv {f : List Byte → List Byte} {s t : State} (h : ecbWith f s = .next t) (he : t.status.err = false) :
    s.bc.keyed = true ∧ s.argLen % s.params.blockSize = 0 ∧ s.InRange s.argSrc s.argLen ∧ s.InRange s.argDst s.argLen := by
  by_cases h1 : s.bc.keyed = false
  · rw [ecbWith_misuse h1] at h
    cases h
    cases he
  rw [Bool.not_eq_false] at h1
  by_cases h2 : s.argLen % s.params.blockSize = 0
  · by_cases h3 : s.InRange s.argSrc s.argLen ∧ s.InRange s.argDst s.argLen
    · exact ⟨h1, h2, h3⟩
    · rw [ecbWith_range h1 h2 (by tauto)] at h
      cases h
      cases he
  · rw [ecbWith_length h1 h2] at h
    cases h
    cases he

section
variable {loop : Nat → Nat → Nat → Nat → List Byte → Memory → Memory}

theorem cbcWith_misuse {s : State} (h : s.bc.keyed = false) : cbcWith loop s = .next (s.failed .misusedEngine) :=
  if_pos h

theorem cbcWith_iv {s : State} (hk : s.bc.keyed = true) (h : s.argAuxlen ≠ s.params.blockSize) :
    cbcWith loop s = .next (s.failed .invalidIv) := by
  rw [cbcWith, if_neg (by simp [hk]), if_pos h]
  rfl

theorem cbcWith_length {s : State} (hk : s.bc.keyed = true) (hi : s.argAuxlen = s.params.blockSize)
    (h : s.argLen % s.params.blockSize ≠ 0) : cbcWith loop s = .next (s.failed .invalidLength) := by
  rw [cbcWith, if_neg (by simp [hk]), if_neg (by simp [hi]), if_pos h]
  rfl

theorem cbcWith_range {s : State} (hk : s.bc.keyed = true) (hi : s.argAuxlen = s.params.blockSize)
    (hl : s.argLen % s.params.blockSize = 0)
    (h : ¬ s.InRange s.argAux s.params.blockSize ∨ ¬ s.InRange s.argSrc s.argLen ∨ ¬ s.InRange s.argDst s.argLen) :
    cbcWith loop s = .next (s.failed .addressRange) := by
  rw [cbcWith, if_neg (by simp [hk]), if_neg (by simp [hi]), if_neg (by simp [hl]), if_pos h]
  rfl

theorem cbcWith_ok {s : State} (hk : s.bc.keyed = true) (hi : s.argAuxlen = s.params.blockSize)
    (hl : s.argLen % s.params.blockSize = 0) (h0 : s.InRange s.argAux s.params.blockSize)
    (h1 : s.InRange s.argSrc s.argLen) (h2 : s.InRange s.argDst s.argLen) :
    cbcWith loop s = .next ((s.setDbuf (loop s.params.blockSize (s.argLen / s.params.blockSize) s.argSrc s.argDst
      (s.dbuf.readBytes s.argAux s.params.blockSize) s.dbuf)).setBc
      { s.bc with prev := List.replicate s.params.blockSize 0 }).completed := by
  rw [cbcWith, if_neg (by simp [hk]), if_neg (by simp [hi]), if_neg (by simp [hl]), if_neg (by tauto)]
  rfl

/-- A CBC command that ends without error passed its checks. -/
theorem cbcWith_inv {s t : State} (h : cbcWith loop s = .next t) (he : t.status.err = false) :
    s.bc.keyed = true ∧ s.argAuxlen = s.params.blockSize ∧ s.argLen % s.params.blockSize = 0 ∧
    s.InRange s.argAux s.params.blockSize ∧ s.InRange s.argSrc s.argLen ∧ s.InRange s.argDst s.argLen := by
  by_cases h1 : s.bc.keyed = false
  · rw [cbcWith_misuse h1] at h
    cases h
    cases he
  rw [Bool.not_eq_false] at h1
  by_cases hi : s.argAuxlen = s.params.blockSize
  · by_cases h2 : s.argLen % s.params.blockSize = 0
    · by_cases h3 : s.InRange s.argAux s.params.blockSize ∧ s.InRange s.argSrc s.argLen ∧ s.InRange s.argDst s.argLen
      · exact ⟨h1, hi, h2, h3⟩
      · rw [cbcWith_range h1 hi h2 (by tauto)] at h
        cases h
        cases he
    · rw [cbcWith_length h1 hi h2] at h
      cases h
      cases he
  · rw [cbcWith_iv h1 hi] at h
    cases h
    cases he

end

theorem execCtEq_range {s : State} (h : ¬ s.InRange s.argSrc s.argLen ∨ ¬ s.InRange s.argAux s.argAuxlen) :
    execCtEq s = .next (s.failed .addressRange) := if_pos h

theorem execCtEq_lengths {s : State} (h1 : s.InRange s.argSrc s.argLen) (h2 : s.InRange s.argAux s.argAuxlen)
    (h : s.argLen ≠ s.argAuxlen) : execCtEq s = .next (s.setResult 0).completed := by
  rw [execCtEq, if_neg (by tauto), if_pos h]
  rfl

theorem execCtEq_ok {s : State} (h1 : s.InRange s.argSrc s.argLen) (h2 : s.InRange s.argAux s.argAuxlen)
    (h : s.argLen = s.argAuxlen) :
    execCtEq s = .next (s.setResult
      ((ctEqByte s.eqPass.1 0).setWidth 32)).completed := by
  rw [execCtEq, if_neg (by tauto), if_neg (by simpa using h)]
  rfl

theorem execCtEqb_range {s : State} (h : ¬ s.InRange s.argSrc 1 ∨ ¬ s.InRange s.argAux 1) :
    execCtEqb s = .next (s.failed .addressRange) := if_pos h

theorem execCtEqb_ok {s : State} (h1 : s.InRange s.argSrc 1) (h2 : s.InRange s.argAux 1) :
    execCtEqb s = .next (s.setResult
      ((ctEqByte (s.dbuf.read s.argSrc) (s.dbuf.read s.argAux)).setWidth 32)).completed := by
  rw [execCtEqb, if_neg (by tauto)]
  rfl

theorem execCellOpen_length {s : State} (h : s.argAuxlen = 0) : execCellOpen s = .next (s.failed .invalidLength) :=
  if_pos h

theorem execCellOpen_range {s : State} (hl : s.argAuxlen ≠ 0) (h : ¬ s.InRange s.argAux s.argAuxlen) :
    execCellOpen s = .next (s.failed .addressRange) := by
  rw [execCellOpen, if_neg hl, if_pos h]
  rfl

theorem execCellOpen_full {s : State} (hl : s.argAuxlen ≠ 0) (hr : s.InRange s.argAux s.argAuxlen)
    (h : freeCell s.params.nCells s.cells = none) : execCellOpen s = .next (s.failed .cellUnavailable) := by
  rw [execCellOpen, if_neg hl, if_neg (by tauto), h]
  rfl

theorem execCellOpen_ok {s : State} {i : Nat} (hl : s.argAuxlen ≠ 0) (hr : s.InRange s.argAux s.argAuxlen)
    (h : freeCell s.params.nCells s.cells = some i) :
    execCellOpen s = .next ((s.setCells (s.cells.set i
      { isOpen := true, base := s.latch.aux, len := s.latch.auxlen })).setResult (BitVec.ofNat 32 i)).completed := by
  rw [execCellOpen, if_neg hl, if_neg (by tauto), h]
  rfl

theorem execCellClose_misuse {s : State} (h : s.openCell s.argSrc = none) :
    execCellClose s = .next (s.failed .misusedEngine) := by
  rw [execCellClose, h]
  rfl

theorem execCellClose_ok {s : State} {c : SecCell} (h : s.openCell s.argSrc = some c) :
    execCellClose s = .next ((s.setDbuf (s.dbuf.zeroBytes c.base.toNat c.len.toNat)).setCells
      (s.cells.set s.argSrc SecCell.zero)).completed := by
  rw [execCellClose, h]
  rfl

theorem execZeroize_range {s : State} (h : ¬ s.InRange s.argDst s.argLen) :
    execZeroize s = .next (s.failed .addressRange) := if_pos h

theorem execZeroize_ok {s : State} (h : s.InRange s.argDst s.argLen) :
    execZeroize s = .next (s.setDbuf (s.dbuf.zeroBytes s.argDst s.argLen)).completed := by
  rw [execZeroize, if_neg (by tauto)]
  rfl

end Sys2Proof.Machine
end

