-- ==== Sys2Proof/Laws/Cells.lean ====
section
/-! SUPPORT. Laws of the ZW unit: which cell CELL_OPEN takes and which cell an index names. -/

namespace Sys2Proof.Machine

/-- No cell is free just when every cell below NCELLS is open. -/
theorem freeCell_none {n : Nat} {cs : List SecCell} :
    freeCell n cs = none ↔ ∀ c ∈ cs.take n, c.isOpen = true := by
  induction n generalizing cs with
  | zero => simp [freeCell]
  | succ n ih =>
    cases cs with
    | nil => simp [freeCell]
    | cons c cs => by_cases h : c.isOpen = true <;> simp [freeCell, h, ih]

/-- The free cell is the lowest closed one (44_secure_memory.md R181). -/
theorem freeCell_some {n i : Nat} {cs : List SecCell} (h : freeCell n cs = some i) :
    i < n ∧ (∃ c, cs[i]? = some c ∧ c.isOpen = false) ∧ ∀ j < i, ∃ c, cs[j]? = some c ∧ c.isOpen = true := by
  induction n generalizing cs i with
  | zero => simp [freeCell] at h
  | succ n ih =>
    cases cs with
    | nil => simp [freeCell] at h
    | cons c cs =>
      by_cases hc : c.isOpen = true
      · simp only [freeCell, hc, if_true, Option.map_eq_some_iff] at h
        obtain ⟨k, hk, rfl⟩ := h
        obtain ⟨h1, h2, h3⟩ := ih hk
        refine ⟨by omega, by simpa using h2, fun j hj => ?_⟩
        cases j with
        | zero => exact ⟨c, by simp, hc⟩
        | succ j => simpa using h3 j (by omega)
      · simp only [freeCell, hc] at h
        obtain rfl : 0 = i := by simpa using h
        exact ⟨by omega, ⟨c, by simp, by simpa using hc⟩, fun j hj => absurd hj (by omega)⟩

/-- The cell an index names. -/
theorem State.openCell_eq_some {s : State} {i : Nat} {c : SecCell} :
    s.openCell i = some c ↔ i < s.params.nCells ∧ s.cells[i]? = some c ∧ c.isOpen = true := by
  unfold State.openCell
  by_cases hi : i < s.params.nCells
  · rw [if_pos hi]
    cases hc : s.cells[i]? with
    | none => simp
    | some d =>
      by_cases ho : d.isOpen = true
      · simp only [ho, if_true, Option.some.injEq, hi, true_and]
        exact ⟨fun h => ⟨h, h ▸ ho⟩, fun h => h.1⟩
      · simp only [ho, hi, true_and, Option.some.injEq]
        simp only [Bool.false_eq_true, if_false, reduceCtorEq, false_iff, not_and]
        rintro rfl h
        exact ho h
  · simp [hi]

theorem State.openCell_eq_none {s : State} {i : Nat} :
    s.openCell i = none ↔ ∀ c, i < s.params.nCells → s.cells[i]? = some c → c.isOpen = false := by
  constructor
  · intro h c h1 h2
    by_contra h3
    rw [Bool.not_eq_false] at h3
    rw [State.openCell_eq_some.2 ⟨h1, h2, h3⟩] at h
    cases h
  · intro h
    cases hc : s.openCell i with
    | none => rfl
    | some c =>
      obtain ⟨h1, h2, h3⟩ := State.openCell_eq_some.1 hc
      rw [h c h1 h2] at h3
      cases h3

end Sys2Proof.Machine
end

