-- ==== Sys2Proof/Laws/Chacha.lean ====
section
/-! SUPPORT. Laws of the CC unit: the 64-bit counter, the unit after any number of consumed bytes, and the loop of
CC_COMBINE. -/

namespace Sys2Proof.Machine

/-! The counter of a ChaCha20 state. -/

theorem withCounter_getElem (v : Vector Word 16) (c : BitVec 64) (i : Nat) (h : i < 16) :
    (withCounter v c)[i] = if i = 13 then c.extractLsb' 32 32 else if i = 12 then c.extractLsb' 0 32 else v[i] := by
  simp only [withCounter, Vector.getElem_set, eq_comm]

@[simp] theorem counterOf_withCounter (v : Vector Word 16) (c : BitVec 64) : counterOf (withCounter v c) = c := by
  simp only [counterOf, withCounter_getElem]
  apply BitVec.eq_of_getLsbD_eq
  intro i hi
  simp only [BitVec.getLsbD_append, BitVec.getLsbD_extractLsb', if_true, if_neg (show ¬(12 : Nat) = 13 by decide)]
  by_cases h : i < 32
  · simp [h]
  · simp [h, show i - 32 < 32 by omega, show 32 + (i - 32) = i by omega]

@[simp] theorem withCounter_withCounter (v : Vector Word 16) (c d : BitVec 64) :
    withCounter (withCounter v c) d = withCounter v d := by
  apply Vector.ext
  intro i hi
  simp only [withCounter_getElem]
  split <;> simp_all

theorem getLsbD_counterOf (v : Vector Word 16) (i : Nat) :
    (counterOf v).getLsbD i = if i < 32 then v[12].getLsbD i else v[13].getLsbD (i - 32) :=
  BitVec.getLsbD_append (x := v[13]) (y := v[12]) (i := i)

theorem extract_counterOf (v : Vector Word 16) :
    (counterOf v).extractLsb' 0 32 = v[12] ∧ (counterOf v).extractLsb' 32 32 = v[13] := by
  constructor <;>
  · apply BitVec.eq_of_getLsbD_eq
    intro i hi
    simp [getLsbD_counterOf, hi]

@[simp] theorem withCounter_counterOf (v : Vector Word 16) : withCounter v (counterOf v) = v := by
  apply Vector.ext
  intro i hi
  rw [withCounter_getElem, (extract_counterOf v).1, (extract_counterOf v).2]
  split
  · simp_all
  · split <;> simp_all

/-- The increment of an Advance adds 1 to the 64-bit counter and touches no other word (41_chacha20.md R121, R125). -/
theorem bumpCounter_eq (v : Vector Word 16) : bumpCounter v = withCounter v (counterOf v + 1) := by
  have hlo := v[12].isLt
  have hhi := v[13].isLt
  have hc : (counterOf v).toNat = v[13].toNat * 2 ^ 32 + v[12].toNat := by
    simp only [counterOf, BitVec.toNat_append, Nat.shiftLeft_eq]
    rw [Nat.mul_comm, Nat.two_pow_add_eq_or_of_lt hlo]
  have h1 : (counterOf v + 1).extractLsb' 0 32 = v[12] + 1 := by
    apply BitVec.eq_of_toNat_eq
    simp only [BitVec.extractLsb'_toNat, Nat.shiftRight_eq_div_pow, BitVec.toNat_add, hc, BitVec.ofNat_eq_ofNat,
      BitVec.toNat_ofNat]
    omega
  have h2 : (counterOf v + 1).extractLsb' 32 32 = if v[12] + 1 = 0 then v[13] + 1 else v[13] := by
    apply BitVec.eq_of_toNat_eq
    have key : (v[12] + 1 = 0) ↔ v[12].toNat = 2 ^ 32 - 1 := by
      rw [← BitVec.toNat_inj]
      simp only [BitVec.toNat_add, BitVec.ofNat_eq_ofNat, BitVec.toNat_ofNat]
      omega
    by_cases hz : v[12] + 1 = 0
    · rw [if_pos hz]
      rw [key] at hz
      simp only [BitVec.extractLsb'_toNat, Nat.shiftRight_eq_div_pow, BitVec.toNat_add, hc, BitVec.ofNat_eq_ofNat,
      BitVec.toNat_ofNat]
      omega
    · rw [if_neg hz]
      rw [key] at hz
      simp only [BitVec.extractLsb'_toNat, Nat.shiftRight_eq_div_pow, BitVec.toNat_add, hc, BitVec.ofNat_eq_ofNat,
      BitVec.toNat_ofNat]
      omega
  apply Vector.ext
  intro i hi
  rw [withCounter_getElem, h1, h2, bumpCounter]
  by_cases hz : v[12] + 1 = 0
  · simp only [hz, if_true, Vector.getElem_set, eq_comm]
  · simp only [hz, if_false, Vector.getElem_set]
    by_cases h13 : i = 13
    · subst h13
      simp
    · simp only [h13, if_false, eq_comm]

/-! The unit after consumed bytes. -/

/-- The unit `n` consumed bytes later. -/
def CcUnit.consumed (u : CcUnit) : Nat → CcUnit
  | 0 => u
  | n + 1 => u.consume.consumed n

theorem CcUnit.consumed_succ (u : CcUnit) (n : Nat) : u.consumed (n + 1) = (u.consumed n).consume := by
  induction n generalizing u with
  | zero => rfl
  | succ n ih => exact ih u.consume

theorem CcUnit.consumed_add (u : CcUnit) (n k : Nat) : u.consumed (n + k) = (u.consumed n).consumed k := by
  induction n generalizing u with
  | zero => simp [CcUnit.consumed]
  | succ n ih =>
    rw [Nat.succ_add]
    exact ih u.consume

/-- The unit after `n` consumed bytes, in closed form: the cursor and the counter count the bytes, and the block is the
old one until the cursor first wraps and afterwards that of the counter before the current one. -/
theorem CcUnit.consumed_spec (u : CcUnit) (n : Nat) :
    (u.consumed n).keyed = u.keyed ∧ (u.consumed n).cur.toNat = (u.cur.toNat + n) % 64 ∧
    (u.consumed n).s = withCounter u.s (counterOf u.s + BitVec.ofNat 64 ((u.cur.toNat + n) / 64)) ∧
    (u.consumed n).ks = if u.cur.toNat + n < 64 then u.ks
      else keystreamBlock (withCounter u.s (counterOf u.s + BitVec.ofNat 64 ((u.cur.toNat + n) / 64 - 1))) := by
  have hcur := u.cur.isLt
  induction n with
  | zero =>
    have h0 : u.cur.toNat / 64 = 0 := by omega
    have h1 : u.cur.toNat % 64 = u.cur.toNat := by omega
    have h2 : u.cur.toNat < 64 := hcur
    simp [CcUnit.consumed, h0, h1, h2]
  | succ n ih =>
    obtain ⟨hk, hc, hs, hb⟩ := ih
    rw [CcUnit.consumed_succ]
    by_cases hw : (u.consumed n).cur.toNat + 1 = 64
    · have hdiv : (u.cur.toNat + (n + 1)) / 64 = (u.cur.toNat + n) / 64 + 1 := by omega
      rw [CcUnit.consume, if_pos hw]
      refine ⟨hk, ?_, ?_, ?_⟩
      · show 0 = _
        omega
      · show bumpCounter _ = _
        rw [bumpCounter_eq, hs, counterOf_withCounter, withCounter_withCounter, hdiv]
        congr 1
        rw [BitVec.ofNat_add, ← BitVec.add_assoc]
        rfl
      · show keystreamBlock _ = _
        rw [hs, if_neg (by omega), hdiv, Nat.add_sub_cancel]
    · have hdiv : (u.cur.toNat + (n + 1)) / 64 = (u.cur.toNat + n) / 64 := by omega
      rw [CcUnit.consume, if_neg hw]
      refine ⟨hk, ?_, ?_, ?_⟩
      · show ((u.consumed n).cur + 1).toNat = _
        simp only [BitVec.toNat_add, hc, BitVec.ofNat_eq_ofNat,
      BitVec.toNat_ofNat]
        omega
      · rw [hdiv]
        exact hs
      · rw [hdiv]
        have : (u.cur.toNat + (n + 1) < 64) ↔ (u.cur.toNat + n < 64) := by omega
        simp only [this]
        exact hb

/-! The loop of CC_COMBINE. -/

theorem combineLoop_unit (n src dst : Nat) (u : CcUnit) (m : Memory) :
    (combineLoop n src dst u m).1 = u.consumed n := by
  induction n generalizing src dst u m with
  | zero => rfl
  | succ n ih => exact ih ..

/-- The loop over `n + k` bytes is the loop over `n` and then over `k` (41_chacha20.md R123: byte by byte). -/
theorem combineLoop_add (n k src dst : Nat) (u : CcUnit) (m : Memory) :
    combineLoop (n + k) src dst u m =
      combineLoop k (src + n) (dst + n) (combineLoop n src dst u m).1 (combineLoop n src dst u m).2 := by
  induction n generalizing src dst u m with
  | zero => simp [combineLoop]
  | succ n ih =>
    rw [Nat.succ_add]
    simp only [combineLoop, ih]
    congr 1 <;> omega

/-- The last byte of the loop. -/
theorem combineLoop_succ (n src dst : Nat) (u : CcUnit) (m : Memory) :
    (combineLoop (n + 1) src dst u m).2 =
      ((combineLoop n src dst u m).2).write (dst + n)
        (((combineLoop n src dst u m).2).read (src + n) ^^^ (u.consumed n).keyByte) := by
  rw [combineLoop_add, combineLoop_unit]
  rfl

theorem combineLoop_outside (n src dst : Nat) (u : CcUnit) (m : Memory) {a : Nat} (h : a < dst ∨ dst + n ≤ a) :
    ((combineLoop n src dst u m).2).read a = m.read a := by
  induction n with
  | zero => rfl
  | succ n ih =>
    rw [combineLoop_succ, Memory.read_write_other _ _ (by omega)]
    exact ih (by omega)

/-- An output byte once written stays: byte `i` of a longer loop is byte `i` of a shorter one. -/
theorem combineLoop_stable (n k src dst : Nat) (u : CcUnit) (m : Memory) {a : Nat} (h : a < dst + n) :
    ((combineLoop (n + k) src dst u m).2).read a = ((combineLoop n src dst u m).2).read a := by
  rw [combineLoop_add]
  exact combineLoop_outside _ _ _ _ _ (.inl h)

/-- Every output byte: the input byte as it stands when the loop reaches it, XORed with the keystream byte of its
position. -/
theorem combineLoop_byte {n i : Nat} (src dst : Nat) (u : CcUnit) (m : Memory) (h : i < n) :
    ((combineLoop n src dst u m).2).read (dst + i) =
      ((combineLoop i src dst u m).2).read (src + i) ^^^ (u.consumed i).keyByte := by
  obtain ⟨k, rfl⟩ : ∃ k, n = (i + 1) + k := ⟨n - (i + 1), by omega⟩
  rw [combineLoop_stable _ _ _ _ _ _ (by omega), combineLoop_succ, Memory.read_write_same]

theorem combineLoop_wf (n src dst : Nat) (u : CcUnit) {m : Memory} (h : m.wf) : (combineLoop n src dst u m).2.wf := by
  induction n generalizing src dst u m with
  | zero => exact h
  | succ n ih => exact ih _ _ _ (Memory.write_wf h _ _)

theorem combineLoop_below (n src dst : Nat) (u : CcUnit) {m : Memory} {k : Nat} (h : m.Below k)
    (hd : n = 0 ∨ dst + n ≤ k) : ((combineLoop n src dst u m).2).Below k := by
  induction n generalizing src dst u m with
  | zero => exact h
  | succ n ih => exact ih _ _ _ (Memory.write_below h (by omega) _) (.inr (by omega))

end Sys2Proof.Machine
end

