-- ==== Sys2Proof/Laws/CtEq.lean ====
section
/-! SUPPORT. Laws of the EQ unit: what its accumulator comes to. -/

namespace Sys2Proof.Machine

/-- The fold compares the two bytes through their XOR alone. -/
theorem ctEqByte_xor (x y : Byte) : ctEqByte x y = ctEqByte (x ^^^ y) 0 := by simp [ctEqByte]

/-- The accumulator is 0 just when it was 0 and every pair of bytes is equal (43_ct_equality.md R171). -/
theorem eqScan_eq_zero (m : Memory) (n a b : Nat) (acc : Byte) (reads : List Nat) :
    (eqScan m n a b acc reads).1 = 0 ↔ acc = 0 ∧ ∀ i < n, m.read (a + i) = m.read (b + i) := by
  induction n generalizing a b acc reads with
  | zero => simp [eqScan]
  | succ n ih =>
    have hor : ∀ p q : Byte, p ||| q = 0 ↔ p = 0 ∧ q = 0 := fun p q => BitVec.or_eq_zero_iff
    have hxor : ∀ p q : Byte, p ^^^ q = 0 ↔ p = q := fun p q => BitVec.xor_eq_zero_iff
    rw [eqScan, ih, hor, hxor, and_assoc]
    refine and_congr_right fun _ => ⟨fun ⟨h0, h⟩ i hi => ?_, fun h => ⟨h 0 (by omega), fun i hi => ?_⟩⟩
    · cases i with
      | zero => exact h0
      | succ i => simpa [Nat.add_assoc, Nat.add_comm 1 i] using h i (by omega)
    · simpa [Nat.add_assoc, Nat.add_comm 1 i] using h (i + 1) (by omega)

/-- The addresses read are those of every pair, whatever the memory holds (43_ct_equality.md R172). -/
theorem eqScan_reads (m : Memory) (n a b : Nat) (acc : Byte) (reads : List Nat) :
    (eqScan m n a b acc reads).2 = reads ++ (List.range n).flatMap fun i => [a + i, b + i] := by
  induction n generalizing a b acc reads with
  | zero => simp [eqScan]
  | succ n ih =>
    simp [eqScan, ih, List.range_succ_eq_map, List.flatMap_map, Nat.add_assoc, Nat.add_comm 1, Nat.succ_eq_add_one]

end Sys2Proof.Machine
end

