-- ==== Sys2Proof/Laws/Flags.lean ====
section
/-! SUPPORT. Laws of the STATUS word: each of its bits. -/

namespace Sys2Proof.Machine

@[simp] theorem getLsbD_bitWord (b : Bool) (i : Nat) : (bitWord b).getLsbD i = (decide (i = 0) && b) := by
  cases b <;> simp [bitWord, BitVec.getLsbD_one]

/-- Bit `i` of CELLS_OPEN (10_state.md R34). -/
theorem getLsbD_cellsOpenField (n : Nat) (cs : List SecCell) (i : Nat) :
    (cellsOpenField n cs).getLsbD i =
      (decide (i < 8) && decide (i < n) && (cs[i]?.map SecCell.isOpen).getD false) := by
  induction cs generalizing n i with
  | nil => simp [cellsOpenField]
  | cons c cs ih =>
    cases n with
    | zero => simp [cellsOpenField]
    | succ n =>
      have hb : ∀ b : Bool, ((BitVec.ofBool b).setWidth 8).getLsbD i = (decide (i = 0) && b) := by
        intro b
        cases b <;> simp [BitVec.getLsbD_one]
      rw [cellsOpenField, BitVec.getLsbD_or, BitVec.getLsbD_shiftLeft, ih, hb]
      cases i with
      | zero => simp
      | succ i =>
        by_cases h : i + 1 < 8
        · simp [h, show i < 8 by omega]
        · simp [h]

/-- Bit `i` of STATUS (10_state.md R25). -/
theorem State.getLsbD_statusWord (s : State) (i : Nat) :
    s.statusWord.getLsbD i =
      (decide (i < 32) &&
        ((decide (i = 0) && s.status.busy) || (decide (i = 1) && s.status.done) || (decide (i = 2) && s.status.err) ||
         (decide (i = 3) && s.status.ovr) || (decide (4 ≤ i) && s.status.errCode.getLsbD (i - 4)) ||
         (decide (i = 8) && s.cc.keyed) || (decide (9 ≤ i) && s.sha.st.code.getLsbD (i - 9)) ||
         (decide (i = 11) && s.bc.keyed) ||
         (decide (16 ≤ i) && (cellsOpenField s.params.nCells s.cells).getLsbD (i - 16)))) := by
  by_cases h : i < 32
  · simp only [State.statusWord, BitVec.getLsbD_or, BitVec.getLsbD_shiftLeft, BitVec.getLsbD_setWidth, getLsbD_bitWord,
      h, decide_true, Bool.true_and]
    interval_cases i <;> simp
  · simp [h, BitVec.getLsbD_of_ge _ i (Nat.le_of_not_lt h)]

end Sys2Proof.Machine
end

