-- ==== Sys2Proof/Laws/PerInstr.lean ====
section
/-! SUPPORT. Per-instruction families: a fact about every command as syntax, one lemma for each constructor. -/

/-- The word of a command of an assigned row or of a stub range has RSV = 0 (30_encoding.md R80, R83, R87). -/
def Sys2Proof.Laws.RsvZero.Statement (i : Sys2Proof.Instr) : Prop :=
  (∀ w, i ≠ .unimplOther w) → Sys2Proof.rsvField (Sys2Proof.encode i) = 0

namespace Sys2Proof.Laws.RsvZero

open Sys2Proof

theorem nop : Statement .nop := fun _ => rfl

theorem ccInit : Statement .ccInit := fun _ => rfl

theorem ccCombine : Statement .ccCombine := fun _ => rfl

theorem ccDestroy : Statement .ccDestroy := fun _ => rfl

theorem sha1Create : Statement .sha1Create := fun _ => rfl

theorem sha1Update : Statement .sha1Update := fun _ => rfl

theorem sha1Digest : Statement .sha1Digest := fun _ => rfl

theorem sha1Destroy : Statement .sha1Destroy := fun _ => rfl

theorem bcSetKey : Statement .bcSetKey := fun _ => rfl

theorem bcClear : Statement .bcClear := fun _ => rfl

theorem ecbEnc : Statement .ecbEnc := fun _ => rfl

theorem ecbDec : Statement .ecbDec := fun _ => rfl

theorem cbcEnc : Statement .cbcEnc := fun _ => rfl

theorem cbcDec : Statement .cbcDec := fun _ => rfl

theorem ctEq : Statement .ctEq := fun _ => rfl

theorem ctEqb : Statement .ctEqb := fun _ => rfl

theorem cellOpen : Statement .cellOpen := fun _ => rfl

theorem cellClose : Statement .cellClose := fun _ => rfl

theorem zeroize : Statement .zeroize := fun _ => rfl

theorem unimplHash2 (k : BitVec 3) : Statement (.unimplHash2 k) := fun _ => by
  have h : ∀ k : BitVec 3, rsvField (0x18 ||| k.setWidth 32) = 0 := by decide
  exact h k

theorem unimplRsa (k : BitVec 4) : Statement (.unimplRsa k) := fun _ => by
  have h : ∀ k : BitVec 4, rsvField (0x50 ||| k.setWidth 32) = 0 := by decide
  exact h k

theorem unimplOther (w : Word) : Statement (.unimplOther w) := fun h => absurd rfl (h w)

end Sys2Proof.Laws.RsvZero
end

