-- ==== Sys2Proof/Laws/Sha1.lean ====
section
/-! SUPPORT. Laws of the SHA unit: which message a unit holds, what absorbing bytes adds to it, and what finalizing
compresses. -/

namespace Sys2Proof.Machine

/-! The hash over blocks. -/

theorem hashBlocks_append (n : Nat) (h : Vector Word 5) (a b : List Byte) (hl : 64 * n ≤ a.length) :
    hashBlocks n h (a ++ b) = hashBlocks n h a := by
  induction n generalizing h a with
  | zero => rfl
  | succ n ih =>
    simp only [hashBlocks]
    rw [List.take_append_of_le_length (by omega), List.drop_append_of_le_length (by omega)]
    exact ih _ _ (by simp; omega)

/-- One more block is compressed after the others. -/
theorem hashBlocks_succ (n : Nat) (h : Vector Word 5) (m : List Byte) :
    hashBlocks (n + 1) h m = compress (hashBlocks n h m) ((m.drop (64 * n)).take 64) := by
  induction n generalizing h m with
  | zero => rfl
  | succ n ih =>
    rw [hashBlocks, ih, hashBlocks, List.drop_drop]
    congr 3
    omega

/-! The pending-data buffer. -/

theorem bufStore_getElem (buf : Vector Byte 64) (k : Nat) (bs : List Byte) (i : Nat) (h : i < 64) :
    (bufStore buf k bs)[i] = if k ≤ i ∧ i < k + bs.length then bs.getD (i - k) 0 else buf[i] := by
  induction bs generalizing buf k with
  | nil => simp [bufStore]
  | cons b bs ih =>
    rw [bufStore, ih, List.length_cons, Vector.getElem_setIfInBounds]
    by_cases hk : k = i
    · subst hk
      rw [if_neg (by omega), if_pos rfl, if_pos (by omega), Nat.sub_self]
      rfl
    · rw [if_neg hk]
      by_cases h1 : k + 1 ≤ i ∧ i < k + 1 + bs.length
      · rw [if_pos h1, if_pos (by omega)]
        obtain ⟨j, hj⟩ : ∃ j, i - k = j + 1 := ⟨i - k - 1, by omega⟩
        rw [hj, List.getD_cons_succ]
        congr 1
        omega
      · rw [if_neg h1, if_neg (by omega)]

/-- The unit holds the message `m` on top of the hash `h0`: whole blocks are in the running hash, the rest is buffered. -/
structure ShaUnit.Holds (u : ShaUnit) (h0 : Vector Word 5) (m : List Byte) : Prop where
  hash : u.h = hashBlocks (m.length / 64) h0 m
  cur : u.curlen.toNat = m.length % 64
  tail : ∀ i (h : i < 64), i < m.length % 64 → u.buf[i] = m.getD (64 * (m.length / 64) + i) 0

/-- A block read out of the buffer, given byte by byte. -/
theorem toList_eq_of_getD {buf : Vector Byte 64} {l : List Byte} (hl : l.length = 64)
    (h : ∀ i (hi : i < 64), buf[i] = l.getD i 0) : buf.toList = l := by
  apply List.ext_getElem
  · simp [hl]
  · intro i h1 h2
    have hi : i < 64 := by omega
    rw [Vector.getElem_toList, h i hi, List.getD_eq_getElem _ _ h2]

/-- The loop of Absorb adds its bytes to the message held (42_sha1.md R142). -/
theorem absorbLoop_holds (fuel : Nat) (bs : List Byte) (u : ShaUnit) (h0 : Vector Word 5) (m : List Byte)
    (hf : bs.length ≤ fuel) (hu : u.Holds h0 m) : (absorbLoop fuel bs u).Holds h0 (m ++ bs) := by
  induction fuel generalizing bs u m with
  | zero =>
    have : bs = [] := List.eq_nil_of_length_eq_zero (by omega)
    subst this
    simpa [absorbLoop] using hu
  | succ fuel ih =>
    rw [absorbLoop]
    have hcur := hu.cur
    by_cases hb : bs.length = 0
    · have : bs = [] := List.eq_nil_of_length_eq_zero hb
      subst this
      simpa using hu
    rw [if_neg hb]
    by_cases hfull : u.curlen = 0 ∧ 64 ≤ bs.length
    · rw [if_pos hfull]
      have hz : m.length % 64 = 0 := by rw [← hcur, hfull.1]; rfl
      have step := ih (bs.drop 64) { u with h := compress u.h (bs.take 64) } (m ++ bs.take 64) (by simp; omega) ?_
      · rwa [List.append_assoc, List.take_append_drop] at step
      have hlen : (m ++ bs.take 64).length = m.length + 64 := by simp; omega
      have hdiv : (m ++ bs.take 64).length / 64 = m.length / 64 + 1 := by omega
      refine ⟨?_, by rw [hlen]; show u.curlen.toNat = _; omega, fun i h hi => by omega⟩
      rw [hdiv, hashBlocks_succ, hashBlocks_append _ _ _ _ (by omega), ← hu.hash,
        show 64 * (m.length / 64) = m.length by omega, List.drop_left, List.take_take]
      rfl
    · rw [if_neg hfull]
      have hc64 : u.curlen.toNat < 64 := u.curlen.isLt
      set n := min (64 - u.curlen.toNat) bs.length with hn
      have hn0 : 0 < n := by omega
      have hnb : n ≤ bs.length := Nat.min_le_right _ _
      have hnc : n ≤ 64 - u.curlen.toNat := Nat.min_le_left _ _
      have htake : (bs.take n).length = n := by simp; omega
      have hlen : (m ++ bs.take n).length = m.length + n := by simp; omega
      have hbuf : ∀ i (h : i < 64), i < m.length % 64 + n →
          (bufStore u.buf u.curlen.toNat (bs.take n))[i] = (m ++ bs.take n).getD (64 * (m.length / 64) + i) 0 := by
        intro i h hi
        rw [bufStore_getElem _ _ _ _ h, htake]
        by_cases hlt : i < m.length % 64
        · rw [if_neg (by omega), hu.tail i h hlt, List.getD_append _ _ _ _ (by omega)]
        · rw [if_pos (by omega), List.getD_append_right _ _ _ _ (by omega)]
          congr 1
          omega
      dsimp only
      by_cases hw : u.curlen.toNat + n = 64
      · rw [if_pos hw]
        have step := ih (bs.drop n) { u with
          buf := bufStore u.buf u.curlen.toNat (bs.take n),
          h := compress u.h (bufStore u.buf u.curlen.toNat (bs.take n)).toList, curlen := 0 } (m ++ bs.take n)
          (by simp; omega) ?_
        · rwa [List.append_assoc, List.take_append_drop] at step
        have hdiv : (m ++ bs.take n).length / 64 = m.length / 64 + 1 := by omega
        refine ⟨?_, by rw [hlen]; show 0 = _; omega, fun i h hi => by omega⟩
        rw [hdiv, hashBlocks_succ, hashBlocks_append _ _ _ _ (by omega), ← hu.hash]
        show compress u.h _ = _
        congr 1
        apply toList_eq_of_getD
        · simp; omega
        · intro i hi
          rw [hbuf i hi (by omega), List.getD_eq_getElem _ _ (by omega), List.getD_eq_getElem _ _ (by simp; omega)]
          simp
      · rw [if_neg hw]
        have step := ih (bs.drop n) { u with
          buf := bufStore u.buf u.curlen.toNat (bs.take n),
          curlen := BitVec.ofNat 6 (u.curlen.toNat + n) } (m ++ bs.take n) (by simp; omega) ?_
        · rwa [List.append_assoc, List.take_append_drop] at step
        have hdiv : (m ++ bs.take n).length / 64 = m.length / 64 := by omega
        have hmod : (m ++ bs.take n).length % 64 = m.length % 64 + n := by omega
        refine ⟨?_, ?_, fun i h hi => ?_⟩
        · rw [hdiv, hashBlocks_append _ _ _ _ (by omega)]
          exact hu.hash
        · rw [hmod]
          show (BitVec.ofNat 6 (u.curlen.toNat + n)).toNat = _
          rw [BitVec.toNat_ofNat]
          omega
        · rw [hdiv]
          exact hbuf i h (by omega)

/-- The loop of Absorb keeps the lifecycle state and the bit length. -/
theorem absorbLoop_frame (fuel : Nat) (bs : List Byte) (u : ShaUnit) :
    (absorbLoop fuel bs u).st = u.st ∧ (absorbLoop fuel bs u).bitlen = u.bitlen := by
  induction fuel generalizing bs u with
  | zero => exact ⟨rfl, rfl⟩
  | succ fuel ih =>
    rw [absorbLoop]
    split
    · exact ⟨rfl, rfl⟩
    · split
      · exact ih ..
      · dsimp only
        split <;> exact ih ..

@[simp] theorem ShaUnit.absorb_st (u : ShaUnit) (bs : List Byte) : (u.absorb bs).st = u.st :=
  (absorbLoop_frame _ _ _).1

theorem ShaUnit.absorb_bitlen (u : ShaUnit) (bs : List Byte) :
    (u.absorb bs).bitlen = u.bitlen + BitVec.ofNat 64 (8 * bs.length) := rfl

/-- Absorbing adds the bytes to the message held. -/
theorem ShaUnit.absorb_holds {u : ShaUnit} {h0 : Vector Word 5} {m : List Byte} (hu : u.Holds h0 m) (bs : List Byte) :
    (u.absorb bs).Holds h0 (m ++ bs) :=
  have h := absorbLoop_holds bs.length bs u h0 m (Nat.le_refl _) hu
  ⟨h.hash, h.cur, h.tail⟩

/-- Every unit holds as many zero-hash bytes as it buffers: its own buffer's. -/
theorem ShaUnit.holds_buffer (u : ShaUnit) : u.Holds u.h (u.buf.toList.take u.curlen.toNat) := by
  have hc : u.curlen.toNat < 64 := u.curlen.isLt
  have hl : (u.buf.toList.take u.curlen.toNat).length = u.curlen.toNat := by simp; omega
  refine ⟨?_, by omega, fun i h hi => ?_⟩
  · rw [hl, show u.curlen.toNat / 64 = 0 by omega]
    rfl
  · rw [hl, show u.curlen.toNat / 64 = 0 by omega, Nat.mul_zero, Nat.zero_add,
      List.getD_eq_getElem _ _ (by omega)]
    simp

/-- The number of buffered bytes after an absorption. -/
theorem ShaUnit.absorb_curlen (u : ShaUnit) (bs : List Byte) :
    (u.absorb bs).curlen.toNat = (u.curlen.toNat + bs.length) % 64 := by
  have hc : u.curlen.toNat < 64 := u.curlen.isLt
  rw [(u.absorb_holds u.holds_buffer bs).cur]
  congr 1
  simp
  omega

@[simp] theorem ShaUnit.absorb_nil (u : ShaUnit) : u.absorb [] = u := by
  simp [ShaUnit.absorb, absorbLoop]

@[simp] theorem digestBytes_length (h : Vector Word 5) : (digestBytes h).length = 20 := by
  simp [digestBytes, be32bytes, List.length_flatMap]

@[simp] theorem ShaUnit.finalize_length (u : ShaUnit) : u.finalize.length = 20 := digestBytes_length _

/-- Byte `j` of a padded message: the message, then 0x80, then zeros, then the length bytes. -/
theorem padded_getD {m p l : List Byte} {z : Nat} (hp : p = m ++ [0x80] ++ List.replicate z 0 ++ l) (j : Nat) :
    p.getD j 0 = if j < m.length then m.getD j 0 else if j = m.length then 0x80
      else if j < m.length + 1 + z then 0 else l.getD (j - (m.length + 1 + z)) 0 := by
  subst hp
  split
  · rw [List.append_assoc, List.append_assoc, List.getD_append _ _ _ _ ‹_›]
  · rw [List.append_assoc, List.append_assoc, List.getD_append_right _ _ _ _ (by omega)]
    split
    · subst_vars
      simp
    · rw [List.getD_append_right _ _ _ _ (by simp; omega)]
      split
      · rw [List.getD_append _ _ _ _ (by simp; omega), List.getD_replicate]
        simp
        omega
      · rw [List.getD_append_right _ _ _ _ (by simp; omega)]
        congr 1
        simp
        omega

theorem getD_block (p : List Byte) (n : Nat) {i : Nat} (hi : i < 64) :
    ((p.drop n).take 64).getD i 0 = p.getD (n + i) 0 := by
  simp only [List.getD_eq_getElem?_getD, List.getElem?_take, List.getElem?_drop, if_pos hi]

/-- Finalizing a unit that holds `m` compresses, after the whole blocks of `m`, the rest of `m` with its padding: 0x80,
zeros up to 56 modulo 64, and the unit's bit length (42_sha1.md R143). -/
theorem ShaUnit.finalHash_holds {u : ShaUnit} {h0 : Vector Word 5} {m : List Byte} (hu : u.Holds h0 m) (p : List Byte)
    (hp : p = m ++ [0x80] ++ List.replicate ((119 - m.length % 64) % 64) 0 ++ be64bytes u.bitlen) :
    u.finalHash = hashBlocks (p.length / 64) h0 p := by
  have hlen : p.length = m.length + 1 + (119 - m.length % 64) % 64 + 8 := by
    rw [hp]
    simp only [List.length_append, List.length_replicate, be64bytes_length, List.length_singleton]
  have hprefix : hashBlocks (m.length / 64) h0 p = u.h := by
    rw [hp, List.append_assoc, List.append_assoc, hashBlocks_append _ _ _ _ (by omega), hu.hash]
  have hpd := padded_getD hp
  obtain ⟨-, hcur, htail⟩ := hu
  generalize hL : be64bytes u.bitlen = l at *
  have hl : l.length = 8 := by rw [← hL]; rfl
  have hmod : m.length % 64 < 64 := Nat.mod_lt _ (by omega)
  clear hp
  unfold ShaUnit.finalHash
  simp only [hcur, hL]
  by_cases hc : m.length % 64 + 1 > 56
  · have h1 : (bufStore (u.buf.setIfInBounds (m.length % 64) 0x80) (m.length % 64 + 1)
        (List.replicate (64 - (m.length % 64 + 1)) 0)).toList = (p.drop (64 * (m.length / 64))).take 64 := by
      apply toList_eq_of_getD
      · simp only [List.length_take, List.length_drop]
        omega
      · intro i hi
        rw [getD_block _ _ hi, hpd, bufStore_getElem _ _ _ _ hi, List.length_replicate, Vector.getElem_setIfInBounds]
        by_cases h1 : i < m.length % 64
        · rw [if_neg (by omega), if_neg (by omega), if_pos (by omega), htail i hi h1]
        · by_cases h2 : m.length % 64 = i
          · rw [if_neg (by omega), if_pos h2, if_neg (by omega), if_pos (by omega)]
          · rw [if_pos (by omega), if_neg (by omega), if_neg (by omega), if_pos (by omega), List.getD_replicate]
            omega
    have h2 : (bufStore (Vector.replicate 64 0) 56 l).toList = (p.drop (64 * (m.length / 64 + 1))).take 64 := by
      apply toList_eq_of_getD
      · simp only [List.length_take, List.length_drop]
        omega
      · intro i hi
        rw [getD_block _ _ hi, hpd, if_neg (by omega), if_neg (by omega), bufStore_getElem _ _ _ _ hi, hl]
        by_cases h1 : i < 56
        · rw [if_neg (by omega), if_pos (by omega), Vector.getElem_replicate]
        · rw [if_pos (by omega), if_neg (by omega)]
          congr 1
          omega
    rw [if_pos hc, h1, h2, show p.length / 64 = m.length / 64 + 1 + 1 by omega, hashBlocks_succ, hashBlocks_succ,
      hprefix]
  · have h1 : (bufStore (bufStore (u.buf.setIfInBounds (m.length % 64) 0x80) (m.length % 64 + 1)
        (List.replicate (56 - (m.length % 64 + 1)) 0)) 56 l).toList = (p.drop (64 * (m.length / 64))).take 64 := by
      apply toList_eq_of_getD
      · simp only [List.length_take, List.length_drop]
        omega
      · intro i hi
        rw [getD_block _ _ hi, hpd, bufStore_getElem _ _ _ _ hi, hl, bufStore_getElem _ _ _ _ hi,
          List.length_replicate, Vector.getElem_setIfInBounds]
        by_cases h1 : i < m.length % 64
        · rw [if_neg (by omega), if_neg (by omega), if_neg (by omega), if_pos (by omega), htail i hi h1]
        · by_cases h2 : m.length % 64 = i
          · rw [if_neg (by omega), if_neg (by omega), if_pos h2, if_neg (by omega), if_pos (by omega)]
          · by_cases h3 : i < 56
            · rw [if_neg (by omega), if_pos (by omega), if_neg (by omega), if_neg (by omega), if_pos (by omega),
                List.getD_replicate]
              omega
            · rw [if_pos (by omega), if_neg (by omega), if_neg (by omega), if_neg (by omega)]
              congr 1
              omega
    rw [if_neg hc, h1, show p.length / 64 = m.length / 64 + 1 by omega, hashBlocks_succ, hprefix]

end Sys2Proof.Machine
end

