-- ==== Sys2Proof/Laws/Step.lean ====
section
/-! SUPPORT. Laws of a step: the ways it ends, and the memory right after reset. -/

namespace Sys2Proof.Machine

/-- The data buffer right after reset is in canonical form. -/
theorem State.reset_dbuf_wf : State.reset.dbuf.wf := List.Pairwise.nil

/-- The engine's turn: a running command ends, or nothing happens (60_exceptions.md R230). -/
theorem State.engineTurn_cases (s : State) :
    (s.status.busy = true ∧ s.engineTurn = exec s.latched s) ∨ (s.status.busy = false ∧ s.engineTurn = .next s) := by
  unfold State.engineTurn
  cases s.status.busy
  · exact .inr ⟨rfl, rfl⟩
  · exact .inl ⟨rfl, rfl⟩

/-- What a step that answers a next state did, for the state `u` with the turn taken off the schedule: it ran the latched
command, found the engine idle, performed a host access, left an access that is none of the CCE's, or reset the machine. -/
theorem step_cases {s t : State} (h : step s = .next t) :
    ∃ u : State, u = s.setSchedule u.schedule ∧
      ((u.status.busy = true ∧ exec u.latched u = .next t) ∨ (u.status.busy = false ∧ t = u) ∨
       (∃ a, u.hostAccess a = .next t) ∨ t = u ∨ t = u.warmReset ∨ t = u.powerOnReset) := by
  have engine : ∀ u : State, u = s.setSchedule u.schedule → u.engineTurn = .next t →
      ∃ u : State, u = s.setSchedule u.schedule ∧
        ((u.status.busy = true ∧ exec u.latched u = .next t) ∨ (u.status.busy = false ∧ t = u) ∨
         (∃ a, u.hostAccess a = .next t) ∨ t = u ∨ t = u.warmReset ∨ t = u.powerOnReset) := by
    intro u hu he
    rcases u.engineTurn_cases with ⟨hb, h⟩ | ⟨hb, h⟩
    · exact ⟨u, hu, .inl ⟨hb, h ▸ he⟩⟩
    · rw [h] at he
      exact ⟨u, hu, .inr (.inl ⟨hb, (Host.Outcome.next.inj he).symm⟩)⟩
  unfold step at h
  split at h
  · exact engine s rfl h
  · rename_i x rest _
    cases x with
    | engine => exact engine _ rfl h
    | host a =>
      rcases (s.setSchedule rest).busAccess_cases a with ⟨off, -, e⟩ | ⟨-, e⟩
      · exact ⟨s.setSchedule rest, rfl, .inr (.inr (.inl ⟨a.moveTo off, e.symm.trans h⟩))⟩
      · exact ⟨s.setSchedule rest, rfl, .inr (.inr (.inr (.inl (Host.Outcome.next.inj (e.symm.trans h)).symm)))⟩
    | warmReset => exact ⟨_, rfl, .inr (.inr (.inr (.inr (.inl (Host.Outcome.next.inj h).symm))))⟩
    | powerOn => exact ⟨_, rfl, .inr (.inr (.inr (.inr (.inr (Host.Outcome.next.inj h).symm))))⟩

/-- A run of one more step goes on from that step's next state, on any machine. -/
theorem run_succ_of_next (M : Host.Core) {s t : M.State} (k : Nat) (h : M.step s = .next t) :
    M.run (k + 1) s = M.run k t := by rw [Host.Core.run, h]

/-- A run of one more step goes on from that step's next state. -/
theorem run_succ {s t : State} (k : Nat) (h : step s = .next t) :
    Sys2Proof.core.run (k + 1) s = Sys2Proof.core.run k t := run_succ_of_next Sys2Proof.core k h

end Sys2Proof.Machine
end

