-- ==== Sys2Proof/Tests/Slice0.lean ====
section
/-! SUPPORT. The model's own tests: the refusals of WellFormed, words of the opcode map, worked examples of
95_test_vectors.md (each named beside its test), and for every statement with hypotheses a state that meets them. -/

namespace Sys2Proof.Tests

open Sys2Proof Sys2Proof.Machine Sys2Proof.Claims

set_option Elab.async false

/-! ## Helpers -/

/-- The next state of a result that has one. -/
def out : Result → State
  | .next t => t
  | .fault _ | .refused _ => State.reset

/-- A state with a latch holding given arguments. -/
def args (s : State) (src dst len aux auxlen : Word) : State :=
  s.setLatch { s.latch with src := src, dst := dst, len := len, aux := aux, auxlen := auxlen }

/-- A state with bytes in the data buffer. -/
def bytes (s : State) (a : Nat) (bs : List Byte) : State := s.setDbuf (s.dbuf.writeBytes a bs)

/-- The bytes `0, 1, …, n - 1`. -/
def rising (n : Nat) : List Byte := (List.range n).map (BitVec.ofNat 8)

/-- The big-endian bytes of a number, as the vectors write hex. -/
def hex (n v : Nat) : List Byte := ((List.range n).map fun i => BitVec.ofNat 8 (v / 256 ^ i)).reverse

/-- The engine's next state for a command. -/
def after (i : Instr) (s : State) : State := out (exec i s)

/-- Every command answers that next state. -/
theorem exec_eq_after (i : Instr) (s : State) : exec i s = .next (after i s) := by
  obtain ⟨e, h⟩ | ⟨v, cc, sha, bc, cells, m, h⟩ := exec_ends i s <;> simp [after, out, h]

/-- A BUSY machine whose latch holds a command. -/
def busyWith (s : State) (i : Instr) : State :=
  (s.setLatch { s.latch with op := opField (encode i), rsv := rsvField (encode i) }).setStatus
    { s.status with busy := true, done := false, err := false, errCode := 0 }

/-! ## WellFormed refuses the words of other rows -/

theorem test_wf_refuses_assigned : ∀ w ∈ assignedWords, (Instr.unimplOther (BitVec.ofNat 32 w)).wf = false := by
  decide

theorem test_wf_refuses_hash2 :
    (Instr.unimplOther 0x18).wf = false ∧ (Instr.unimplOther 0x1F).wf = false ∧ (Instr.unimplOther 0x17).wf = true := by
  decide

theorem test_wf_refuses_rsa :
    (Instr.unimplOther 0x50).wf = false ∧ (Instr.unimplOther 0x5F).wf = false ∧ (Instr.unimplOther 0x60).wf = true := by
  decide

/-! ## Decoding: words written out from 30_encoding.md R83, R86, R87 -/

theorem test_decode_system : decode 0x00000000 = .nop := by decide

theorem test_decode_chacha :
    decode 0x00000001 = .ccInit ∧ decode 0x00000002 = .ccCombine ∧ decode 0x00000003 = .ccDestroy := by decide

theorem test_decode_sha1 :
    decode 0x00000010 = .sha1Create ∧ decode 0x00000011 = .sha1Update ∧ decode 0x00000012 = .sha1Digest ∧
    decode 0x00000013 = .sha1Destroy := by decide

theorem test_decode_block_modes :
    decode 0x00000020 = .bcSetKey ∧ decode 0x00000021 = .bcClear ∧ decode 0x00000022 = .ecbEnc ∧
    decode 0x00000023 = .ecbDec ∧ decode 0x00000024 = .cbcEnc ∧ decode 0x00000025 = .cbcDec := by decide

theorem test_decode_equality : decode 0x00000030 = .ctEq ∧ decode 0x00000031 = .ctEqb := by decide

theorem test_decode_secure_memory :
    decode 0x00000040 = .cellOpen ∧ decode 0x00000041 = .cellClose ∧ decode 0x00000042 = .zeroize := by decide

theorem test_decode_unimplemented :
    decode 0x0000001A = .unimplHash2 2 ∧ decode 0x00000057 = .unimplRsa 7 ∧
    decode 0x00000026 = .unimplOther 0x26 ∧ decode 0x00000100 = .unimplOther 0x100 ∧
    decode 0x80000001 = .unimplOther 0x80000001 := by decide

theorem test_decode_bytes_in_bus_order :
    decodeBytes [0x31, 0, 0, 0, 0xAA] = .ok (.ctEqb, [0xAA]) ∧ decodeBytes [0x31, 0, 0] = .error .truncated := by
  decide

theorem test_decode_table_word :
    decodeTableWord 32 0x41 = some .cellClose ∧ decodeTableWord 8 0x41 = some .cellClose ∧
    decodeTableWord 64 0x41 = none := by decide

/-! ## ChaCha20 -/

/-- V-QR-1, V-QR-3, V-QR-4. -/
theorem test_quarter_round :
    quarterWords 0x11111111 0x01020304 0x9b8d6f43 0x01234567 = (0xea2a92f4, 0xcb1cf8ce, 0x4581472e, 0x5881c4bb) ∧
    quarterWords 1 0 0 0 = (0x10000001, 0x80808808, 0x01010110, 0x01000110) ∧
    quarterWords 0xffffffff 0xffffffff 0xffffffff 0xffffffff = (0xf0000ffd, 0x88790878, 0x0110fdef, 0x010ffdf0) := by
  decide +kernel

/-- V-CC-1's setup: key 00 x 31 then 01 at 0, nonce 0 at 0x20, zeros at 0x40. -/
def chachaSetup : State := bytes (bytes State.reset 0 (hex 40 (2 ^ 64))) 0x40 (List.replicate 65 0)

/-- The machine after V-CC-1's CC_INIT. -/
def keyedCc : State := after .ccInit (args chachaSetup 0x20 0 8 0 32)

/-- V-CC-1: the keystream after CC_INIT, and STATUS. -/
theorem test_cc_init :
    keyedCc.cc.ks.toList =
      hex 64 0x4540f05a9f1fb296d7736e7b208e3c96eb4fe1834688d2604f450952ed432d41bbe2a0b6ea7566d2a5d1e7e20d42af2c53d792b1c43fea817e9ad275ae546963 ∧
    keyedCc.statusWord = 0x102 ∧ keyedCc.cc.s[11] = 0x01000000 ∧ keyedCc.cc.s[12] = 1 := by decide +kernel

/-- V-CC-10: lengths and ranges of CC_INIT. -/
theorem test_cc_init_errors :
    (after .ccInit (args State.reset 0x20 0 8 0 16)).statusWord = 0x16 ∧
    (after .ccInit (args State.reset 0x20 0 12 0 32)).statusWord = 0x16 ∧
    (after .ccInit (args State.reset 0x20 0 8 4065 32)).statusWord = 0x56 := by decide +kernel

/-- V-CC-8: overlap; step 64 reads the byte that step 0 wrote. -/
theorem test_cc_combine_overlap :
    (after .ccCombine (args keyedCc 0x40 0x80 65 0 0)).dbuf.read 0x80 = 0x45 ∧
    (after .ccCombine (args keyedCc 0x40 0x80 65 0 0)).dbuf.read 0xC0 = 0x7f := by decide +kernel

/-- V-CC-3: the byte after a block, and the state at the end. -/
theorem test_cc_combine_crosses_block :
    (after .ccCombine (args keyedCc 0x40 0x100 65 0 0)).dbuf.read 0x140 = 0x3a ∧
    (after .ccCombine (args keyedCc 0x40 0x100 65 0 0)).cc.s[12] = 2 ∧
    (after .ccCombine (args keyedCc 0x40 0x100 65 0 0)).cc.cur = 1 := by decide +kernel

/-- V-CC-5: the counter's carry and its wrap. -/
theorem test_counter_carry :
    let s := chachaInit [] []
    (bumpCounter (s.set 12 0xffffffff))[12] = 0 ∧ (bumpCounter (s.set 12 0xffffffff))[13] = 1 ∧
    (bumpCounter ((s.set 12 0xffffffff).set 13 0xffffffff))[13] = 0 ∧
    (keystreamBlock (s.set 12 0xffffffff)).toList.take 4 = hex 4 0xace4cd09 := by decide +kernel

/-- V-CC-10: CC_DESTROY. -/
theorem test_cc_destroy :
    (after .ccDestroy keyedCc).cc = CcUnit.zero ∧ (after .ccDestroy keyedCc).statusWord = 2 := by decide +kernel

/-! ## SHA-1 -/

/-- A machine right after SHA1_CREATE. -/
def active : State := after .sha1Create State.reset

/-- "abc" absorbed. -/
def abc : State := after .sha1Update (args (bytes active 0 [0x61, 0x62, 0x63]) 0 0 3 0 0)

/-- V-SHA-6: SHA1_CREATE. -/
theorem test_sha1_create : active.statusWord = 0x202 ∧ active.sha.curlen = 0 := by decide +kernel

/-- V-SHA-3, V-SHA-6: the buffered bytes and their count; the range. -/
theorem test_sha1_update :
    abc.sha.curlen = 3 ∧ abc.sha.bitlen = 24 ∧ abc.statusWord = 0x202 ∧
    (after .sha1Update (args active 4090 0 7 0 0)).statusWord = 0x256 := by decide +kernel

/-- V-SHA-4: the running hash after 64 bytes of 0x41. -/
theorem test_sha1_update_block :
    (after .sha1Update (args (bytes active 0 (List.replicate 64 0x41)) 0 0 64 0 0)).sha.h =
      #v[0x902cbf65, 0xc5f85ee1, 0x1f5186e0, 0x36509311, 0x81f8c8b4] := by decide +kernel

/-- V-SHA-3: "abc". -/
theorem test_sha1_digest :
    (after .sha1Digest (args abc 0 0x40 0 0 0)).dbuf.readBytes 0x40 20 =
      hex 20 0xa9993e364706816aba3e25717850c26c9cd0d89d ∧
    (after .sha1Digest (args abc 0 0x40 0 0 0)).statusWord = 0x402 := by decide +kernel

/-- V-SHA-3: 56 bytes, the padding that needs a second block. -/
theorem test_sha1_digest_two_blocks :
    (after .sha1Update (args (bytes active 0 (List.replicate 56 0x41)) 0 0 56 0 0)).sha.finalize =
      hex 20 0x6b45e3cf1eb3324b9fd4df3b83d89c4c2c4ca896 := by decide +kernel

/-- V-SHA-6: SHA1_DESTROY. -/
theorem test_sha1_destroy :
    (after .sha1Destroy abc).sha = ShaUnit.zeroed .idle ∧ (after .sha1Destroy abc).statusWord = 2 := by decide +kernel

/-! ## ECB and CBC, with the spec's test cipher MOCK4 and B = 4 -/

/-- MOCK4 (40_block_modes.md, example cipher). -/
def mock4 : CipherPort :=
  { encByte := fun k x i => x.getD ((i + 1) % 4) 0 ^^^ k.getD i 0
    decByte := fun k y j => y.getD ((j + 3) % 4) 0 ^^^ k.getD ((j + 3) % 4) 0 }

/-- The setup of 95_test_vectors.md section 2.3, before the key is loaded. -/
def bcSetup : State :=
  bytes (bytes (bytes (State.resetWith { Params.default with blockSize := 4 }) 0 (rising 16)) 0x10 (hex 4 0xa0a1a2a3))
    0x20 (hex 8 0x1122334455667788)

/-- The key loaded. -/
def keyedBc : State := after .bcSetKey (args bcSetup 0 0 0 0 16)

/-- V-BC-5's ciphertext at 0x60. -/
def cbcDone : State := out (cbcEncOver mock4 (args keyedBc 0x20 0x60 8 0x10 4))

/-- V-BC-1: BC_SETKEY. -/
theorem test_bc_setkey :
    keyedBc.statusWord = 0x802 ∧ keyedBc.bc.loadedKey = rising 16 ∧
    (after .bcSetKey (args keyedBc 0 0 0 0 20)).statusWord = 0x816 ∧
    (after .bcSetKey (args keyedBc 0 0 0 4080 32)).statusWord = 0x856 := by decide +kernel

/-- V-BC-1: BC_CLEAR. -/
theorem test_bc_clear :
    (after .bcClear keyedBc).statusWord = 2 ∧ (after .bcClear keyedBc).bc.key = Vector.replicate 32 0 := by
  decide +kernel

/-- V-BC-2, V-BC-4: no key; a length that is no multiple of the block. -/
theorem test_ecb_enc_errors :
    (after .ecbEnc (args bcSetup 0x20 0x40 8 0 0)).statusWord = 0x36 ∧
    (after .ecbEnc (args keyedBc 0x20 0x40 6 0 0)).statusWord = 0x816 := by decide +kernel

/-- V-BC-3 and V-BC-4's overlap: ECB_ENC. -/
theorem test_ecb_enc :
    (out (ecbEncOver mock4 (args keyedBc 0x20 0x40 8 0 0))).dbuf.readBytes 0x40 8 = hex 8 0x2232461266768a56 ∧
    (out (ecbEncOver mock4 (args keyedBc 0x20 0x22 8 0 0))).dbuf.readBytes 0x20 10 =
      hex 10 0x11222232461212768a45 := by decide +kernel

/-- V-BC-3: ECB_DEC. -/
theorem test_ecb_dec :
    (out (ecbDecOver mock4 (args (bytes keyedBc 0x40 (hex 8 0x2232461266768a56)) 0x40 0x48 8 0 0))).dbuf.readBytes 0x48 8 =
      hex 8 0x1122334455667788 := by decide +kernel

/-- V-BC-5: CBC_ENC. -/
theorem test_cbc_enc : cbcDone.dbuf.readBytes 0x60 8 = hex 8 0x8390e5b2f69338d5 ∧ cbcDone.bc.prev = [0, 0, 0, 0] := by
  decide +kernel

/-- V-BC-6: InvalidIv before InvalidLength; the IV is latched before it is overwritten. -/
theorem test_cbc_enc_iv :
    (after .cbcEnc (args keyedBc 0x20 0x60 6 0x10 8)).statusWord = 0x826 ∧
    (out (cbcEncOver mock4 (args keyedBc 0x20 0x0c 8 0x10 4))).dbuf.readBytes 0x0c 8 = hex 8 0x8390e5b2f69338d5 := by
  decide +kernel

/-- V-BC-5: CBC_DEC in place. -/
theorem test_cbc_dec :
    (out (cbcDecOver mock4 (args cbcDone 0x60 0x60 8 0x10 4))).dbuf.readBytes 0x60 8 = hex 8 0x1122334455667788 := by
  decide +kernel

/-- V-BC-6: CBC_DEC with a shifted overlap. -/
theorem test_cbc_dec_overlap :
    (out (cbcDecOver mock4 (args cbcDone 0x60 0x64 8 0x10 4))).dbuf.readBytes 0x60 12 =
      hex 12 0x8390e5b211223344c481c683 := by decide +kernel

/-! ## Equality -/

/-- Two pairs of sequences: `0102` at 0 and at 0x10, `0103` at 0x20. -/
def pairs : State := bytes (bytes (bytes State.reset 0 [1, 2]) 0x10 [1, 2]) 0x20 [1, 3]

/-- V-EQ-1 to V-EQ-4: CT_EQ. -/
theorem test_ct_eq :
    (after .ctEq (args pairs 0 0 2 0x10 2)).regs.result = 1 ∧ (after .ctEq (args pairs 0 0 2 0x20 2)).regs.result = 0 ∧
    (after .ctEq (args pairs 0 0 1 0x10 2)).regs.result = 0 ∧ (after .ctEq (args pairs 0 0 0 9999 0)).regs.result = 1 := by
  decide +kernel

/-- V-EQ-7: the range comes before the lengths, and an error writes no RESULT. -/
theorem test_ct_eq_range :
    (after .ctEq (args (pairs.setResult 7) 4095 0 2 0 3)).statusWord = 0x56 ∧
    (after .ctEq (args (pairs.setResult 7) 4095 0 2 0 3)).regs.result = 7 := by decide +kernel

/-- V-EQ-8: the fold. -/
theorem test_ct_eq_byte :
    ctEqByte 0x5a 0x5a = 1 ∧ ctEqByte 0xff 0xff = 1 ∧ ctEqByte 0x80 0 = 0 ∧ ctEqByte 0xff 0xfe = 0 ∧
    ctEqByte 0x0f 0xf0 = 0 := by decide

/-- V-EQ-8: CT_EQB. -/
theorem test_ct_eqb :
    (after .ctEqb (args pairs 1 0 0 0x11 0)).regs.result = 1 ∧ (after .ctEqb (args pairs 1 0 0 0x21 0)).regs.result = 0 ∧
    (after .ctEqb (args pairs 4096 0 0 0 0)).statusWord = 0x56 := by decide +kernel

/-! ## Secure memory -/

/-- V-ZW-1's machine: 32 bytes `aa` at 0x100 in cell 0. -/
def oneCell : State := after .cellOpen (args (bytes State.reset 0x100 (List.replicate 32 0xaa)) 0 0 0 0x100 32)

/-- V-ZW-2b's machine: cell 1 overlaps it. -/
def twoCells : State := after .cellOpen (args oneCell 0 0 0 0x110 16)

/-- All four cells open. -/
def fourCells : State :=
  { State.reset with cells := List.replicate 4 { isOpen := true, base := 0x200, len := 4 } }

/-- V-ZW-1, V-ZW-2b: CELL_OPEN. -/
theorem test_cell_open :
    oneCell.statusWord = 0x10002 ∧ oneCell.regs.result = 0 ∧ oneCell.dbuf.read 0x100 = 0xaa ∧
    twoCells.statusWord = 0x30002 ∧ twoCells.regs.result = 1 := by decide +kernel

/-- V-ZW-2a, V-ZW-8: the errors of CELL_OPEN. -/
theorem test_cell_open_errors :
    (after .cellOpen (args oneCell 0 0 0 0x110 0)).statusWord = 0x10016 ∧
    (after .cellOpen (args fourCells 0 0 0 0x200 4)).statusWord = 0xF0066 := by decide +kernel

/-- V-ZW-3: CELL_CLOSE zeroes, and the other cell stays open. -/
theorem test_cell_close :
    (after .cellClose (args twoCells 0 0 0 0 0)).statusWord = 0x20002 ∧
    (after .cellClose (args twoCells 0 0 0 0 0)).dbuf.readBytes 0x100 32 = List.replicate 32 0 ∧
    (after .cellClose (args twoCells 0 0 0 0 0)).regs.result = 1 := by decide +kernel

/-- V-ZW-4, V-ZW-5: a closed cell, an index that is none. -/
theorem test_cell_close_errors :
    (after .cellClose (args oneCell 1 0 0 0 0)).statusWord = 0x10036 ∧
    (after .cellClose (args oneCell 9 0 0 0 0)).statusWord = 0x10036 := by decide +kernel

/-- V-ZW-9: ZEROIZE. -/
theorem test_zeroize :
    (after .zeroize (args (bytes fourCells 0x300 [1, 2, 3, 4, 5]) 0 0x300 4 0 0)).dbuf.readBytes 0x300 5 = [0, 0, 0, 0, 5] ∧
    (after .zeroize (args fourCells 0 0x300 4 0 0)).statusWord = 0xF0002 := by decide +kernel

/-- V-ZW-10: SRST. -/
theorem test_soft_reset :
    let t := out ((bytes (bytes fourCells 0x200 [0x55, 0x55, 0x55, 0x55]) 0x500 [0x77]).hostAccess (.write 0x04 4 2))
    t.dbuf.readBytes 0x200 4 = [0, 0, 0, 0] ∧ t.dbuf.read 0x500 = 0x77 ∧ t.statusWord = 0 := by decide +kernel

/-! ## System commands, the register window -/

/-- V-SYS-1. -/
theorem test_nop : (after .nop State.reset).statusWord = 2 := by decide +kernel

/-- V-SYS-2. -/
theorem test_unimplemented_hash2 : (after (.unimplHash2 0) State.reset).statusWord = 0x46 := by decide +kernel

/-- V-SYS-3. -/
theorem test_unimplemented_rsa : (after (.unimplRsa 0) State.reset).statusWord = 0x46 := by decide +kernel

/-- V-SYS-4, V-SYS-5. -/
theorem test_unimplemented_other :
    (after (decode 0xFF) State.reset).statusWord = 0x46 ∧ (after (decode 0x101) State.reset) = State.reset.failed .unimplementedOperation := by
  decide +kernel

/-- V-SYS-7: DONE_CLR keeps ERR and ERRCODE, and takes IRQ down. -/
theorem test_done_clear :
    let s := (after (decode 0x80000001) State.reset).setRegs { Regs.zero with ie := true }
    s.irq = true ∧ (out (s.hostAccess (.write 0x04 4 8))).statusWord = 0x44 ∧
    (out (s.hostAccess (.write 0x04 4 8))).irq = false := by decide +kernel

/-- V-SYS-8 to V-SYS-11. -/
theorem test_register_reads :
    answer (oneCell.hostAccess (.read 0x28 4)) = some 0 ∧ answer (oneCell.hostAccess (.read 0x08 2)) = some 0 ∧
    answer (oneCell.hostAccess (.read 0x00 4)) = some 0x43434501 ∧
    answer (oneCell.hostAccess (.read 0x0C 4)) = some 0 := by decide +kernel

/-- P5: a second CMD write while BUSY is dropped with OVR set; the NOP then completes. -/
theorem test_overrun :
    ((busyWith State.reset .nop).writeCmd 0).engineTurn = .next (out ((busyWith State.reset .nop).writeCmd 0).engineTurn) ∧
    (out ((busyWith State.reset .nop).writeCmd 0).engineTurn).statusWord = 0xA := ⟨rfl, by decide +kernel⟩

/-- 20_memory.md R71: the race. -/
theorem test_host_race :
    (busyWith State.reset .nop).hostAccess (.read 0x10000 1) = .fault .hostRace := rfl

/-- 20_memory.md R61: a CCE whose window is at 0x40000 answers the ID there and is out of reach elsewhere. -/
theorem test_window_base :
    let far := State.resetWith { Params.default with cceBase := 0x40000 }
    step (far.setSchedule [.host (.read 0x40000 4)]) = .next (far.setLastRead (some 0x43434501)) ∧
    step (far.setSchedule [.host (.read 0 4)]) = .next far ∧
    step (far.setSchedule [.host (.read 0x60000 4)]) = .next far := ⟨rfl, rfl, rfl⟩

/-- 20_memory.md R62: an 8-byte write over CMD issues nothing, and an 8-byte read of it returns 0. -/
theorem test_wide_register_access :
    State.reset.hostAccess (.write 0x0C 8 1) = .next State.reset ∧
    answer (oneCell.hostAccess (.read 0x00 8)) = some 0 := ⟨rfl, by decide +kernel⟩

/-- 20_memory.md R63: a misaligned access across the end of the data buffer, with a command running. -/
theorem test_straddling_buffer_access :
    answer ((busyWith State.reset .nop).hostAccess (.read 0x10FFF 2)) = some 0 ∧
    State.reset.hostAccess (.write 0x10FFD 4 0xFFFFFFFF) = .next State.reset := ⟨by decide +kernel, rfl⟩

/-- 30_encoding.md R84, R86: the fetch hook runs the word as the first command after reset. -/
theorem test_fetch_hook : step (State.reset.withFetchWord 32 0x13) = exec .sha1Destroy (State.reset.issue 0x13) := rfl

/-- 95_test_vectors.md section 3, P1: the writes of the CC_COMBINE line. -/
theorem test_program_line :
    (Line.command .ccCombine [(.src, 0x40), (.dst, 0x100), (.len, 0x41)]).turns 0 =
      [.host (.write 0x10 4 0x40), .host (.write 0x14 4 0x100), .host (.write 0x18 4 0x41),
       .host (.write 0x0C 4 2), .engine, .host (.read 0x08 4)] := by decide

/-! ## Witnesses: for every statement with hypotheses, states and operands that meet them all -/

/-- A result is a next state. -/
def isNext : Result → Bool
  | .next _ => true
  | .fault _ | .refused _ => false

theorem next_of {r : Result} (h : isNext r = true) : r = .next (out r) := by
  cases r <;> simp_all [isNext, out]

/-- EncodedCommandDecodesBack: well-formed commands at the edges of their ranges. -/
theorem witness_encode :
    (Instr.unimplHash2 7).wf = true ∧ (Instr.unimplRsa 15).wf = true ∧ (Instr.unimplOther 0x04).wf = true ∧
    (Instr.unimplOther 0x100).wf = true ∧ (Instr.unimplOther 0xFFFFFFFF).wf = true ∧ Instr.zeroize.wf = true := by
  decide

/-- EveryWordHasExactlyOneCommand. -/
theorem witness_one_command : (Instr.unimplHash2 7).wf = true ∧ encode (.unimplHash2 7) = 0x1F := by decide

/-- A BUSY machine with SHA1_CREATE pending. -/
def pending : State := busyWith State.reset .sha1Create

/-- StepTakesTheNextTurn, clause by clause. -/
theorem witness_step :
    ((pending.setSchedule [.engine, .powerOn]).schedule = .engine :: [.powerOn] ∧ pending.status.busy = true ∧
      decode (pending.latch.rsv ++ pending.latch.op) = .sha1Create) ∧
    pending.schedule = [] ∧
    ((State.reset.setSchedule [.engine]).schedule = .engine :: [] ∧ State.reset.status.busy = false) ∧
    State.reset.schedule = [] ∧
    ((State.reset.setSchedule [.host (.read 0x1FFFF 1)]).schedule = .host (.read 0x1FFFF 1) :: [] ∧
      (Access.read 0x1FFFF 1).place = State.reset.params.cceBase + (0x1FFFF : BitVec 17).toNat) ∧
    ((State.reset.setSchedule [.host (.read 0x20000 4)]).schedule = .host (.read 0x20000 4) :: [] ∧
      State.reset.params.cceBase + 0x20000 ≤ (Access.read 0x20000 4).place) ∧
    (let far := State.resetWith { Params.default with cceBase := 0x40000 }
     (far.setSchedule [.host (.read 0x3FFFF 8)]).schedule = .host (.read 0x3FFFF 8) :: [] ∧
       (Access.read 0x3FFFF 8).place < far.params.cceBase) ∧
    (State.reset.setSchedule [.warmReset]).schedule = .warmReset :: [] ∧
    (State.reset.setSchedule [.powerOn]).schedule = .powerOn :: [] := by decide +kernel

/-- RegisterMapReadsAndResets: the first and last reserved and readable offsets. -/
theorem witness_register_map :
    (∀ n ∈ [0x28, 0xFFFC],
      0x28 ≤ (BitVec.ofNat 17 n).toNat ∧ (BitVec.ofNat 17 n).toNat < 0x10000 ∧ (BitVec.ofNat 17 n).toNat % 4 = 0) ∧
    (∀ n ∈ [0x04, 0xFFFC],
      0 < (BitVec.ofNat 17 n).toNat ∧ (BitVec.ofNat 17 n).toNat < 0x10000 ∧ (BitVec.ofNat 17 n).toNat % 4 = 0) := by
  decide

/-- A machine that uses every unit, with a CC_COMBINE pending. -/
def rich : State :=
  let s := after .cellOpen (args (bytes keyedCc 0x100 [1, 2, 3]) 0 0 0 0x100 3)
  (busyWith (args { s with sha := abc.sha, bc := { keyedBc.bc with prev := List.replicate 16 0 } } 0x40 0x180 65 0 0)
    .ccCombine).setSchedule [.engine]

/-- The invariant holds of it, and its step answers a next state. -/
theorem witness_invariant : rich.Inv ∧ step rich = .next (out (step rich)) where
  left :=
    { legal := by decide +kernel
      dbuf := by unfold State.DbufOk; decide +kernel
      cells := by unfold State.CellsOk; decide +kernel
      status := by unfold State.StatusOk; decide +kernel
      cc := by unfold State.CcOk; decide +kernel
      sha := by unfold State.ShaOk; decide +kernel
      bc := by unfold State.BcOk; decide +kernel }
  right := next_of (by decide +kernel)

/-- StepKeepsBufferAndCells, StepKeepsHashAndCipherUnitsClean, StepKeepsKeystreamInvariant, StepKeepsStatusFieldsLegal
and StepKeepsParameters: their hypotheses. -/
theorem witness_step_keeps :
    (rich.DbufOk ∧ rich.CellsOk) ∧ rich.CcOk ∧ rich.StatusOk ∧ (rich.ShaOk ∧ rich.BcOk) ∧
    step rich = .next (out (step rich)) :=
  have ⟨h, n⟩ := witness_invariant
  ⟨⟨h.dbuf, h.cells⟩, h.cc, h.status, ⟨h.sha, h.bc⟩, n⟩

/-- FailedCommandChangesNothingElse. -/
theorem witness_failed :
    exec .ccCombine State.reset = .next (after .ccCombine State.reset) ∧
    (after .ccCombine State.reset).status.err = true := ⟨exec_eq_after _ _, by decide +kernel⟩

/-- ResultIsWrittenByThreeCommandsOnly: a changed RESULT, and each of the three commands without error. -/
theorem witness_result :
    (after .ctEq (args pairs 0 0 2 0x10 2)).regs.result ≠ pairs.regs.result ∧
    (after .ctEq (args pairs 0 0 2 0x10 2)).status.err = false ∧
    (after .ctEqb (args pairs 0 0 0 4095 0)).status.err = false ∧
    oneCell.status.err = false ∧ oneCell.params.nCells ≤ 8 := by decide +kernel

/-- UnassignedWordsReportUnimplemented: RSV not 0, and OP values beside the assigned ones. -/
theorem witness_unassigned :
    (0x101 : Word).extractLsb' 8 24 ≠ 0 ∧
    ∀ n ∈ [0x04, 0x0F, 0x14, 0x18, 0x1F, 0x26, 0x2F, 0x32, 0x3F, 0x43, 0x50, 0xFF],
      ((BitVec.ofNat 32 n).extractLsb' 0 8).toNat ∉
        [0x00, 0x01, 0x02, 0x03, 0x10, 0x11, 0x12, 0x13, 0x20, 0x21, 0x22, 0x23, 0x24, 0x25, 0x30, 0x31, 0x40, 0x41,
          0x42] := by decide

/-- CcInitBuildsAKeyedEngine: a wrong length each, a range one byte too far each, both ranges ending at 4096. -/
theorem witness_cc_init :
    (args State.reset 0 0 8 0 31).argAuxlen ≠ 32 ∧ (args State.reset 0 0 9 0 32).argLen ≠ 8 ∧
    ¬ (args State.reset 0 0 8 4065 32).InRange 4065 32 ∧ ¬ (args State.reset 4089 0 8 0 32).InRange 4089 8 ∧
    (let s := args State.reset 4088 0 8 4064 32
     s.argAuxlen = 32 ∧ s.argLen = 8 ∧ s.InRange s.argAux 32 ∧ s.InRange s.argSrc 8) := by decide +kernel

/-- CcCombineXorsTheKeystream: no key; each range one byte too far; both ending at 4096; an overlap. -/
theorem witness_cc_combine :
    State.reset.cc.keyed = false ∧ keyedCc.cc.keyed = true ∧
    (let s := args keyedCc 4095 0 2 0 0; ¬ s.InRange s.argSrc s.argLen) ∧
    (let s := args keyedCc 0 4095 2 0 0; ¬ s.InRange s.argDst s.argLen) ∧
    (let s := args keyedCc 4094 4094 2 0 0; s.InRange s.argSrc s.argLen ∧ s.InRange s.argDst s.argLen) ∧
    (let s := args keyedCc 0x40 0x80 65 0 0
     s.InRange s.argSrc s.argLen ∧ s.InRange s.argDst s.argLen ∧ s.argSrc < s.argDst ∧ s.argDst ≤ s.argSrc + 64) := by
  decide +kernel

/-- The machine after a CC_INIT and a CC_COMBINE of 65 bytes. -/
def combined : State := after .ccCombine (args keyedCc 0x40 0x100 65 0 0)

theorem consumed_none : Consumed (hex 32 1) (hex 8 0) 0 keyedCc.cc :=
  .init (args chachaSetup 0x20 0 8 0 32) keyedCc (by decide +kernel) (by decide +kernel) (exec_eq_after _ _)
    (by decide +kernel)

theorem consumed_some : Consumed (hex 32 1) (hex 8 0) (0 + (args keyedCc 0x40 0x100 65 0 0).argLen) combined.cc :=
  .combine 0 (args keyedCc 0x40 0x100 65 0 0) combined consumed_none (exec_eq_after _ _) (by decide +kernel)

/-- KeystreamIgnoresChunking: a unit that consumed 65 bytes, and the next 65, in place and to the adjacent range. -/
theorem witness_keystream :
    Consumed (hex 32 1) (hex 8 0) 65 combined.cc ∧
    (let s := args combined 0x40 0x40 65 0 0
     s.InRange s.argSrc s.argLen ∧ s.InRange s.argDst s.argLen ∧ s.argDst ≤ s.argSrc) ∧
    (let s := args combined 0x40 0x81 65 0 0
     s.InRange s.argSrc s.argLen ∧ s.InRange s.argDst s.argLen ∧ s.argSrc + s.argLen ≤ s.argDst) :=
  ⟨consumed_some, by decide +kernel, by decide +kernel⟩

/-- CompressionRunsEightySteps. -/
theorem witness_compression : (List.replicate 64 (0x41 : Byte)).length = 64 := by decide

/-- Sha1UpdateAbsorbsItsOperand: no engine; one byte too far; up to 4096; length 0. -/
theorem witness_sha1_update :
    State.reset.sha.st ≠ .active ∧ active.sha.st = .active ∧
    (let s := args active 4090 0 7 0 0; ¬ s.InRange s.argSrc s.argLen) ∧
    (let s := args active 4090 0 6 0 0; s.InRange s.argSrc s.argLen) ∧
    (let s := args active 0xFFFFFFFF 0 0 0 0; s.InRange s.argSrc s.argLen ∧ s.argLen = 0) := by decide +kernel

/-- Sha1DigestWritesTwentyBytesAndFinalizes: FINALIZED; one byte too far; up to 4096. -/
theorem witness_sha1_digest :
    (after .sha1Digest active).sha.st ≠ .active ∧ active.sha.st = .active ∧
    (let s := args active 0 4077 0 0 0; ¬ s.InRange s.argDst 20) ∧
    (let s := args active 0 4076 0 0 0; s.InRange s.argDst 20) := by decide +kernel

/-- DigestIsSha1OfTheWholeMessage: "abc" was absorbed. -/
theorem witness_digest : Absorbed [0x61, 0x62, 0x63] (args abc 0 0x40 0 0 0).sha ∧ (args abc 0 0x40 0 0 0).InRange 0x40 20 := by
  have h0 : Absorbed [] active.sha := .create State.reset active (exec_eq_after _ _)
  have h1 := Absorbed.update [] (args (bytes active 0 [0x61, 0x62, 0x63]) 0 0 3 0 0) abc h0 (exec_eq_after _ _)
    (by decide +kernel)
  have e : [] ++ (args (bytes active 0 [0x61, 0x62, 0x63]) 0 0 3 0 0).dbuf.readBytes
      (args (bytes active 0 [0x61, 0x62, 0x63]) 0 0 3 0 0).argSrc
      (args (bytes active 0 [0x61, 0x62, 0x63]) 0 0 3 0 0).argLen = [0x61, 0x62, 0x63] := by decide +kernel
  rw [e] at h1
  exact ⟨h1, by decide +kernel⟩

/-- SetKeyLoadsTheKey: a wrong length, each accepted one, a range one byte too far and one that ends at 4096. -/
theorem witness_setkey :
    ¬ ((17 = 16 ∧ State.reset.params.key16 = true) ∨ (17 = 24 ∧ State.reset.params.key24 = true) ∨
      (17 = 32 ∧ State.reset.params.key32 = true)) ∧
    State.reset.params.key16 = true ∧ State.reset.params.key24 = true ∧ State.reset.params.key32 = true ∧
    (let s := args State.reset 0 0 0 4081 16; ¬ s.InRange s.argAux s.argAuxlen ∧ s.argAuxlen = 16) ∧
    (let s := args State.reset 0 0 0 4064 32; s.InRange s.argAux s.argAuxlen ∧ s.argAuxlen = 32) := by decide +kernel

/-- EcbTransformsBlocksInOrder, clause by clause, and the same states for the first clauses of the CBC statements. -/
theorem witness_ecb :
    bcSetup.bc.keyed = false ∧ keyedBc.bc.keyed = true ∧
    (let s := args keyedBc 0 0 6 0 0; s.argLen % s.params.blockSize ≠ 0) ∧
    (let s := args keyedBc 4092 0 8 0 0; s.argLen % s.params.blockSize = 0 ∧ ¬ s.InRange s.argSrc s.argLen) ∧
    (let s := args keyedBc 0 4092 8 0 0; s.argLen % s.params.blockSize = 0 ∧ ¬ s.InRange s.argDst s.argLen) ∧
    (let s := args keyedBc 4088 4088 8 0 0
     s.argLen % s.params.blockSize = 0 ∧ s.InRange s.argSrc s.argLen ∧ s.InRange s.argDst s.argLen) := by
  decide +kernel

/-- CbcEncChainsOnTheCiphertext and CbcDecChainsOnTheCiphertextRead, clause by clause. -/
theorem witness_cbc :
    bcSetup.bc.keyed = false ∧ keyedBc.bc.keyed = true ∧ keyedBc.params.blockSize = 4 ∧
    (args keyedBc 0 0 8 0 5).argAuxlen ≠ 4 ∧
    (let s := args keyedBc 0 0 6 0 4; s.argAuxlen = 4 ∧ s.argLen % 4 ≠ 0) ∧
    (let s := args keyedBc 0 0 8 4093 4; s.argAuxlen = 4 ∧ s.argLen % 4 = 0 ∧ ¬ s.InRange s.argAux 4) ∧
    (let s := args keyedBc 4089 0 8 0 4; s.argAuxlen = 4 ∧ s.argLen % 4 = 0 ∧ ¬ s.InRange s.argSrc s.argLen) ∧
    (let s := args keyedBc 0 4089 8 0 4; s.argAuxlen = 4 ∧ s.argLen % 4 = 0 ∧ ¬ s.InRange s.argDst s.argLen) ∧
    (let s := args keyedBc 4088 4088 8 4092 4
     s.argAuxlen = 4 ∧ s.argLen % 4 = 0 ∧ s.InRange s.argAux 4 ∧ s.InRange s.argSrc s.argLen ∧
       s.InRange s.argDst s.argLen) := by
  decide +kernel

/-- MOCK4's decryption undoes its encryption. -/
theorem mock4_inverts (k x : List Byte) (h : x.length = 4) : portDec mock4 4 k (portEnc mock4 4 k x) = x := by
  obtain ⟨a, b, c, d, rfl⟩ : ∃ a b c d, x = [a, b, c, d] := by
    match x, h with
    | [a, b, c, d], _ => exact ⟨a, b, c, d, rfl⟩
  simp [portDec, portEnc, mock4, List.range_succ]

/-- DecryptionUndoesEncryption, CBC clause: MOCK4, V-BC-5's encryption, and its decryption to another place. -/
theorem witness_cbc_roundtrip :
    let s := args keyedBc 0x20 0x60 8 0x10 4
    let s' := args cbcDone 0x60 0x80 8 0x10 4
    (∀ x : List Byte, x.length = s.params.blockSize →
      portDec mock4 s.params.blockSize s.bc.loadedKey (portEnc mock4 s.params.blockSize s.bc.loadedKey x) = x) ∧
    Disjoint s.argSrc s.argDst s.argLen ∧ s'.params = s.params ∧ s'.bc.keyed = s.bc.keyed ∧
    s'.bc.loadedKey = s.bc.loadedKey ∧ s'.argLen = s.argLen ∧
    s'.dbuf.readBytes s'.argSrc s.argLen = cbcDone.dbuf.readBytes s.argDst s.argLen ∧
    Disjoint s'.argSrc s'.argDst s.argLen ∧ s'.InRange s'.argSrc s.argLen ∧ s'.InRange s'.argDst s.argLen ∧
    cbcEncOver mock4 s = .next cbcDone ∧ cbcDone.status.err = false ∧ s'.argAuxlen = s.argAuxlen ∧
    s'.InRange s'.argAux s.params.blockSize ∧
    s'.dbuf.readBytes s'.argAux s.params.blockSize = s.dbuf.readBytes s.argAux s.params.blockSize := by
  refine ⟨fun x h => mock4_inverts _ x h, by unfold Claims.Disjoint; decide +kernel, by decide +kernel, by decide +kernel,
    by decide +kernel, by decide +kernel, by decide +kernel, by unfold Claims.Disjoint; decide +kernel, by decide +kernel,
    by decide +kernel, next_of (by decide +kernel), by decide +kernel, by decide +kernel, by decide +kernel,
    by decide +kernel⟩

/-- DecryptionUndoesEncryption, ECB clause. -/
theorem witness_ecb_roundtrip :
    let s := args keyedBc 0x20 0x40 8 0 0
    let t := out (ecbEncOver mock4 s)
    let s' := args t 0x40 0x48 8 0 0
    (∀ x : List Byte, x.length = s.params.blockSize →
      portDec mock4 s.params.blockSize s.bc.loadedKey (portEnc mock4 s.params.blockSize s.bc.loadedKey x) = x) ∧
    Disjoint s.argSrc s.argDst s.argLen ∧ s'.params = s.params ∧ s'.bc.keyed = s.bc.keyed ∧
    s'.bc.loadedKey = s.bc.loadedKey ∧ s'.argLen = s.argLen ∧
    s'.dbuf.readBytes s'.argSrc s.argLen = t.dbuf.readBytes s.argDst s.argLen ∧
    Disjoint s'.argSrc s'.argDst s.argLen ∧ s'.InRange s'.argSrc s.argLen ∧ s'.InRange s'.argDst s.argLen ∧
    ecbEncOver mock4 s = .next t ∧ t.status.err = false := by
  refine ⟨fun x h => mock4_inverts _ x h, by unfold Claims.Disjoint; decide +kernel, by decide +kernel, by decide +kernel,
    by decide +kernel, by decide +kernel, by decide +kernel, by unfold Claims.Disjoint; decide +kernel, by decide +kernel,
    by decide +kernel, next_of (by decide +kernel), by decide +kernel⟩

/-- CtEqComparesWholeSequences: each range one byte too far; both up to 4096. -/
theorem witness_ct_eq :
    (let s := args pairs 4095 0 2 0 2; ¬ s.InRange s.argSrc s.argLen) ∧
    (let s := args pairs 0 0 2 4095 2; ¬ s.InRange s.argAux s.argAuxlen) ∧
    (let s := args pairs 4094 0 2 4093 3; s.InRange s.argSrc s.argLen ∧ s.InRange s.argAux s.argAuxlen) := by
  decide +kernel

/-- CtEqbComparesTwoBytes: each address one too far; both the last. -/
theorem witness_ct_eqb :
    State.reset.params.dbufSize ≤ (args pairs 4096 0 0 0 0).argSrc ∧
    State.reset.params.dbufSize ≤ (args pairs 0 0 0 4096 0).argAux ∧
    (args pairs 4095 0 0 4095 0).argSrc < State.reset.params.dbufSize ∧
    (args pairs 4095 0 0 4095 0).argAux < State.reset.params.dbufSize := by decide +kernel

/-- CellOpenTakesTheLowestClosedCell, clause by clause. -/
theorem witness_cell_open :
    (oneCell.params.Legal ∧ oneCell.cells.length = oneCell.params.nCells) ∧
    (args oneCell 0 0 0 0 0).argAuxlen = 0 ∧
    (let s := args oneCell 0 0 0 4095 2; s.argAuxlen ≠ 0 ∧ ¬ s.InRange s.argAux s.argAuxlen) ∧
    (let s := args fourCells 0 0 0 4095 1
     s.params.Legal ∧ s.cells.length = s.params.nCells ∧ s.argAuxlen ≠ 0 ∧ s.InRange s.argAux s.argAuxlen ∧
       ∀ c ∈ s.cells, c.isOpen = true) ∧
    (let s := args oneCell 0 0 0 4095 1
     s.argAuxlen ≠ 0 ∧ s.InRange s.argAux s.argAuxlen ∧ cellIsOpen s 1 = false ∧ 1 < s.params.nCells ∧
       ∀ j < 1, cellIsOpen s j = true) := by decide +kernel

/-- CellCloseZeroesAndFreesTheCell: a closed cell, the first index that is none, an open cell. -/
theorem witness_cell_close :
    cellIsOpen oneCell (args oneCell 3 0 0 0 0).argSrc = false ∧ cellIsOpen fourCells (args fourCells 4 0 0 0 0).argSrc = false ∧
    (let s := args fourCells 3 0 0 0 0
     s.argSrc < s.params.nCells ∧ s.cells[s.argSrc]? = some { isOpen := true, base := 0x200, len := 4 }) := by
  decide +kernel

/-- ZeroizeZeroesItsRegion: one byte too far; up to 4096. -/
theorem witness_zeroize :
    (let s := args State.reset 0 4095 2 0 0; ¬ s.InRange s.argDst s.argLen) ∧
    (let s := args State.reset 0 4094 2 0 0; s.InRange s.argDst s.argLen) := by decide +kernel

/-- EveryExitPathZeroesTheCell: an open cell and its last byte; a command that fails; a command that is no CELL_CLOSE;
a CELL_CLOSE of another cell. -/
theorem witness_exit_paths :
    (0 < oneCell.params.nCells ∧ oneCell.cells[0]? = some { isOpen := true, base := 0x100, len := 32 } ∧
      (0x100 : Word).toNat ≤ 0x11F ∧ 0x11F < (0x100 : Word).toNat + (32 : Word).toNat) ∧
    (args oneCell 0 0 0 0 0).argSrc = 0 ∧ (2 : Word).getLsbD 1 = true ∧
    (exec .ccCombine oneCell = .next (after .ccCombine oneCell) ∧ (after .ccCombine oneCell).status.err = true) ∧
    Instr.zeroize ≠ .cellClose ∧ (args oneCell 1 0 0 0 0).argSrc ≠ 0 :=
  ⟨by decide +kernel, by decide, by decide, ⟨exec_eq_after _ _, by decide +kernel⟩, by decide, by decide +kernel⟩

/-- NoUnitSecretSurvivesReset: two machines that differ in their units, with no command running, and a digest of each. -/
theorem witness_unit_secret :
    let s := args abc 0 0x40 0 0 0
    let u := { s with cc := keyedCc.cc, sha := active.sha, bc := { s.bc with keyed := true, keyLen := 16 } }
    u = { s with cc := u.cc, sha := u.sha, bc := u.bc } ∧ s ≠ u ∧ s.status.busy = false ∧
    (after .sha1Digest s).status.err = false ∧ (after .sha1Digest u).status.err = false :=
  ⟨rfl, by decide +kernel, by decide +kernel, by decide +kernel, by decide +kernel⟩

/-- HiddenStateIsUnreadable: two machines with different key streams that look alike. -/
theorem witness_hidden :
    LookAlike keyedCc { keyedCc with cc := { CcUnit.zero with keyed := true } } ∧
    keyedCc.cc ≠ { CcUnit.zero with keyed := true } :=
  ⟨⟨rfl, rfl, rfl, rfl, by decide +kernel, rfl, rfl, rfl⟩, by decide +kernel⟩

theorem not_inOpenCell : ¬ inOpenCell oneCell 0x120 := by
  rintro ⟨i, c, hi, hc, ho, hl, hu⟩
  have key : ∀ i < 4, ∀ c ∈ oneCell.cells[i]?, c.isOpen = true → 0x120 < c.base.toNat + c.len.toNat → False := by
    decide +kernel
  exact key i hi c hc ho hu

/-- ResetClearsAllButTheBuffer: the last byte of an open cell, the byte after it, and the SRST bit. -/
theorem witness_warm_reset :
    inOpenCell oneCell 0x11F ∧ (oneCell.status.busy = false ∧ ¬ inOpenCell oneCell 0x120) ∧
    (2 : Word).getLsbD 1 = true :=
  ⟨⟨0, { isOpen := true, base := 0x100, len := 32 }, by decide +kernel, by decide +kernel, rfl, by decide, by decide⟩,
    ⟨by decide +kernel, not_inOpenCell⟩, by decide⟩

theorem reset_not_inOpenCell (i : Instr) (src dst len aux auxlen : Word) (a : Nat) :
    ¬ inOpenCell (busyWith (args State.reset src dst len aux auxlen) i) a := by
  rintro ⟨j, c, -, hc, ho, -⟩
  have hm : c ∈ List.replicate 4 SecCell.zero := List.mem_of_getElem? hc
  rw [List.eq_of_mem_replicate hm] at ho
  exact absurd ho (by decide)

/-- AbortedCommandLeavesOnlyItsRangeOpen: an open cell of a BUSY machine. -/
theorem witness_aborted_cell :
    let s := busyWith oneCell .zeroize
    s.status.busy = true ∧ inOpenCell s 0x100 :=
  ⟨by decide +kernel, 0, { isOpen := true, base := 0x100, len := 32 }, by decide +kernel, by decide +kernel, rfl,
    by decide, by decide⟩

/-- AbortedCommandLeavesOnlyItsRangeOpen: each of its three kinds of command, with the bytes beside its range. -/
theorem witness_aborted :
    (∀ i ∈ [Instr.ccCombine, .ecbEnc, .ecbDec, .cbcEnc, .cbcDec, .zeroize],
      let s := busyWith (args State.reset 0 0x40 8 0 0) i
      s.status.busy = true ∧ decode (s.latch.rsv ++ s.latch.op) = i ∧ 0x3F < s.argDst ∧ s.argDst + s.argLen ≤ 0x48) ∧
    (let s := busyWith (args State.reset 0 0x40 0 0 0) .sha1Digest
     decode (s.latch.rsv ++ s.latch.op) = .sha1Digest ∧ 0x3F < s.argDst ∧ s.argDst + 20 ≤ 0x54) ∧
    (let s := busyWith (args State.reset 0 0x40 0 0 0) .cellClose
     decode (s.latch.rsv ++ s.latch.op) ∉
       [Instr.ccCombine, .ecbEnc, .ecbDec, .cbcEnc, .cbcDec, .zeroize, .sha1Digest]) := by decide +kernel

/-- AcceptedCmdWriteLatchesAndRuns, CmdWriteWhileBusyOnlySetsOverrun, and the two kinds of CTRL write of
CtrlWriteStoresEnableAndActs. -/
theorem witness_cmd_ctrl :
    State.reset.status.busy = false ∧ pending.status.busy = true ∧ (0xFFFFFFFF : Word).getLsbD 1 = true ∧
    (0xFFFFFFFD : Word).getLsbD 1 = false := by decide +kernel

/-- ArgumentRegistersStoreTheWholeValue: one of its offsets. -/
theorem witness_argument_registers : (0x20 : BitVec 17) ∈ [(0x10 : BitVec 17), 0x14, 0x18, 0x1C, 0x20] := by decide

/-- MalformedRegisterAccessDoesNothing: a narrow access, a wide one over CMD, and a misaligned one at the end of the
register space. -/
theorem witness_malformed :
    ((0x08 : BitVec 17).toNat < 0x10000 ∧ 2 ≠ 4) ∧ ((0x0C : BitVec 17).toNat < 0x10000 ∧ 8 ≠ 4) ∧
    ((0xFFFD : BitVec 17).toNat < 0x10000 ∧ (0xFFFD : BitVec 17).toNat % 4 ≠ 0) := by decide

/-- BufferAccessesAreLittleEndian: the last word, halfword and byte with no command running; misaligned accesses that
end below DBUF_SIZE, that straddle it, and at the end of the window. -/
theorem witness_buffer :
    State.reset.params.Legal ∧ State.reset.status.busy = false ∧
    (∀ n ∈ [1, 2, 4], (n = 1 ∨ n = 2 ∨ n = 4) ∧ 4096 - n + n ≤ State.reset.params.dbufSize ∧ (4096 - n) % n = 0) ∧
    (∀ x ∈ [(4093, 2), (4095, 2), (4093, 4), (4094, 4), (4095, 4), (65535, 2), (65535, 4)],
      x.1 < 0x10000 ∧ x.1 % x.2 ≠ 0) := by decide

/-- ReservedWindowReadsZero: the first and last offset above the data buffer; an 8-byte access to the data buffer. -/
theorem witness_reserved :
    State.reset.params.Legal ∧ 0x10000 + State.reset.params.dbufSize ≤ (0x11000 : BitVec 17).toNat ∧
    0x10000 + State.reset.params.dbufSize ≤ (0x1FFFF : BitVec 17).toNat ∧
    (0x10000 ≤ (0x10000 : BitVec 17).toNat ∧ 8 ≠ 1 ∧ 8 ≠ 2 ∧ 8 ≠ 4) := by decide

/-- ReadsHaveNoSideEffects. -/
theorem witness_read :
    oneCell.hostAccess (.read 0x10100 4) = .next (out (oneCell.hostAccess (.read 0x10100 4))) :=
  next_of (by decide +kernel)

/-- HostRaceIsTheOnlyStop: a state whose step is the race. -/
theorem witness_host_race :
    let s := pending.setSchedule [.host (.write 0x10FFF 1 0)]
    step s = .fault .hostRace ∧ s.status.busy = true ∧ s.schedule = .host (.write 0x10FFF 1 0) :: [] ∧
    reachesBuffer s.params 0x10FFF 1 :=
  ⟨rfl, by decide +kernel, rfl, by unfold reachesBuffer; decide +kernel⟩

/-- StatusWordHoldsItsFields. -/
theorem witness_status_word : twoCells.params.Legal := by decide +kernel

/-- IrqFollowsEnableAndDone: a command, a CMD write, a CTRL write and a read, each with a next state. -/
theorem witness_irq :
    exec .nop pending = .next (after .nop pending) ∧
    pending.hostAccess (.write 0x0C 4 0) = .next (out (pending.hostAccess (.write 0x0C 4 0))) ∧
    pending.hostAccess (.write 0x04 4 1) = .next (out (pending.hostAccess (.write 0x04 4 1))) ∧
    pending.hostAccess (.read 0x08 4) = .next (out (pending.hostAccess (.read 0x08 4))) :=
  ⟨exec_eq_after _ _, next_of (by decide +kernel), next_of (by decide +kernel), next_of (by decide +kernel)⟩

/-- A BUSY machine with OVR set. -/
def overrun : State := pending.writeCmd 0

/-- The next state of a step whose turn is given. -/
def turned (s : State) (x : Turn) : State := out (step (s.setSchedule [x]))

/-- OverrunIsSticky: OVR cleared by OVR_CLR, cleared by a reset, set by a CMD write. -/
theorem witness_overrun :
    (∀ x ∈ [Turn.host (.write 0x04 4 4), .warmReset, .powerOn],
      isNext (step (overrun.setSchedule [x])) = true ∧ overrun.status.ovr = true ∧ (turned overrun x).status.ovr = false) ∧
    isNext (step (pending.setSchedule [.host (.write 0x0C 4 0)])) = true ∧ pending.status.ovr = false ∧
    pending.status.busy = true ∧ (turned pending (.host (.write 0x0C 4 0))).status.ovr = true ∧
    ctrlWriteWith overrun.params.cceBase 2 (.host (.write 0x04 4 4)) :=
  ⟨by decide +kernel, by decide +kernel, by decide +kernel, by decide +kernel, by decide +kernel, ⟨rfl, rfl, by decide⟩⟩

/-- ErrorStaysUntilIssueOrReset: a completion, an accepted CMD write and a reset that change ERR or ERRCODE. -/
theorem witness_error_stays :
    (let s := busyWith State.reset .ccCombine
     isNext (step (s.setSchedule [.engine])) = true ∧ (turned s .engine).status.err ≠ s.status.err) ∧
    (∀ x ∈ [Turn.host (.write 0x0C 4 0), .warmReset],
      let s := after .ccCombine State.reset
      isNext (step (s.setSchedule [x])) = true ∧ (turned s x).status.errCode ≠ s.status.errCode) := by decide +kernel

/-- RacingWritesAdmitBothOrders. -/
theorem witness_race_orders :
    pending.status.busy = true ∧ pending.status.ovr = false ∧ (8 : Word).getLsbD 1 = false ∧ (8 : Word).getLsbD 3 = true := by
  decide +kernel

/-- PendingCommandCompletesUndisturbed: a pending command; before the engine's turn an argument write, a CMD write, a
CTRL write without SRST, wide accesses in the register space and an access above the window. -/
theorem witness_pending :
    let s := pending.setSchedule [.host (.write 0x10 4 0xFFFFFFFF), .engine]
    s.status.busy = true ∧
    (∀ a ∈ [Access.write 0x10 4 0xFFFFFFFF, .write 0x0C 4 2, .write 0x04 4 0xFFFFFFFD, .write 0x04 8 2, .read 0xFFFF 1,
        .read 0x20000 4], quietAccess s.params.cceBase a) ∧
    s.schedule = [Access.write 0x10 4 0xFFFFFFFF].map Turn.host ++ .engine :: [] := by
  refine ⟨by decide +kernel, ?_, rfl⟩
  have h : pending.params.cceBase = 0 := by decide +kernel
  simp [quietAccess, ctrlWriteWith, Access.place, h]

end Sys2Proof.Tests
end

section
/-! SUPPORT. Register accesses at a window offset: what they read and write, and what every register reads after a reset
(10_state.md R22, R23, R42). -/

namespace Sys2Proof.Machine

open Sys2Proof.Claims

/-- A 4-byte read of a register offset answers that register (10_state.md R22). -/
theorem State.hostAccess_read_register (s : State) (off : BitVec 17) (ho : off.toNat < 0x10000 := by decide)
    (ha : off.toNat % 4 = 0 := by decide) :
    s.hostAccess (.read off 4) = .next (s.setLastRead (some (s.regRead off.toNat))) := by
  rw [State.hostAccess, targetOf_register ho rfl ha]

/-- A 4-byte write of a register offset writes that register (10_state.md R22). -/
theorem State.hostAccess_write_register (s : State) (off : BitVec 17) (v : Word)
    (ho : off.toNat < 0x10000 := by decide) (ha : off.toNat % 4 = 0 := by decide) :
    s.hostAccess (.write off 4 v) = .next (s.regWrite off.toNat v) := by
  rw [State.hostAccess, targetOf_register ho rfl ha]

/-- A read that is answered leaves all but the last read value (20_memory.md R68). -/
theorem State.hostAccess_read_next {s t : State} {off : BitVec 17} {n : Nat} (h : s.hostAccess (.read off n) = .next t) :
    ∃ v, t = s.setLastRead v := by
  simp only [State.hostAccess] at h
  split at h
  · exact ⟨_, (Host.Outcome.next.inj h).symm⟩
  · split at h
    · cases h
    · exact ⟨_, (Host.Outcome.next.inj h).symm⟩
  · exact ⟨_, (Host.Outcome.next.inj h).symm⟩

/-- The offsets above RESULT are reserved and read 0 (10_state.md R42). -/
theorem State.regRead_reserved (s : State) {off : Nat} (h : 0x28 ≤ off) : s.regRead off = 0 := by
  unfold State.regRead
  split
  case h_10 => rfl
  all_goals omega

/-- The offsets above AUXLEN are read-only or reserved and ignore writes (10_state.md R41, R42). -/
theorem State.regWrite_ignored (s : State) {off : Nat} (v : Word) (h : 0x24 ≤ off) : s.regWrite off v = s := by
  unfold State.regWrite
  split
  case h_8 => rfl
  all_goals omega

/-! A reset ends with `State.clearUnits`; what the registers read after it. -/

theorem State.warmReset_eq_clearUnits (s : State) : ∃ u : State, s.warmReset = u.clearUnits := ⟨_, rfl⟩

theorem State.powerOnReset_eq_clearUnits (s : State) : ∃ u : State, s.powerOnReset = u.clearUnits := ⟨_, rfl⟩

theorem State.reset_eq_clearUnits : State.reset = State.reset.clearUnits := rfl

/-- With no cell open CELLS_OPEN is 0 (10_state.md R34). -/
theorem cellsOpenField_of_closed (n : Nat) {cs : List SecCell} (h : ∀ c ∈ cs, c.isOpen = false) :
    cellsOpenField n cs = 0 := by
  apply BitVec.eq_of_getLsbD_eq
  intro i _
  rw [getLsbD_cellsOpenField]
  cases hc : cs[i]? with
  | none => simp
  | some c => simp [h c (List.mem_of_getElem? hc)]

@[simp] theorem State.clearUnits_statusWord (s : State) : s.clearUnits.statusWord = 0 := by
  have hcells : cellsOpenField s.params.nCells (List.replicate s.params.nCells SecCell.zero) = 0 :=
    cellsOpenField_of_closed _ fun c hc => by rw [List.eq_of_mem_replicate hc]; rfl
  simp [State.statusWord, State.clearUnits, hcells, bitWord, Status.zero, CcUnit.zero, ShaUnit.zeroed, ShaState.code,
    BcUnit.zero]

/-- After a reset every register but ID reads 0 (10_state.md R22 to R42). -/
theorem State.clearUnits_regRead (s : State) {off : Nat} (h : off ≠ 0) : s.clearUnits.regRead off = 0 := by
  unfold State.regRead
  split
  · exact absurd rfl h
  · rfl
  · exact s.clearUnits_statusWord
  all_goals rfl

/-- After a reset a read of any register but ID answers 0. -/
theorem State.answer_clearUnits (s : State) {off : BitVec 17} (h0 : off.toNat ≠ 0) (ho : off.toNat < 0x10000)
    (ha : off.toNat % 4 = 0) : answer (s.clearUnits.hostAccess (.read off 4)) = some 0 := by
  rw [State.hostAccess_read_register _ off ho ha, s.clearUnits_regRead h0]
  rfl

end Sys2Proof.Machine
end

section
/-! SUPPORT. The fields of a STATUS word, and what OVR and IRQ are after a CTRL write, a CMD write, a command and a
turn (10_state.md R24, R29, R34, R51). -/

namespace Sys2Proof.Machine

open Sys2Proof.Claims

/-- A field of a word is given by its bits. -/
theorem extractLsb'_eq_of_getLsbD {w : Word} {k n : Nat} {x : BitVec n} (h : ∀ i < n, w.getLsbD (k + i) = x.getLsbD i) :
    w.extractLsb' k n = x :=
  BitVec.eq_of_getLsbD_eq fun i hi => by rw [BitVec.getLsbD_extractLsb', h i hi, decide_eq_true hi, Bool.true_and]

/-- A CTRL write clears OVR with SRST or OVR_CLR (10_state.md R24). -/
@[simp] theorem State.writeCtrl_ovr (s : State) (v : Word) :
    (s.writeCtrl v).status.ovr = (!v.getLsbD 1 && !v.getLsbD 2 && s.status.ovr) := by
  cases h : v.getLsbD 1
  · rw [State.writeCtrl_of_no_reset h]
    cases v.getLsbD 2 <;> rfl
  · rw [State.writeCtrl_of_reset h]
    rfl

/-- A CMD write sets OVR while BUSY, and leaves it else (30_encoding.md R84, R85). -/
@[simp] theorem State.writeCmd_ovr (s : State) (w : Word) :
    (s.writeCmd w).status.ovr = (s.status.busy || s.status.ovr) := by
  cases h : s.status.busy
  · rw [State.writeCmd_idle h]
    rfl
  · rw [State.writeCmd_busy h]
    rfl

/-- After a CTRL write IRQ is up just when there is no SRST, IE is stored and DONE is not cleared (10_state.md R24). -/
theorem State.writeCtrl_irq (s : State) (v : Word) :
    (s.writeCtrl v).irq = (!v.getLsbD 1 && v.getLsbD 0 && s.status.done && !v.getLsbD 3) := by
  cases h : v.getLsbD 1
  · rw [State.writeCtrl_of_no_reset h]
    cases v.getLsbD 3 <;> simp [State.irq]
  · rw [State.writeCtrl_of_reset h]
    rfl

/-- An accepted CMD write drops IRQ, one that is dropped leaves it (30_encoding.md R84, R85). -/
theorem State.writeCmd_irq (s : State) (w : Word) : (s.writeCmd w).irq = (s.irq && s.status.busy) := by
  cases h : s.status.busy
  · rw [State.writeCmd_idle h]
    simp [State.irq, State.issue]
  · rw [State.writeCmd_busy h]
    simp [State.irq]

/-- A command leaves IE and sets DONE, so that IRQ is IE (60_exceptions.md R220). -/
theorem exec_irq {i : Instr} {s t : State} (h : exec i s = .next t) : t.irq = s.regs.ie := by
  obtain ⟨e, h'⟩ | ⟨v, cc, sha, bc, cells, m, h'⟩ := exec_ends i s <;>
  · cases h.symm.trans h'
    simp [State.irq, State.written]

/-- A command leaves OVR (60_exceptions.md R211, R212). -/
theorem exec_ovr {i : Instr} {s t : State} (h : exec i s = .next t) : t.status.ovr = s.status.ovr := by
  obtain ⟨e, h'⟩ | ⟨v, cc, sha, bc, cells, m, h'⟩ := exec_ends i s <;>
  · cases h.symm.trans h'
    rfl

/-- A host access that changes STATUS is a CTRL write or a CMD write. -/
theorem State.hostAccess_status_cases {s t : State} {a : Access (BitVec 17)} (h : s.hostAccess a = .next t) :
    t.status = s.status ∨ (∃ v, a = .write 0x04 4 v ∧ t = s.writeCtrl v) ∨
    (∃ w, a = .write 0x0C 4 w ∧ t = s.writeCmd w) := by
  rcases s.hostAccess_cases a with ⟨v, e⟩ | ⟨off, v, rfl, -, -, e⟩ | ⟨x, bs, -, -, e⟩ | e | ⟨-, -, e⟩ <;>
    cases h.symm.trans e
  · exact .inl rfl
  · rcases s.regWrite_cases off.toNat v with ⟨ho, e⟩ | ⟨ho, e⟩ | ⟨r, -, -, e⟩
    · obtain rfl : off = 0x04 := BitVec.eq_of_toNat_eq ho
      exact .inr (.inl ⟨v, rfl, e⟩)
    · obtain rfl : off = 0x0C := BitVec.eq_of_toNat_eq ho
      exact .inr (.inr ⟨v, rfl, e⟩)
    · rw [e]
      exact .inl rfl
  · exact .inl rfl
  · exact .inl rfl

theorem Access.eq_of_moveTo_eq_write {P Q : Type} {a : Access P} {p q : Q} {n : Nat} {v : Word}
    (h : a.moveTo p = .write q n v) : p = q ∧ a = .write a.place n v := by
  cases a <;> cases h
  exact ⟨rfl, rfl⟩

/-- A turn that changes STATUS is a running command's engine turn, RST, POR, a CTRL write or a CMD write. -/
theorem State.takeTurn_status_cases {s t : State} {x : Turn} (h : s.takeTurn x = .next t) :
    t.status = s.status ∨ (x = .engine ∧ s.status.busy = true ∧ exec s.latched s = .next t) ∨
    ((x = .warmReset ∨ x = .powerOn) ∧ t.status = Status.zero) ∨
    (∃ v, x = .host (.write (s.params.cceBase + 0x04) 4 v) ∧ t = s.writeCtrl v) ∨
    (∃ w, x = .host (.write (s.params.cceBase + 0x0C) 4 w) ∧ t = s.writeCmd w) := by
  cases x with
  | engine =>
    rcases s.engineTurn_cases with ⟨hb, e⟩ | ⟨-, e⟩
    · exact .inr (.inl ⟨rfl, hb, e.symm.trans h⟩)
    · cases h.symm.trans e
      exact .inl rfl
  | host a =>
    rcases s.busAccess_cases a with ⟨off, hp, e⟩ | ⟨-, e⟩
    · rcases State.hostAccess_status_cases (e.symm.trans h) with hs | ⟨v, ha, ht⟩ | ⟨w, ha, ht⟩
      · exact .inl hs
      · obtain ⟨rfl, hw⟩ := Access.eq_of_moveTo_eq_write ha
        exact .inr (.inr (.inr (.inl ⟨v, by rw [hp] at hw; rw [hw]; rfl, ht⟩)))
      · obtain ⟨rfl, hw⟩ := Access.eq_of_moveTo_eq_write ha
        exact .inr (.inr (.inr (.inr ⟨w, by rw [hp] at hw; rw [hw]; rfl, ht⟩)))
    · cases h.symm.trans e
      exact .inl rfl
  | warmReset =>
    cases h
    exact .inr (.inr (.inl ⟨.inl rfl, rfl⟩))
  | powerOn =>
    cases h
    exact .inr (.inr (.inl ⟨.inr rfl, rfl⟩))

/-- A turn that is a CTRL write with a given bit set. -/
theorem ctrlWriteWith_iff {base bit : Nat} {x : Turn} :
    ctrlWriteWith base bit x ↔ ∃ v, x = .host (.write (base + 0x04) 4 v) ∧ v.getLsbD bit = true := by
  constructor
  · intro h
    unfold ctrlWriteWith at h
    split at h
    · obtain ⟨rfl, rfl, hv⟩ := h
      exact ⟨_, rfl, hv⟩
    · exact h.elim
  · rintro ⟨v, rfl, hv⟩
    exact ⟨rfl, rfl, hv⟩

/-- A CTRL write on the bus (10_state.md R24). -/
theorem State.takeTurn_ctrl_write (s : State) (v : Word) :
    s.takeTurn (.host (.write (s.params.cceBase + 0x04) 4 v)) = .next (s.writeCtrl v) :=
  s.busAccess_write_register v (by decide) (by decide)

/-- A CMD write on the bus (30_encoding.md R84, R85). -/
theorem State.takeTurn_cmd_write (s : State) (w : Word) :
    s.takeTurn (.host (.write (s.params.cceBase + 0x0C) 4 w)) = .next (s.writeCmd w) :=
  s.busAccess_write_register w (by decide) (by decide)

/-- OVR falls at a turn only by OVR_CLR or a reset. -/
theorem State.takeTurn_clears_ovr {s t : State} {x : Turn} (h : s.takeTurn x = .next t) (hs : s.status.ovr = true)
    (ht : t.status.ovr = false) : ctrlWriteWith s.params.cceBase 2 x ∨ resetTurn s.params.cceBase x := by
  rcases State.takeTurn_status_cases h with e | ⟨-, -, e⟩ | ⟨hx, -⟩ | ⟨v, hx, rfl⟩ | ⟨w, -, rfl⟩
  · rw [e, hs] at ht
    cases ht
  · rw [exec_ovr e, hs] at ht
    cases ht
  · rcases hx with hx | hx
    · exact .inr (.inl hx)
    · exact .inr (.inr (.inl hx))
  · cases h1 : v.getLsbD 1
    · refine .inl (ctrlWriteWith_iff.2 ⟨v, hx, ?_⟩)
      rw [State.writeCtrl_ovr, h1, hs] at ht
      simpa using ht
    · exact .inr (.inr (.inr (ctrlWriteWith_iff.2 ⟨v, hx, h1⟩)))
  · rw [State.writeCmd_ovr, hs, Bool.or_true] at ht
    cases ht

/-- OVR rises at a turn only by a CMD write while BUSY. -/
theorem State.takeTurn_sets_ovr {s t : State} {x : Turn} (h : s.takeTurn x = .next t) (hs : s.status.ovr = false)
    (ht : t.status.ovr = true) :
    s.status.busy = true ∧ ∃ v, x = .host (.write (s.params.cceBase + 0x0C) 4 v) := by
  rcases State.takeTurn_status_cases h with e | ⟨-, -, e⟩ | ⟨-, e⟩ | ⟨v, -, rfl⟩ | ⟨w, hx, rfl⟩
  · rw [e, hs] at ht
    cases ht
  · rw [exec_ovr e, hs] at ht
    cases ht
  · rw [e] at ht
    cases ht
  · rw [State.writeCtrl_ovr, hs, Bool.and_false] at ht
    cases ht
  · rw [State.writeCmd_ovr, hs, Bool.or_false] at ht
    exact ⟨ht, w, hx⟩

/-- After OVR_CLR and after a reset OVR is 0. -/
theorem State.takeTurn_ovr_of_clear {s t : State} {x : Turn} (h : s.takeTurn x = .next t)
    (hx : ctrlWriteWith s.params.cceBase 2 x ∨ resetTurn s.params.cceBase x) : t.status.ovr = false := by
  rw [resetTurn, ctrlWriteWith_iff, ctrlWriteWith_iff] at hx
  rcases hx with ⟨v, rfl, hv⟩ | rfl | rfl | ⟨v, rfl, hv⟩
  · cases (s.takeTurn_ctrl_write v).symm.trans h
    simp [hv]
  · cases h
    rfl
  · cases h
    rfl
  · cases (s.takeTurn_ctrl_write v).symm.trans h
    simp [hv]

/-- A step with a turn on the schedule takes it. -/
theorem step_of_schedule {s : State} {x : Turn} {rest : List Turn} (h : s.schedule = x :: rest) :
    step s = (s.setSchedule rest).takeTurn x := by
  rw [step, h]

end Sys2Proof.Machine
end

section
/-! SUPPORT. RESULT: which commands leave it, and what the three others put there (10_state.md R41). -/

namespace Sys2Proof.Machine

open Sys2Proof.Claims

/-- A result that answers a next state with the registers as they were. -/
def KeepsRegs (s : State) (r : Result) : Prop := ∃ t, r = .next t ∧ t.regs = s.regs

theorem KeepsRegs.raise (s : State) (e : Err) : KeepsRegs s (s.raise e) := ⟨_, rfl, rfl⟩

theorem KeepsRegs.complete {s u : State} (h : u.regs = s.regs) : KeepsRegs s u.complete := ⟨_, rfl, h⟩

theorem KeepsRegs.ite {s : State} {p : Prop} [Decidable p] {a b : Result} (ha : KeepsRegs s a) (hb : KeepsRegs s b) :
    KeepsRegs s (if p then a else b) := by
  split
  · exact ha
  · exact hb

theorem ecbWith_keepsRegs (f : List Byte → List Byte) (s : State) : KeepsRegs s (ecbWith f s) :=
  .ite (.raise _ _) <| .ite (.raise _ _) <| .ite (.raise _ _) <| .complete rfl

theorem cbcWith_keepsRegs (loop : Nat → Nat → Nat → Nat → List Byte → Memory → Memory) (s : State) :
    KeepsRegs s (cbcWith loop s) :=
  .ite (.raise _ _) <| .ite (.raise _ _) <| .ite (.raise _ _) <| .ite (.raise _ _) <| .complete rfl

/-- Every command but CT_EQ, CT_EQB and CELL_OPEN leaves the registers (10_state.md R41). -/
theorem exec_keepsRegs {i : Instr} (h : ¬ (i = .ctEq ∨ i = .ctEqb ∨ i = .cellOpen)) (s : State) :
    KeepsRegs s (exec i s) := by
  cases i with
  | nop => exact .complete rfl
  | ccInit => exact .ite (.raise _ _) <| .ite (.raise _ _) <| .complete rfl
  | ccCombine => exact .ite (.raise _ _) <| .ite (.raise _ _) <| .complete rfl
  | ccDestroy => exact .complete rfl
  | sha1Create => exact .complete rfl
  | sha1Update => exact .ite (.raise _ _) <| .ite (.raise _ _) <| .complete rfl
  | sha1Digest => exact .ite (.raise _ _) <| .ite (.raise _ _) <| .complete rfl
  | sha1Destroy => exact .complete rfl
  | bcSetKey => exact .ite (.raise _ _) <| .ite (.raise _ _) <| .complete rfl
  | bcClear => exact .complete rfl
  | ecbEnc => exact ecbWith_keepsRegs _ s
  | ecbDec => exact ecbWith_keepsRegs _ s
  | cbcEnc => exact cbcWith_keepsRegs _ s
  | cbcDec => exact cbcWith_keepsRegs _ s
  | ctEq => exact absurd (.inl rfl) h
  | ctEqb => exact absurd (.inr (.inl rfl)) h
  | cellOpen => exact absurd (.inr (.inr rfl)) h
  | cellClose =>
    show KeepsRegs s (execCellClose s)
    cases hc : s.openCell s.argSrc with
    | none => exact ⟨_, execCellClose_misuse hc, rfl⟩
    | some c => exact ⟨_, execCellClose_ok hc, rfl⟩
  | zeroize => exact .ite (.raise _ _) <| .complete rfl
  | unimplHash2 k => exact .raise _ _
  | unimplRsa k => exact .raise _ _
  | unimplOther w => exact .raise _ _

/-- A command that changes the registers completes without error, and is one of the three (10_state.md R41). -/
theorem exec_changes_regs {i : Instr} {s t : State} (h : exec i s = .next t) (hr : t.regs ≠ s.regs) :
    t.status.err = false ∧ (i = .ctEq ∨ i = .ctEqb ∨ i = .cellOpen) := by
  constructor
  · obtain ⟨e, h'⟩ | ⟨v, cc, sha, bc, cells, m, h'⟩ := exec_ends i s
    · cases h.symm.trans h'
      exact absurd rfl hr
    · cases h.symm.trans h'
      rfl
  · by_contra hi
    obtain ⟨u, hu, hregs⟩ := exec_keepsRegs hi s
    cases h.symm.trans hu
    exact hr hregs

/-! CT_EQ and CT_EQB. -/

/-- The comparator answers whether two bytes are equal (43_ct_equality.md R170). -/
theorem ctEqByte_eq_ite (x y : Byte) : ctEqByte x y = if x = y then 1 else 0 := by
  have hzero : ∀ z : Byte, ctEqByte z 0 = if z = 0 then 1 else 0 := by decide
  rw [ctEqByte_xor, hzero]
  simp only [show (0 : Byte) = 0#8 from rfl, BitVec.xor_eq_zero_iff]

/-- The RESULT of a comparison whose accumulator is given (43_ct_equality.md R171, R173). -/
theorem setWidth_ctEqByte (x y : Byte) : (ctEqByte x y).setWidth 32 = if x = y then (1 : Word) else 0 := by
  rw [ctEqByte_eq_ite]
  split <;> rfl

/-- Two reads agree just when their lengths and all their bytes do. -/
theorem Memory.readBytes_eq_iff {m : Memory} {a b n k : Nat} :
    m.readBytes a n = m.readBytes b k ↔ n = k ∧ ∀ i < n, m.read (a + i) = m.read (b + i) := by
  constructor
  · intro h
    obtain rfl : n = k := by simpa using congrArg List.length h
    refine ⟨rfl, fun i hi => ?_⟩
    rw [← m.readBytes_getD a hi 0, h, m.readBytes_getD b hi 0]
  · rintro ⟨rfl, h⟩
    exact Memory.readBytes_congr h

/-- The pass of CT_EQ accumulates 0 just when the sequences are equal (43_ct_equality.md R171). -/
theorem State.eqPass_eq_zero {s : State} (hl : s.argLen = s.argAuxlen) :
    s.eqPass.1 = 0 ↔ s.dbuf.readBytes s.argSrc s.argLen = s.dbuf.readBytes s.argAux s.argAuxlen := by
  rw [State.eqPass, eqScan_eq_zero, Memory.readBytes_eq_iff]
  exact and_congr_left fun _ => iff_of_true rfl hl

/-- A CT_EQ without error leaves whether the two sequences are equal in RESULT (43_ct_equality.md R171). -/
theorem execCtEq_result {s t : State} (h : execCtEq s = .next t) (he : t.status.err = false) :
    t.regs.result = if s.dbuf.readBytes s.argSrc s.argLen = s.dbuf.readBytes s.argAux s.argAuxlen then 1 else 0 := by
  by_cases hr : s.InRange s.argSrc s.argLen ∧ s.InRange s.argAux s.argAuxlen
  · by_cases hl : s.argLen = s.argAuxlen
    · rw [execCtEq_ok hr.1 hr.2 hl] at h
      cases h
      show (ctEqByte s.eqPass.1 0).setWidth 32 = _
      rw [setWidth_ctEqByte]
      exact if_congr (State.eqPass_eq_zero hl) rfl rfl
    · rw [execCtEq_lengths hr.1 hr.2 hl] at h
      cases h
      rw [if_neg fun heq => hl (Memory.readBytes_eq_iff.1 heq).1]
      rfl
  · rw [execCtEq_range (by tauto)] at h
    cases h
    cases he

/-- A CT_EQB without error leaves whether the two bytes are equal in RESULT (43_ct_equality.md R173). -/
theorem execCtEqb_result {s t : State} (h : execCtEqb s = .next t) (he : t.status.err = false) :
    t.regs.result = if s.dbuf.read s.argSrc = s.dbuf.read s.argAux then 1 else 0 := by
  by_cases hr : s.InRange s.argSrc 1 ∧ s.InRange s.argAux 1
  · rw [execCtEqb_ok hr.1 hr.2] at h
    cases h
    exact setWidth_ctEqByte _ _
  · rw [execCtEqb_range (by tauto)] at h
    cases h
    cases he

/-! CELL_OPEN. -/

/-- Whether a cell that exists is open below NCELLS. -/
theorem cellIsOpen_of_getElem? {s : State} {i : Nat} {c : SecCell} (h : s.cells[i]? = some c) :
    cellIsOpen s i = (decide (i < s.params.nCells) && c.isOpen) := by
  rw [cellIsOpen, h]
  rfl

/-- A CELL_OPEN without error found a free cell and opened it (44_secure_memory.md R181). -/
theorem execCellOpen_inv {s t : State} (h : execCellOpen s = .next t) (he : t.status.err = false) :
    ∃ i, freeCell s.params.nCells s.cells = some i ∧
      t = ((s.setCells (s.cells.set i { isOpen := true, base := s.latch.aux, len := s.latch.auxlen })).setResult
        (BitVec.ofNat 32 i)).completed := by
  by_cases hl : s.argAuxlen = 0
  · rw [execCellOpen_length hl] at h
    cases h
    cases he
  · by_cases hr : s.InRange s.argAux s.argAuxlen
    · cases hf : freeCell s.params.nCells s.cells with
      | none =>
        rw [execCellOpen_full hl hr hf] at h
        cases h
        cases he
      | some i => exact ⟨i, rfl, Host.Outcome.next.inj (h.symm.trans (execCellOpen_ok hl hr hf))⟩
    · rw [execCellOpen_range hl hr] at h
      cases h
      cases he

/-- A CELL_OPEN without error leaves in RESULT the index of a cell that was closed and is now open (44_secure_memory.md
R181). -/
theorem execCellOpen_result {s t : State} (h : execCellOpen s = .next t) (he : t.status.err = false)
    (hn : s.params.nCells ≤ 8) :
    cellIsOpen s t.regs.result.toNat = false ∧ cellIsOpen t t.regs.result.toNat = true := by
  obtain ⟨i, hf, rfl⟩ := execCellOpen_inv h he
  obtain ⟨hi, ⟨c, hc, hclosed⟩, -⟩ := freeCell_some hf
  obtain ⟨hlen, -⟩ := List.getElem?_eq_some_iff.1 hc
  have hindex : (BitVec.ofNat 32 i).toNat = i := by rw [BitVec.toNat_ofNat]; omega
  show cellIsOpen s (BitVec.ofNat 32 i).toNat = false ∧ cellIsOpen _ (BitVec.ofNat 32 i).toNat = true
  rw [hindex, cellIsOpen_of_getElem? hc, cellIsOpen_of_getElem? (List.getElem?_set_self hlen)]
  simp [hclosed, hi]

end Sys2Proof.Machine
end

section
/-! THEOREMS. The obligations about the state of the CCE (10_state.md). -/

namespace Sys2Proof.Machine

open Sys2Proof.Claims

/-- Settles O16: a command that changes the registers is one of the three and ends without error; each of the three has
an equation for RESULT; the write falls on a read-only offset. -/
theorem resultIsWrittenByThreeCommandsOnly : Obligations.ResultIsWrittenByThreeCommandsOnly :=
  ⟨fun _ _ _ h hr => exec_changes_regs h fun hregs => hr (congrArg Regs.result hregs),
    fun _ _ h he => execCtEq_result h he,
    fun _ _ h he => execCtEqb_result h he,
    fun _ _ h he hn => execCellOpen_result h he hn,
    fun s v => by rw [s.hostAccess_write_register 0x24, s.regWrite_ignored v (by decide)],
    fun _ => ⟨rfl, rfl⟩⟩

/-- Settles O54: each bit is read off `State.getLsbD_statusWord`, and a field bit by bit. -/
theorem statusWordHoldsItsFields : Obligations.StatusWordHoldsItsFields := by
  intro s _
  have bit := s.getLsbD_statusWord
  refine ⟨?busy, ?done, ?err, ?ovr, extractLsb'_eq_of_getLsbD fun i hi => ?errCode, ?ccKeyed, ?shaSt, ?bcKeyed,
    extractLsb'_eq_of_getLsbD fun i hi => ?reservedLow, fun i hi => ?cell,
    extractLsb'_eq_of_getLsbD fun i hi => ?reservedHigh, State.reset.clearUnits_statusWord⟩
  case shaSt =>
    trans s.sha.st.code
    · refine extractLsb'_eq_of_getLsbD fun i hi => ?_
      rw [bit]
      interval_cases i <;> simp
    · cases s.sha.st <;> rfl
  case cell =>
    rw [bit, show 16 + i - 16 = i by omega, getLsbD_cellsOpenField, cellIsOpen]
    interval_cases i <;> simp
  case errCode | reservedLow | reservedHigh =>
    rw [bit]
    interval_cases i <;> simp
  all_goals
    rw [bit]
    simp

/-- Settles O55: each host access and command by its equation for IRQ. -/
theorem irqFollowsEnableAndDone : Obligations.IrqFollowsEnableAndDone := by
  intro s
  refine ⟨Bool.and_eq_true_iff, fun _ _ h => exec_irq h, fun w t h => ?_, fun v t h => ?_, rfl, rfl, fun off n t h => ?_⟩
  · cases (s.hostAccess_write_register 0x0C w).symm.trans h
    exact s.writeCmd_irq w
  · cases (s.hostAccess_write_register 0x04 v).symm.trans h
    exact s.writeCtrl_irq v
  · obtain ⟨v, rfl⟩ := State.hostAccess_read_next h
    rfl

/-- Settles O56: the step takes the turn, and each clause is a lemma about the turn. -/
theorem overrunIsSticky : Obligations.OverrunIsSticky := by
  intro s t x rest hsched h
  rw [step_of_schedule hsched] at h
  refine ⟨State.takeTurn_clears_ovr (s := s.setSchedule rest) h, State.takeTurn_sets_ovr (s := s.setSchedule rest) h,
    fun v hb hx => ?_, State.takeTurn_ovr_of_clear (s := s.setSchedule rest) h⟩
  subst hx
  cases ((s.setSchedule rest).takeTurn_cmd_write v).symm.trans h
  simp [hb]

/-- Settles O5: each register's read is `State.regRead` at its offset, and a reset ends with `State.clearUnits`. -/
theorem registerMapReadsAndResets : Obligations.RegisterMapReadsAndResets := by
  refine ⟨fun s => ?_, fun s r hr => ?_⟩
  · refine ⟨s.hostAccess_read_register 0x00, s.hostAccess_read_register 0x04, s.hostAccess_read_register 0x08,
      s.hostAccess_read_register 0x0C, s.hostAccess_read_register 0x10, s.hostAccess_read_register 0x14,
      s.hostAccess_read_register 0x18, s.hostAccess_read_register 0x1C, s.hostAccess_read_register 0x20,
      s.hostAccess_read_register 0x24,
      fun off h28 ho ha => ⟨?_, fun v => ?_⟩, fun v => ⟨s.hostAccess_write_register 0x00 v,
        s.hostAccess_write_register 0x08 v, s.hostAccess_write_register 0x24 v⟩⟩
    · rw [s.hostAccess_read_register off ho ha, s.regRead_reserved h28]
    · rw [s.hostAccess_write_register off v ho ha, s.regWrite_ignored v (by omega)]
  · obtain ⟨u, rfl⟩ : ∃ u : State, r = u.clearUnits := by
      simp only [List.mem_cons, List.not_mem_nil, or_false] at hr
      rcases hr with rfl | rfl | rfl
      · exact ⟨_, State.reset_eq_clearUnits⟩
      · exact s.warmReset_eq_clearUnits
      · exact s.powerOnReset_eq_clearUnits
    exact ⟨congrArg answer (u.clearUnits.hostAccess_read_register 0x00),
      fun off h0 ho ha => u.answer_clearUnits (Nat.ne_of_gt h0) ho ha⟩

/-- Settles O47: a CTRL write is `State.writeCtrl`, with and without SRST. -/
theorem ctrlWriteStoresEnableAndActs : Obligations.CtrlWriteStoresEnableAndActs := by
  intro s v
  have hw : s.hostAccess (.write 0x04 4 v) = .next (s.writeCtrl v) := s.hostAccess_write_register 0x04 v
  refine ⟨fun h => ⟨?_, rfl⟩, fun h => ⟨s.writeCtrl v, hw, ?_⟩, s.hostAccess_read_register 0x04, rfl⟩
  · rw [hw, State.writeCtrl_of_reset h]
  · rw [State.writeCtrl_of_no_reset h]
    refine ⟨rfl, rfl, rfl, rfl, rfl, ?_, ?_⟩
    · cases v.getLsbD 2 <;> simp
    · cases v.getLsbD 3 <;> simp

/-- Settles O48: a write of each argument register stores it, a read of it is that field, and after a reset it is 0. -/
theorem argumentRegistersStoreTheWholeValue : Obligations.ArgumentRegistersStoreTheWholeValue := by
  intro s v off hoff
  simp only [List.mem_cons, List.not_mem_nil, or_false] at hoff
  obtain ⟨u, hu⟩ := s.warmReset_eq_clearUnits
  obtain ⟨u', hu'⟩ := s.powerOnReset_eq_clearUnits
  rw [hu, hu']
  rcases hoff with rfl | rfl | rfl | rfl | rfl <;>
    exact ⟨_, s.hostAccess_write_register _ v, rfl, congrArg answer (State.hostAccess_read_register _ _),
      u.answer_clearUnits (by decide) (by decide) (by decide), u'.answer_clearUnits (by decide) (by decide) (by decide)⟩

end Sys2Proof.Machine
end

section
/-! SUPPORT. Host accesses that are not performed (20_memory.md R62, R63). -/

namespace Sys2Proof.Machine

/-- A read that is not performed answers 0 (20_memory.md R62). -/
theorem State.hostAccess_read_nowhere {s : State} {off : BitVec 17} {n : Nat}
    (h : targetOf s.params.dbufSize off.toNat n = .nowhere) :
    s.hostAccess (.read off n) = .next (s.setLastRead (some 0)) := by
  rw [State.hostAccess, h]

/-- A write that is not performed is ignored (20_memory.md R62). -/
theorem State.hostAccess_write_nowhere {s : State} {off : BitVec 17} {n : Nat} (v : Word)
    (h : targetOf s.params.dbufSize off.toNat n = .nowhere) : s.hostAccess (.write off n v) = .next s := by
  rw [State.hostAccess, h]

end Sys2Proof.Machine
end

section
/-! THEOREMS. The obligations about the host's accesses to the window (20_memory.md). -/

namespace Sys2Proof.Machine

open Sys2Proof.Claims

/-- Settles O49: the access goes nowhere (`targetOf_malformed`), whatever the state. -/
theorem malformedRegisterAccessDoesNothing : Obligations.MalformedRegisterAccessDoesNothing := by
  intro s off n v ho hbad
  have hnowhere : targetOf s.params.dbufSize off.toNat n = .nowhere := targetOf_malformed ho hbad
  exact ⟨State.hostAccess_read_nowhere hnowhere, State.hostAccess_write_nowhere v hnowhere⟩

end Sys2Proof.Machine
end

section
/-! SUPPORT. The decoding of a word with RSV = 0, and a CMD write: what it does while BUSY and while idle, and what the
engine runs after it (30_encoding.md R84 to R86). -/

namespace Sys2Proof.Machine

/-- A word below 256 decodes by its OP field (30_encoding.md R86). -/
theorem decode_of_lt (w : Word) (h : w.toNat < 256 := by decide) : decode w = decodeOp w w.toNat :=
  decode_of_op (rsvField_of_lt h)

/-- A 4-byte write at the offset of CMD is `State.writeCmd` (10_state.md R22). -/
theorem State.hostAccess_cmd_write (s : State) (w : Word) : s.hostAccess (.write 0x0C 4 w) = .next (s.writeCmd w) :=
  s.hostAccess_write_register 0x0C w

/-- The command in the latch is the one that the issued word decodes to (30_encoding.md R84). -/
@[simp] theorem State.issue_latched (s : State) (w : Word) : (s.issue w).latched = decode w :=
  congrArg decode (rsv_append_op w)

/-- After an accepted CMD write the engine runs the word's command (30_encoding.md R84). -/
theorem State.issue_engineTurn (s : State) (w : Word) : (s.issue w).engineTurn = exec (decode w) (s.issue w) :=
  calc (s.issue w).engineTurn
    _ = exec (s.issue w).latched (s.issue w) := if_pos rfl
    _ = exec (decode w) (s.issue w) := by rw [State.issue_latched]

end Sys2Proof.Machine
end

section
/-! THEOREMS. The obligations about command words and CMD writes (30_encoding.md). -/

namespace Sys2Proof.Machine

/-- Settles O1: every word but 0x101 is below 256 and decodes by its OP field, and 0x101 has RSV = 1. -/
theorem opcodeMapWordsDecode : Obligations.OpcodeMapWordsDecode :=
  ⟨decode_of_lt 0x00, decode_of_lt 0x01, decode_of_lt 0x02, decode_of_lt 0x03, decode_of_lt 0x10, decode_of_lt 0x11,
    decode_of_lt 0x12, decode_of_lt 0x13, decode_of_lt 0x20, decode_of_lt 0x21, decode_of_lt 0x22, decode_of_lt 0x23,
    decode_of_lt 0x24, decode_of_lt 0x25, decode_of_lt 0x30, decode_of_lt 0x31, decode_of_lt 0x40, decode_of_lt 0x41,
    decode_of_lt 0x42, decode_of_lt 0x18, decode_of_lt 0x1F, decode_of_lt 0x50, decode_of_lt 0x5F,
    decode_of_rsvField (by decide), decode_of_lt 0xFF⟩

/-- Settles O45: while idle the CMD write is `State.issue`, whose command the engine runs. -/
theorem acceptedCmdWriteLatchesAndRuns : Obligations.AcceptedCmdWriteLatchesAndRuns := by
  intro s w hidle
  refine ⟨s.issue w, ?_, rfl, s.issue_engineTurn w⟩
  rw [s.hostAccess_cmd_write, State.writeCmd_idle hidle]

/-- Settles O46: while BUSY the CMD write only sets OVR (`State.writeCmd_busy`). -/
theorem cmdWriteWhileBusyOnlySetsOverrun : Obligations.CmdWriteWhileBusyOnlySetsOverrun := by
  intro s w hbusy
  rw [s.hostAccess_cmd_write, State.writeCmd_busy hbusy]
  rfl

end Sys2Proof.Machine
end

section
/-! SUPPORT. BC_SETKEY's accepted lengths and loaded bytes, and the block modes as runs over blocks in the terms of the
statements (40_block_modes.md R101, R104 to R107). -/

namespace Sys2Proof.Machine

open Sys2Proof.Claims

/-- The accepted key lengths, one by one (40_block_modes.md R101). -/
theorem keySizeOk_iff {p : Params} {n : Nat} :
    keySizeOk p n = true ↔
      (n = 16 ∧ p.key16 = true) ∨ (n = 24 ∧ p.key24 = true) ∨ (n = 32 ∧ p.key32 = true) := by
  simp [keySizeOk, or_assoc]

/-- Byte `i` of BC_KEY when the key comes from the data buffer (40_block_modes.md R101). -/
theorem padKey_readBytes (m : Memory) (a n : Nat) (i : Fin 32) :
    (padKey (m.readBytes a n))[i] = if i.val < n then m.read (a + i.val) else 0 := by
  rw [Fin.getElem_fin, padKey_getElem]
  split
  next hlt => exact m.readBytes_getD a hlt 0
  next hge => exact List.getD_eq_default _ _ (by rw [Memory.readBytes_length]; omega)

/-- The data buffers of a run over blocks are those of its blocks, each by what is carried to it. -/
theorem blockRun_isBlockRun (g : List Byte → List Byte → List Byte × List Byte) (b src dst : Nat) (p : List Byte)
    (m : Memory) (n : Nat) :
    BlockRun b src dst n (fun j x => (g (blockRun g b src dst p m j).1 x).1) fun j => (blockRun g b src dst p m j).2 :=
  fun _ _ => rfl

/-- An ECB command that passes its checks, for a cipher function that answers whole blocks (40_block_modes.md R104,
R105). -/
theorem ecbWith_run {f : List Byte → List Byte} {s : State} (hf : ∀ x, (f x).length = s.params.blockSize)
    (hk : s.bc.keyed = true) (hl : s.argLen % s.params.blockSize = 0) (h1 : s.InRange s.argSrc s.argLen)
    (h2 : s.InRange s.argDst s.argLen) :
    ∃ M : Nat → Memory, ecbWith f s = .next (completed { s with dbuf := M (s.argLen / s.params.blockSize) }) ∧
      M 0 = s.dbuf ∧
      BlockRun s.params.blockSize s.argSrc s.argDst (s.argLen / s.params.blockSize) (fun _ => f) M ∧
      ∀ a, a < s.argDst ∨ s.argDst + s.argLen ≤ a → (M (s.argLen / s.params.blockSize)).read a = s.dbuf.read a := by
  have hblocks : s.argLen / s.params.blockSize * s.params.blockSize = s.argLen :=
    Nat.div_mul_cancel (Nat.dvd_of_mod_eq_zero hl)
  refine ⟨_, ?_, rfl, blockRun_isBlockRun (fun _ x => (f x, [])) _ _ _ [] s.dbuf _, fun a ha => ?_⟩
  · rw [ecbWith_ok hk hl h1 h2, ecbLoop_eq_run]
    rfl
  · exact blockRun_outside (fun _ => True) trivial (fun _ x _ _ => ⟨trivial, hf x⟩) _ (by rwa [hblocks])

/-- A CBC command that passes its checks, for a loop that is a run over blocks: `P j` is BC_PREV before block `j`
(40_block_modes.md R106, R107). -/
theorem cbcWith_run {loop : Nat → Nat → Nat → Nat → List Byte → Memory → Memory}
    {g : List Byte → List Byte → List Byte × List Byte} {s : State}
    (hloop : ∀ b n src dst p m, loop b n src dst p m = (blockRun g b src dst p m n).2)
    (hg : ∀ p x, p.length = s.params.blockSize → x.length = s.params.blockSize →
      (g p x).2.length = s.params.blockSize ∧ (g p x).1.length = s.params.blockSize)
    (hk : s.bc.keyed = true) (hi : s.argAuxlen = s.params.blockSize) (hl : s.argLen % s.params.blockSize = 0)
    (h0 : s.InRange s.argAux s.params.blockSize) (h1 : s.InRange s.argSrc s.argLen)
    (h2 : s.InRange s.argDst s.argLen) :
    ∃ (M : Nat → Memory) (P : Nat → List Byte),
      cbcWith loop s = .next (completed { s with
        dbuf := M (s.argLen / s.params.blockSize),
        bc := { s.bc with prev := List.replicate s.params.blockSize 0 } }) ∧
      M 0 = s.dbuf ∧ P 0 = s.dbuf.readBytes s.argAux s.params.blockSize ∧
      (∀ j < s.argLen / s.params.blockSize, P (j + 1) =
        (g (P j) ((M j).readBytes (s.argSrc + j * s.params.blockSize) s.params.blockSize)).2) ∧
      BlockRun s.params.blockSize s.argSrc s.argDst (s.argLen / s.params.blockSize) (fun j x => (g (P j) x).1) M ∧
      ∀ a, a < s.argDst ∨ s.argDst + s.argLen ≤ a → (M (s.argLen / s.params.blockSize)).read a = s.dbuf.read a := by
  have hblocks : s.argLen / s.params.blockSize * s.params.blockSize = s.argLen :=
    Nat.div_mul_cancel (Nat.dvd_of_mod_eq_zero hl)
  have hiv : (s.dbuf.readBytes s.argAux s.params.blockSize).length = s.params.blockSize := by simp
  refine ⟨_, _, ?_, rfl, rfl, fun _ _ => rfl,
    blockRun_isBlockRun g _ _ _ (s.dbuf.readBytes s.argAux s.params.blockSize) s.dbuf _, fun a ha => ?_⟩
  · rw [cbcWith_ok hk hi hl h0 h1 h2, hloop]
    rfl
  · exact blockRun_outside _ hiv hg _ (by rwa [hblocks])

end Sys2Proof.Machine
end

section
/-! THEOREMS. The obligations about the block modes (40_block_modes.md). -/

namespace Sys2Proof.Machine

open Sys2Proof.Claims

/-- Settles O28: the equations of BC_SETKEY, with the accepted lengths read off `keySizeOk_iff`. -/
theorem setKeyLoadsTheKey : Obligations.SetKeyLoadsTheKey := by
  intro s ok
  have hok : keySizeOk s.params s.argAuxlen = true ↔ ok := keySizeOk_iff
  exact ⟨fun h => execBcSetKey_length (Bool.eq_false_iff.2 (hok.not.2 h)),
    fun h hr => execBcSetKey_range (hok.2 h) hr,
    fun h hr => ⟨_, execBcSetKey_ok (hok.2 h) hr, rfl, rfl, rfl, padKey_readBytes s.dbuf s.argAux s.argAuxlen⟩⟩

/-- Settles O29: both commands are `ecbWith` for a cipher function that answers whole blocks. -/
theorem ecbTransformsBlocksInOrder : Obligations.EcbTransformsBlocksInOrder := by
  intro s x hx
  simp only [List.mem_cons, List.not_mem_nil, or_false] at hx
  rcases hx with rfl | rfl
  · exact ⟨ecbWith_misuse, ecbWith_length, ecbWith_range, ecbWith_run (portEnc_length _ _ _)⟩
  · exact ⟨ecbWith_misuse, ecbWith_length, ecbWith_range, ecbWith_run (portDec_length _ _ _)⟩

/-- Settles O30: CBC_ENC carries the block that it writes, so the block written is the next carried one. -/
theorem cbcEncChainsOnTheCiphertext : Obligations.CbcEncChainsOnTheCiphertext := by
  intro s
  refine ⟨cbcWith_misuse, cbcWith_iv, cbcWith_length, cbcWith_range, fun hk hi hl h0 h1 h2 => ?_⟩
  obtain ⟨M, P, hexec, hM, hP, hcarry, hrun, hframe⟩ :=
    cbcWith_run (cbcEncLoop_eq_run (portEnc Config.cipher s.params.blockSize s.bc.loadedKey))
      (fun _ _ _ _ => ⟨portEnc_length _ _ _ _, portEnc_length _ _ _ _⟩) hk hi hl h0 h1 h2
  refine ⟨M, P, hexec, hM, hP, hcarry, fun j hj => ?_, hframe⟩
  exact (hrun j hj).trans (congrArg ((M j).writeBytes _) (hcarry j hj).symm)

/-- Settles O31: CBC_DEC carries the block that it reads. -/
theorem cbcDecChainsOnTheCiphertextRead : Obligations.CbcDecChainsOnTheCiphertextRead := by
  intro s
  refine ⟨cbcWith_misuse, cbcWith_iv, cbcWith_length, cbcWith_range,
    cbcWith_run (cbcDecLoop_eq_run (portDec Config.cipher s.params.blockSize s.bc.loadedKey)) fun p c hp hc => ?_⟩
  exact ⟨hc, by simp [hp]⟩

end Sys2Proof.Machine
end

section
/-! SUPPORT. CC_COMBINE in the terms of the statements (41_chacha20.md R121, R123): the keystream ahead of a unit, the
block for the counter before the current one, and the input byte as it stands when the loop reaches it. -/

namespace Sys2Proof.Machine

open Sys2Proof.Claims

/-- The key byte of a unit that consumed `n` bytes is byte `n` of the keystream that was ahead of it. -/
theorem CcUnit.consumed_keyByte (u : CcUnit) (n : Nat) : (u.consumed n).keyByte = streamByte u n := by
  obtain ⟨-, hcur, -, hks⟩ := u.consumed_spec n
  have hbyte : (u.consumed n).keyByte = (u.consumed n).ks.toList.getD ((u.cur.toNat + n) % 64) 0 := by
    have hlt : (u.cur.toNat + n) % 64 < 64 := Nat.mod_lt _ (by decide)
    simp [CcUnit.keyByte, hcur, hlt]
  rw [hbyte, hks, streamByte]
  split
  next hlt => rw [Nat.mod_eq_of_lt hlt]
  next => rfl

/-- Once the cursor has wrapped, the block of a unit is the one for the counter before its current one. -/
theorem CcUnit.consumed_ks (u : CcUnit) (n : Nat) :
    (u.consumed n).ks = if u.cur.toNat + n < 64 then u.ks
      else keystreamBlock (withCounter (u.consumed n).s (counterOf (u.consumed n).s - 1)) := by
  obtain ⟨-, -, hs, hks⟩ := u.consumed_spec n
  rw [hks, hs, counterOf_withCounter, withCounter_withCounter]
  split
  next => rfl
  next hwrap =>
    have hprev : BitVec.ofNat 64 ((u.cur.toNat + n) / 64) = BitVec.ofNat 64 ((u.cur.toNat + n) / 64 - 1) + 1 := by
      rw [← Nat.sub_add_cancel (show 1 ≤ (u.cur.toNat + n) / 64 by omega), BitVec.ofNat_add, Nat.add_sub_cancel]
      rfl
    rw [hprev, ← BitVec.add_assoc, BitVec.add_sub_cancel]

/-- The input byte that the loop reads at position `i`: with SRC below DST, an address from DST on holds an output byte
that is already final; every other address holds what it held before the loop. -/
theorem combineLoop_input {n i : Nat} (src dst : Nat) (u : CcUnit) (m : Memory) (h : i ≤ n) :
    ((combineLoop i src dst u m).2).read (src + i) =
      if src < dst ∧ dst ≤ src + i then ((combineLoop n src dst u m).2).read (src + i) else m.read (src + i) := by
  split
  next hover =>
    obtain ⟨k, rfl⟩ := Nat.exists_eq_add_of_le h
    exact (combineLoop_stable i k src dst u m (by omega)).symm
  next hfree => exact combineLoop_outside i src dst u m (by omega)

end Sys2Proof.Machine
end

section
/-! THEOREMS. The obligations about the CC unit (41_chacha20.md). -/

namespace Sys2Proof.Machine

open Sys2Proof.Claims

/-- Settles O21: the equations of CC_COMBINE, with the loop's bytes by position and the unit by the bytes consumed. -/
theorem ccCombineXorsTheKeystream : Obligations.CcCombineXorsTheKeystream := by
  intro s
  refine ⟨execCcCombine_misuse, execCcCombine_range, fun hk h1 h2 => ⟨s.cc.consumed s.argLen,
    (combineLoop s.argLen s.argSrc s.argDst s.cc s.dbuf).2, ?exec, fun i hi => ?byte,
    fun a ha => combineLoop_outside _ _ _ _ _ ha, ?unit⟩⟩
  case exec =>
    rw [← combineLoop_unit s.argLen s.argSrc s.argDst s.cc s.dbuf]
    exact execCcCombine_ok hk h1 h2
  case byte =>
    rw [combineLoop_byte _ _ _ _ hi, combineLoop_input _ _ _ _ hi.le, CcUnit.consumed_keyByte]
  case unit =>
    obtain ⟨hkeyed, hcur, hs, -⟩ := s.cc.consumed_spec s.argLen
    exact ⟨hkeyed.trans hk, hcur, hs, s.cc.consumed_ks s.argLen⟩

end Sys2Proof.Machine
end

section
/-! SUPPORT. The compression of a block word by word and step by step: the message schedule, the 80 steps with the
functions and constants of their rounds (42_sha1.md R141). -/

namespace Sys2Proof.Machine

open Sys2Proof.Claims

/-! The message schedule. -/

/-- Word `t` of a block is its bytes `4 t` to `4 t + 3`, the first the most significant (42_sha1.md R141). -/
theorem blockWordsBE_getD (blk : List Byte) {t : Nat} (h : 4 * t + 3 < blk.length) :
    (blockWordsBE blk).getD t 0 =
      be32 (blk.getD (4 * t) 0) (blk.getD (4 * t + 1) 0) (blk.getD (4 * t + 2) 0) (blk.getD (4 * t + 3) 0) := by
  induction blk using blockWordsBE.induct generalizing t with
  | case1 b0 b1 b2 b3 rest ih =>
    cases t with
    | zero => rfl
    | succ t => exact ih (by simp only [List.length_cons] at h; omega)
  | case2 blk hshort =>
    match blk, h with
    | b0 :: b1 :: b2 :: b3 :: rest, _ => exact absurd rfl (hshort b0 b1 b2 b3 rest)

/-- A block of `n` words has `n` of them. -/
theorem blockWordsBE_length {blk : List Byte} {n : Nat} (h : blk.length = 4 * n) : (blockWordsBE blk).length = n := by
  induction n generalizing blk with
  | zero => rw [List.eq_nil_of_length_eq_zero h]; rfl
  | succ n ih =>
    match blk, h with
    | b0 :: b1 :: b2 :: b3 :: rest, h =>
      exact congrArg (· + 1) (ih (by simpa [Nat.mul_succ] using h))

@[simp] theorem extendSchedule_length (n : Nat) (w : List Word) : (extendSchedule n w).length = w.length + n := by
  induction n generalizing w with
  | zero => rfl
  | succ n ih => rw [extendSchedule, ih, List.length_append, List.length_singleton]; omega

/-- Extending the schedule keeps the words it has. -/
theorem extendSchedule_getD (n : Nat) (w : List Word) {t : Nat} (h : t < w.length) :
    (extendSchedule n w).getD t 0 = w.getD t 0 := by
  induction n generalizing w with
  | zero => rfl
  | succ n ih => rw [extendSchedule, ih _ (by simpa using Nat.lt_succ_of_lt h), List.getD_append _ _ _ _ h]

/-- Every word that is added comes from four words of the schedule before it (42_sha1.md R141). -/
theorem extendSchedule_recurrence (n : Nat) (w : List Word) (h16 : 16 ≤ w.length) {t : Nat} (hw : w.length ≤ t)
    (ht : t < w.length + n) :
    (extendSchedule n w).getD t 0 =
      rotl32 ((extendSchedule n w).getD (t - 3) 0 ^^^ (extendSchedule n w).getD (t - 8) 0 ^^^
        (extendSchedule n w).getD (t - 14) 0 ^^^ (extendSchedule n w).getD (t - 16) 0) 1 := by
  induction n generalizing w with
  | zero => omega
  | succ n ih =>
    rcases Nat.eq_or_lt_of_le hw with rfl | hlt
    · have old : ∀ k, 0 < k → k ≤ 16 → (extendSchedule (n + 1) w).getD (w.length - k) 0 = w.getD (w.length - k) 0 :=
        fun k h0 hk => extendSchedule_getD _ _ (by omega)
      rw [old 3 (by decide) (by decide), old 8 (by decide) (by decide), old 14 (by decide) (by decide),
        old 16 (by decide) (by decide), extendSchedule, extendSchedule_getD _ _ (by simp),
        List.getD_append_right _ _ _ _ (Nat.le_refl _), Nat.sub_self]
      rfl
    · exact ih _ (by simp; omega) (by simpa using hlt) (by simp; omega)

@[simp] theorem messageSchedule_length {blk : List Byte} (h : blk.length = 64) : (messageSchedule blk).length = 80 := by
  rw [messageSchedule, extendSchedule_length, blockWordsBE_length (n := 16) h]

/-- The first 16 words of the schedule are the block's (42_sha1.md R141). -/
theorem messageSchedule_getD {blk : List Byte} (h : blk.length = 64) {t : Nat} (ht : t < 16) :
    (messageSchedule blk).getD t 0 =
      be32 (blk.getD (4 * t) 0) (blk.getD (4 * t + 1) 0) (blk.getD (4 * t + 2) 0) (blk.getD (4 * t + 3) 0) := by
  rw [messageSchedule, extendSchedule_getD _ _ (by rwa [blockWordsBE_length (n := 16) h]),
    blockWordsBE_getD _ (by omega)]

/-- The other 64 words of the schedule come from those before them (42_sha1.md R141). -/
theorem messageSchedule_recurrence {blk : List Byte} (h : blk.length = 64) {t : Nat} (h16 : 16 ≤ t) (ht : t < 80) :
    (messageSchedule blk).getD t 0 =
      rotl32 ((messageSchedule blk).getD (t - 3) 0 ^^^ (messageSchedule blk).getD (t - 8) 0 ^^^
        (messageSchedule blk).getD (t - 14) 0 ^^^ (messageSchedule blk).getD (t - 16) 0) 1 := by
  have hlen : (blockWordsBE blk).length = 16 := blockWordsBE_length h
  exact extendSchedule_recurrence 64 _ (by omega) (by omega) (by omega)

/-! The steps. -/

/-- A step's function and constant are those of its round of 20 (42_sha1.md R141). -/
theorem roundF_roundK_eq (t : Nat) : (roundF t, roundK t) = sha1Round (t / 20) := by
  unfold roundF roundK
  generalize t / 20 = r
  match r with
  | 0 | 1 | 2 | _ + 3 => rfl

/-- The working variables as the statements write them. -/
def Working.toTuple (v : Working) : Word × Word × Word × Word × Word := (v.a, v.b, v.c, v.d, v.e)

/-- One step on the working variables as the statements write it (42_sha1.md R141). -/
theorem compressStep_toTuple (t : Nat) (w : Word) {v : Working} {a b c d e : Word} (h : v.toTuple = (a, b, c, d, e)) :
    (compressStep t w v).toTuple =
      (rotl32 a 5 + (sha1Round (t / 20)).1 b c d + e + w + (sha1Round (t / 20)).2, a, rotl32 b 30, c, d) := by
  cases h
  rw [← roundF_roundK_eq]
  rfl

/-- The final additions as the statements write them (42_sha1.md R141). -/
theorem addWorking_toTuple (h : Vector Word 5) (v : Working) :
    addWorking h v = #v[h[0] + v.toTuple.1, h[1] + v.toTuple.2.1, h[2] + v.toTuple.2.2.1, h[3] + v.toTuple.2.2.2.1,
      h[4] + v.toTuple.2.2.2.2] := rfl

/-- The step for the last word comes after those for the words before it. -/
theorem compressSteps_concat (t : Nat) (ws : List Word) (w : Word) (v : Working) :
    compressSteps t (ws ++ [w]) v = compressStep (t + ws.length) w (compressSteps t ws v) := by
  induction ws generalizing t v with
  | nil => rfl
  | cons x xs ih =>
    rw [List.cons_append, compressSteps, ih, compressSteps, List.length_cons, Nat.add_right_comm, Nat.add_assoc]

/-- The working variables before step `t` over a schedule, from those that the running hash gives. -/
def workingBefore (h : Vector Word 5) (ws : List Word) (t : Nat) : Working :=
  compressSteps 0 (ws.take t) { a := h[0], b := h[1], c := h[2], d := h[3], e := h[4] }

theorem workingBefore_succ (h : Vector Word 5) {ws : List Word} {t : Nat} (ht : t < ws.length) :
    workingBefore h ws (t + 1) = compressStep t (ws.getD t 0) (workingBefore h ws t) := by
  rw [workingBefore, ← List.take_append_getElem ht, compressSteps_concat, List.length_take, Nat.min_eq_left ht.le,
    Nat.zero_add, List.getD_eq_getElem _ _ ht]
  rfl

/-- A compression adds the working variables after the last step to the running hash (42_sha1.md R141). -/
theorem compress_eq_addWorking (h : Vector Word 5) {blk : List Byte} (hb : blk.length = 64) :
    compress h blk = addWorking h (workingBefore h (messageSchedule blk) 80) := by
  rw [compress, workingBefore, List.take_of_length_le (messageSchedule_length hb).le]

end Sys2Proof.Machine
end

section
/-! SUPPORT. What a SHA unit buffers, in the terms of the statements, and the digest as it is written (42_sha1.md R142,
R143). -/

namespace Sys2Proof.Machine

open Sys2Proof.Claims

/-- A unit that holds a message buffers what its whole blocks leave over (42_sha1.md R142). -/
theorem ShaUnit.Holds.buffered_eq {u : ShaUnit} {h0 : Vector Word 5} {m : List Byte} (hu : u.Holds h0 m) :
    buffered u = m.drop (64 * (m.length / 64)) := by
  have hmod : m.length % 64 < 64 := Nat.mod_lt _ (by decide)
  apply List.ext_getElem
  · simp only [buffered, List.length_take, Vector.length_toList, List.length_drop, hu.cur]
    omega
  · intro i hi hm
    have hlt : i < m.length % 64 := by
      rw [List.length_drop] at hm
      omega
    have htail := hu.tail i (by omega) hlt
    rw [List.getD_eq_getElem _ _ (by omega)] at htail
    simpa [buffered] using htail

/-- Absorbing goes on after the buffered bytes (42_sha1.md R142). -/
theorem ShaUnit.absorb_holds_buffered (u : ShaUnit) (bs : List Byte) : (u.absorb bs).Holds u.h (buffered u ++ bs) :=
  u.absorb_holds u.holds_buffer bs

/-- Finalizing compresses the buffered bytes with their padding (42_sha1.md R143). -/
theorem ShaUnit.finalize_eq (u : ShaUnit) :
    u.finalize = digestBytes (hashBlocks ((pad (buffered u) u.bitlen).length / 64) u.h (pad (buffered u) u.bitlen)) :=
  congrArg digestBytes (ShaUnit.finalHash_holds u.holds_buffer _ rfl)

/-- A digest reads back as it was written. -/
theorem Memory.readBytes_writeBytes_finalize (m : Memory) (a : Nat) (u : ShaUnit) :
    (m.writeBytes a u.finalize).readBytes a 20 = u.finalize := by
  simpa using m.readBytes_writeBytes a u.finalize

end Sys2Proof.Machine
end

section
/-! THEOREMS. The obligations about the SHA unit (42_sha1.md). -/

namespace Sys2Proof.Machine

open Sys2Proof.Claims

/-- Settles O24: `W` is the message schedule, and `V t` the working variables before step `t`. -/
theorem compressionRunsEightySteps : Obligations.CompressionRunsEightySteps := by
  intro h blk hb
  refine ⟨fun t => (messageSchedule blk).getD t 0, fun t => (workingBefore h (messageSchedule blk) t).toTuple,
    fun t ht => messageSchedule_getD hb ht, fun t h16 ht => messageSchedule_recurrence hb h16 ht, rfl,
    fun t ht a b c d e hv => ?step, (compress_eq_addWorking h hb).trans (addWorking_toTuple h _)⟩
  case step =>
    have hstep := workingBefore_succ h (ht.trans_eq (messageSchedule_length hb).symm)
    exact (congrArg Working.toTuple hstep).trans (compressStep_toTuple t _ hv)

/-- Settles O25: the unit after the command holds the operand's bytes after the buffered ones. -/
theorem sha1UpdateAbsorbsItsOperand : Obligations.Sha1UpdateAbsorbsItsOperand := by
  intro s p
  have hp : (s.sha.absorb (s.dbuf.readBytes s.argSrc s.argLen)).Holds s.sha.h p := s.sha.absorb_holds_buffered _
  refine ⟨execSha1Update_misuse, execSha1Update_range, fun hs hr => ⟨_, execSha1Update_ok hs hr,
    (s.sha.absorb_st _).trans hs, hp.hash, hp.buffered_eq, ?bitlen, fun h0 => ?nothing⟩⟩
  case bitlen => rw [ShaUnit.absorb_bitlen, Memory.readBytes_length]
  case nothing =>
    rw [h0]
    exact s.sha.absorb_nil

/-- Settles O26: the bytes written are `ShaUnit.finalize`, which compresses the padded buffered bytes. -/
theorem sha1DigestWritesTwentyBytesAndFinalizes : Obligations.Sha1DigestWritesTwentyBytesAndFinalizes := by
  intro s p
  refine ⟨execSha1Digest_misuse, execSha1Digest_range, fun hs hr => ⟨ShaUnit.zeroed .finalized,
    s.dbuf.writeBytes s.argDst s.sha.finalize, execSha1Digest_ok hs hr, ?digest, fun a ha => ?frame,
    fun i => Vector.getElem_replicate _, fun i => Vector.getElem_replicate _, rfl, rfl, rfl⟩⟩
  case digest => exact (Memory.readBytes_writeBytes_finalize _ _ _).trans s.sha.finalize_eq
  case frame => exact Memory.read_writeBytes_outside _ (by simpa using ha)

end Sys2Proof.Machine
end

section
/-! SUPPORT. The data buffer's form and bound together with the cells' shape: which changes of a state keep both, and
what every command, access and reset does to them (20_memory.md R60, 44_secure_memory.md R180 to R182). -/

namespace Sys2Proof.Machine

/-- The data buffer and the cells are as they are between steps. -/
def State.StoreOk (s : State) : Prop := s.DbufOk ∧ s.CellsOk

/-- One cell has the shape that `State.CellsOk` asks of every cell (10_state.md R49). -/
def SecCell.InShape (c : SecCell) (p : Params) : Prop :=
  (c.isOpen = true → 0 < c.len.toNat ∧ c.base.toNat + c.len.toNat ≤ p.dbufSize) ∧ (c.isOpen = false → c = SecCell.zero)

theorem SecCell.zero_inShape (p : Params) : SecCell.zero.InShape p := ⟨nofun, fun _ => rfl⟩

/-- Setting one cell keeps the shape of the cells. -/
theorem State.CellsOk.set {s : State} (h : s.CellsOk) (i : Nat) {c : SecCell} (hc : c.InShape s.params) :
    (s.setCells (s.cells.set i c)).CellsOk := by
  obtain ⟨hlen, hall⟩ := h
  refine ⟨by simpa using hlen, fun d hd => ?_⟩
  rcases List.mem_or_eq_of_mem_set hd with hd | rfl
  · exact hall d hd
  · exact hc

/-- NCELLS closed cells have the shape. -/
theorem State.cellsOk_of_closed {s : State} (h : s.cells = List.replicate s.params.nCells SecCell.zero) : s.CellsOk := by
  refine ⟨by simp [h], fun c hc => ?_⟩
  rw [h] at hc
  rw [List.eq_of_mem_replicate hc]
  exact SecCell.zero_inShape _

/-- Zeroing a range inside the data buffer keeps its form and bound. -/
theorem State.DbufOk.zeroBytes {s : State} (h : s.DbufOk) {a n : Nat} (hr : s.InRange a n) :
    (s.setDbuf (s.dbuf.zeroBytes a n)).DbufOk :=
  ⟨Memory.zeroBytes_wf h.1 a n, Memory.zeroBytes_below h.2 hr⟩

/-! The commands that leave the cells. -/

/-- A result that answers a next state with the parameters and the cells as they were, and a data buffer that keeps its
form and bound. -/
def KeepsStore (s : State) (r : Result) : Prop :=
  ∃ t, r = .next t ∧ t.params = s.params ∧ t.cells = s.cells ∧ (s.DbufOk → t.DbufOk)

theorem KeepsStore.storeOk {s t : State} {r : Result} (h : KeepsStore s r) (hr : r = .next t) (hs : s.StoreOk) :
    t.StoreOk := by
  obtain ⟨u, hu, hparams, hcells, hdbuf⟩ := h
  cases hr.symm.trans hu
  refine ⟨hdbuf hs.1, ?_⟩
  rw [State.CellsOk, hparams, hcells]
  exact hs.2

theorem KeepsStore.cells {s t : State} {r : Result} (h : KeepsStore s r) (hr : r = .next t) : t.cells = s.cells := by
  obtain ⟨u, hu, -, hcells, -⟩ := h
  cases hr.symm.trans hu
  exact hcells

theorem KeepsStore.raise (s : State) (e : Err) : KeepsStore s (s.raise e) := ⟨_, rfl, rfl, rfl, id⟩

theorem KeepsStore.complete {s u : State} (hp : u.params = s.params) (hc : u.cells = s.cells)
    (hd : s.DbufOk → u.DbufOk) : KeepsStore s u.complete := ⟨_, rfl, hp, hc, hd⟩

theorem KeepsStore.ite {s : State} {p : Prop} [Decidable p] {a b : Result} (ha : KeepsStore s a)
    (hb : ¬ p → KeepsStore s b) : KeepsStore s (if p then a else b) := by
  split
  · exact ha
  · exact hb ‹_›

/-- A run over the blocks of an operand inside the data buffer keeps the buffer's form and bound. -/
theorem State.DbufOk.blockRun {s : State} (h : s.DbufOk) {g : List Byte → List Byte → List Byte × List Byte}
    {src : Nat} {p : List Byte} (P : List Byte → Prop) (hp : P p)
    (hg : ∀ p x, P p → x.length = s.params.blockSize → P (g p x).2 ∧ (g p x).1.length = s.params.blockSize)
    (hl : s.argLen % s.params.blockSize = 0) (hr : s.InRange s.argDst s.argLen) :
    (s.setDbuf (blockRun g s.params.blockSize src s.argDst p s.dbuf (s.argLen / s.params.blockSize)).2).DbufOk := by
  have hblocks : s.argLen / s.params.blockSize * s.params.blockSize = s.argLen :=
    Nat.div_mul_cancel (Nat.dvd_of_mod_eq_zero hl)
  exact ⟨blockRun_wf h.1 _, blockRun_below P hp hg h.2 _ (by rwa [hblocks])⟩

theorem ecbWith_keepsStore {f : List Byte → List Byte} {s : State} (hf : ∀ x, (f x).length = s.params.blockSize) :
    KeepsStore s (ecbWith f s) := by
  refine .ite (.raise _ _) fun _ => .ite (.raise _ _) fun hl => .ite (.raise _ _) fun hr => .complete rfl rfl fun h => ?_
  rw [ecbLoop_eq_run]
  exact h.blockRun (fun _ => True) trivial (fun _ x _ _ => ⟨trivial, hf x⟩) (by omega) (by tauto)

theorem cbcWith_keepsStore {loop : Nat → Nat → Nat → Nat → List Byte → Memory → Memory}
    {g : List Byte → List Byte → List Byte × List Byte} {s : State}
    (hloop : ∀ b n src dst p m, loop b n src dst p m = (blockRun g b src dst p m n).2)
    (hg : ∀ p x, p.length = s.params.blockSize → x.length = s.params.blockSize →
      (g p x).2.length = s.params.blockSize ∧ (g p x).1.length = s.params.blockSize) : KeepsStore s (cbcWith loop s) := by
  refine .ite (.raise _ _) fun _ => .ite (.raise _ _) fun _ => .ite (.raise _ _) fun hl => .ite (.raise _ _) fun hr =>
    .complete rfl rfl fun h => ?_
  rw [hloop]
  exact h.blockRun (fun p => p.length = s.params.blockSize) (by simp) hg (by omega) (by tauto)

/-- Every command but CELL_OPEN and CELL_CLOSE leaves the cells, and writes the data buffer inside its bound. -/
theorem exec_keepsStore {i : Instr} (ho : i ≠ .cellOpen) (hc : i ≠ .cellClose) (s : State) : KeepsStore s (exec i s) := by
  cases i with
  | nop => exact .complete rfl rfl id
  | ccInit => exact .ite (.raise _ _) fun _ => .ite (.raise _ _) fun _ => .complete rfl rfl id
  | ccCombine =>
    exact .ite (.raise _ _) fun _ => .ite (.raise _ _) fun hr => .complete rfl rfl fun ⟨hwf, hbelow⟩ =>
      ⟨combineLoop_wf _ _ _ _ hwf, combineLoop_below _ _ _ _ hbelow (by tauto)⟩
  | ccDestroy => exact .complete rfl rfl id
  | sha1Create => exact .complete rfl rfl id
  | sha1Update => exact .ite (.raise _ _) fun _ => .ite (.raise _ _) fun _ => .complete rfl rfl id
  | sha1Digest =>
    refine .ite (.raise _ _) fun _ => .ite (.raise _ _) fun hr => .complete rfl rfl fun ⟨hwf, hbelow⟩ =>
      ⟨Memory.writeBytes_wf hwf _ _, Memory.writeBytes_below hbelow (.inr ?_)⟩
    rw [ShaUnit.finalize_length]
    show s.argDst + 20 ≤ s.params.dbufSize
    omega
  | sha1Destroy => exact .complete rfl rfl id
  | bcSetKey => exact .ite (.raise _ _) fun _ => .ite (.raise _ _) fun _ => .complete rfl rfl id
  | bcClear => exact .complete rfl rfl id
  | ecbEnc => exact ecbWith_keepsStore (portEnc_length _ _ _)
  | ecbDec => exact ecbWith_keepsStore (portDec_length _ _ _)
  | cbcEnc =>
    exact cbcWith_keepsStore (cbcEncLoop_eq_run _) fun _ _ _ _ => ⟨portEnc_length _ _ _ _, portEnc_length _ _ _ _⟩
  | cbcDec => exact cbcWith_keepsStore (cbcDecLoop_eq_run _) fun p c hp hc => ⟨hc, by simp [hp]⟩
  | ctEq => exact .ite (.raise _ _) fun _ => .ite (.complete rfl rfl id) fun _ => .complete rfl rfl id
  | ctEqb => exact .ite (.raise _ _) fun _ => .complete rfl rfl id
  | cellOpen => exact absurd rfl ho
  | cellClose => exact absurd rfl hc
  | zeroize => exact .ite (.raise _ _) fun hr => .complete rfl rfl fun h => h.zeroBytes (by tauto)
  | unimplHash2 k => exact .raise _ _
  | unimplRsa k => exact .raise _ _
  | unimplOther w => exact .raise _ _

/-! CELL_OPEN and CELL_CLOSE. -/

/-- CELL_OPEN fails, or opens the lowest closed cell on a non-empty range inside the data buffer (44_secure_memory.md
R181). -/
theorem execCellOpen_cases (s : State) :
    (∃ e, execCellOpen s = .next (s.failed e)) ∨
    ∃ i, s.argAuxlen ≠ 0 ∧ s.InRange s.argAux s.argAuxlen ∧ freeCell s.params.nCells s.cells = some i ∧
      execCellOpen s = .next ((s.setCells (s.cells.set i
        { isOpen := true, base := s.latch.aux, len := s.latch.auxlen })).setResult (BitVec.ofNat 32 i)).completed := by
  by_cases hl : s.argAuxlen = 0
  · exact .inl ⟨_, execCellOpen_length hl⟩
  by_cases hr : s.InRange s.argAux s.argAuxlen
  · cases hf : freeCell s.params.nCells s.cells with
    | none => exact .inl ⟨_, execCellOpen_full hl hr hf⟩
    | some i => exact .inr ⟨i, hl, hr, rfl, execCellOpen_ok hl hr hf⟩
  · exact .inl ⟨_, execCellOpen_range hl hr⟩

/-- CELL_CLOSE fails, or zeroes the region of the open cell that SRC names and closes it (44_secure_memory.md R182). -/
theorem execCellClose_cases (s : State) :
    (∃ e, execCellClose s = .next (s.failed e)) ∨
    ∃ c, s.openCell s.argSrc = some c ∧
      execCellClose s = .next ((s.setDbuf (s.dbuf.zeroBytes c.base.toNat c.len.toNat)).setCells
        (s.cells.set s.argSrc SecCell.zero)).completed := by
  cases hc : s.openCell s.argSrc with
  | none => exact .inl ⟨_, execCellClose_misuse hc⟩
  | some c => exact .inr ⟨c, rfl, execCellClose_ok hc⟩

theorem execCellOpen_storeOk {s t : State} (h : execCellOpen s = .next t) (hs : s.StoreOk) : t.StoreOk := by
  obtain ⟨e, h'⟩ | ⟨i, hl, hr, -, h'⟩ := execCellOpen_cases s <;> cases h.symm.trans h'
  · exact hs
  · exact ⟨hs.1, hs.2.set i ⟨fun _ => ⟨Nat.pos_of_ne_zero hl, hr.resolve_left hl⟩, nofun⟩⟩

theorem execCellClose_storeOk {s t : State} (h : execCellClose s = .next t) (hs : s.StoreOk) : t.StoreOk := by
  obtain ⟨e, h'⟩ | ⟨c, hc, h'⟩ := execCellClose_cases s <;> cases h.symm.trans h'
  · exact hs
  · obtain ⟨-, hget, hopen⟩ := State.openCell_eq_some.1 hc
    obtain ⟨-, hregion⟩ := (hs.2.2 c (List.mem_of_getElem? hget)).1 hopen
    exact ⟨hs.1.zeroBytes (.inr hregion), hs.2.set _ (SecCell.zero_inShape _)⟩

/-- Every command keeps the data buffer and the cells as they should be. -/
theorem exec_storeOk {i : Instr} {s t : State} (h : exec i s = .next t) (hs : s.StoreOk) : t.StoreOk := by
  by_cases ho : i = .cellOpen
  · subst ho
    exact execCellOpen_storeOk h hs
  by_cases hc : i = .cellClose
  · subst hc
    exact execCellClose_storeOk h hs
  · exact (exec_keepsStore ho hc s).storeOk h hs

/-! Resets and host accesses. -/

theorem State.warmReset_storeOk {s : State} (hs : s.StoreOk) : s.warmReset.StoreOk := by
  obtain ⟨⟨hwf, hbelow⟩, -, hcells⟩ := hs
  refine ⟨?_, State.cellsOk_of_closed (by simp)⟩
  rw [State.DbufOk, State.warmReset_dbuf, State.warmReset_params]
  exact ⟨zeroOpenCells_wf _ (State.abortRunning_wf hwf), zeroOpenCells_below (State.abortRunning_below hbelow)
    fun c hc hopen => ((hcells c (List.mem_of_mem_take hc)).1 hopen).2⟩

theorem State.powerOnReset_storeOk (s : State) : s.powerOnReset.StoreOk :=
  ⟨⟨List.Pairwise.nil, nofun⟩, State.cellsOk_of_closed rfl⟩

theorem State.writeCtrl_storeOk {s : State} (v : Word) (hs : s.StoreOk) : (s.writeCtrl v).StoreOk := by
  cases h : v.getLsbD 1
  · rw [State.writeCtrl_of_no_reset h]
    exact hs
  · rw [State.writeCtrl_of_reset h]
    exact State.warmReset_storeOk hs

theorem State.writeCmd_storeOk {s : State} (w : Word) (hs : s.StoreOk) : (s.writeCmd w).StoreOk := by
  cases h : s.status.busy
  · rw [State.writeCmd_idle h]
    exact hs
  · rw [State.writeCmd_busy h]
    exact hs

theorem State.regWrite_storeOk {s : State} (off : Nat) (v : Word) (hs : s.StoreOk) : (s.regWrite off v).StoreOk := by
  rcases s.regWrite_cases off v with ⟨-, e⟩ | ⟨-, e⟩ | ⟨r, -, -, e⟩ <;> rw [e]
  · exact State.writeCtrl_storeOk v hs
  · exact State.writeCmd_storeOk v hs
  · exact hs

theorem State.hostAccess_storeOk {s t : State} {a : Access (BitVec 17)} (h : s.hostAccess a = .next t)
    (hs : s.StoreOk) : t.StoreOk := by
  rcases s.hostAccess_cases a with ⟨v, e⟩ | ⟨off, v, -, -, -, e⟩ | ⟨x, bs, -, hx, e⟩ | e | ⟨-, -, e⟩ <;>
    cases h.symm.trans e
  · exact hs
  · exact State.regWrite_storeOk _ v hs
  · exact ⟨⟨Memory.writeBytes_wf hs.1.1 _ _, Memory.writeBytes_below hs.1.2 (.inr hx)⟩, hs.2⟩
  · exact hs

end Sys2Proof.Machine
end

section
/-! THEOREMS. The invariant of the data buffer and the cells (20_memory.md, 44_secure_memory.md). -/

namespace Sys2Proof.Machine

/-- Settles O8: each way a step ends keeps `State.StoreOk`. -/
theorem stepKeepsBufferAndCells : Obligations.StepKeepsBufferAndCells := by
  intro s t hs h
  obtain ⟨u, hu, hcases⟩ := step_cases h
  have hu : u.StoreOk := by
    rw [hu]
    exact hs
  rcases hcases with ⟨-, he⟩ | ⟨-, rfl⟩ | ⟨a, ha⟩ | rfl | rfl | rfl
  · exact exec_storeOk he hu
  · exact hu
  · exact State.hostAccess_storeOk ha hu
  · exact hu
  · exact State.warmReset_storeOk hu
  · exact u.powerOnReset_storeOk

end Sys2Proof.Machine
end

section
/-! SUPPORT. The cells by their index: which are open, which CELL_OPEN takes, and what a command leaves of an open one
(44_secure_memory.md R181, R182, R184). -/

namespace Sys2Proof.Machine

open Sys2Proof.Claims

theorem Memory.read_zeroBytes_inside (m : Memory) {a n x : Nat} (h1 : a ≤ x) (h2 : x < a + n) :
    (m.zeroBytes a n).read x = 0 := by
  rw [Memory.read_zeroBytes, if_pos ⟨h1, h2⟩]

theorem Memory.read_zeroBytes_outside (m : Memory) {a n x : Nat} (h : x < a ∨ a + n ≤ x) :
    (m.zeroBytes a n).read x = m.read x := by
  rw [Memory.read_zeroBytes, if_neg (by omega)]

/-- The CELLS_OPEN bit of a cell (10_state.md R34). -/
theorem State.getLsbD_statusWord_cell (s : State) (i : Nat) :
    s.statusWord.getLsbD (16 + i) = (decide (i < 8) && cellIsOpen s i) := by
  rw [State.getLsbD_statusWord, Nat.add_comm, Nat.add_sub_cancel, getLsbD_cellsOpenField, cellIsOpen]
  by_cases h : i < 8
  · simp [h, show i + 16 < 32 by omega]
  · simp [h]

/-- An index that names no open cell. -/
theorem State.openCell_of_closed {s : State} {i : Nat} (h : cellIsOpen s i = false) : s.openCell i = none :=
  State.openCell_eq_none.2 fun c hi hc => by simpa [cellIsOpen_of_getElem? hc, hi] using h

/-- With a cell below NCELLS closed and all before it open, it is the one that is free (44_secure_memory.md R181). -/
theorem freeCell_of_lowest_closed {s : State} (hlen : s.cells.length = s.params.nCells) {i : Nat}
    (hclosed : cellIsOpen s i = false) (hi : i < s.params.nCells) (hbefore : ∀ j < i, cellIsOpen s j = true) :
    freeCell s.params.nCells s.cells = some i := by
  have hget : s.cells[i]? = some s.cells[i] := List.getElem?_eq_getElem (by omega)
  have hci : s.cells[i].isOpen = false := by simpa [cellIsOpen_of_getElem? hget, hi] using hclosed
  cases hf : freeCell s.params.nCells s.cells with
  | none =>
    have hopen := freeCell_none.1 hf s.cells[i] (by rw [← hlen, List.take_length]; exact List.getElem_mem _)
    rw [hci] at hopen
    cases hopen
  | some k =>
    obtain ⟨hk, ⟨c, hc, hck⟩, hopen⟩ := freeCell_some hf
    rcases Nat.lt_trichotomy k i with hlt | rfl | hlt
    · have hkopen := hbefore k hlt
      rw [cellIsOpen_of_getElem? hc, hck, Bool.and_false] at hkopen
      cases hkopen
    · rfl
    · obtain ⟨d, hd, hdo⟩ := hopen i hlt
      cases hget.symm.trans hd
      rw [hci] at hdo
      cases hdo

/-- A command that fails changes only STATUS (60_exceptions.md R212). -/
theorem exec_failed {i : Instr} {s t : State} (h : exec i s = .next t) (he : t.status.err = true) :
    ∃ e, t = s.failed e := by
  obtain ⟨e, h'⟩ | ⟨v, cc, sha, bc, cells, m, h'⟩ := exec_ends i s <;> cases h.symm.trans h'
  · exact ⟨e, rfl⟩
  · cases he

/-- No command but its own CELL_CLOSE changes an open cell (44_secure_memory.md R184). -/
theorem exec_keepsOpenCell {k : Instr} {s t : State} (h : exec k s = .next t) {i : Nat} {c : SecCell}
    (hc : s.cells[i]? = some c) (hopen : c.isOpen = true) (hk : k ≠ .cellClose ∨ s.argSrc ≠ i) :
    t.cells[i]? = some c := by
  by_cases hko : k = .cellOpen
  · subst hko
    obtain ⟨e, h'⟩ | ⟨j, -, -, hfree, h'⟩ := execCellOpen_cases s <;> cases h.symm.trans h'
    · exact hc
    · obtain ⟨-, ⟨d, hd, hclosed⟩, -⟩ := freeCell_some hfree
      have hne : j ≠ i := by
        rintro rfl
        cases hd.symm.trans hc
        rw [hopen] at hclosed
        cases hclosed
      exact (List.getElem?_set_ne hne).trans hc
  by_cases hkc : k = .cellClose
  · subst hkc
    obtain ⟨e, h'⟩ | ⟨d, -, h'⟩ := execCellClose_cases s <;> cases h.symm.trans h'
    · exact hc
    · exact (List.getElem?_set_ne (hk.resolve_left fun hne => hne rfl)).trans hc
  · rw [(exec_keepsStore hko hkc s).cells h]
    exact hc

/-- A warm reset zeroes the region of every open cell (70_reset_and_hazards.md R241). -/
theorem State.warmReset_zeroes_cell {s : State} {i : Nat} {c : SecCell} {a : Nat} (hi : i < s.params.nCells)
    (hc : s.cells[i]? = some c) (hopen : c.isOpen = true) (h1 : c.base.toNat ≤ a)
    (h2 : a < c.base.toNat + c.len.toNat) : s.warmReset.dbuf.read a = 0 := by
  have hmem : c ∈ s.cells.take s.params.nCells :=
    List.mem_of_getElem? ((List.getElem?_take_of_lt hi).trans hc)
  rw [State.warmReset_dbuf]
  exact zeroOpenCells_inside _ hmem hopen h1 h2

end Sys2Proof.Machine
end

section
/-! SUPPORT. What a reset and a destroy command leave of the units' secrets (44_secure_memory.md R185). -/

namespace Sys2Proof.Machine

/-- A warm reset does not depend on the CC, SHA and BC units (70_reset_and_hazards.md R241). -/
theorem State.warmReset_of_units (s : State) (cc : CcUnit) (sha : ShaUnit) (bc : BcUnit) :
    { s with cc := cc, sha := sha, bc := bc }.warmReset = s.warmReset := by
  unfold State.warmReset State.abortRunning
  cases s.status.busy <;> rfl

/-- A SHA1_DIGEST without error leaves the zeroed unit (42_sha1.md R146). -/
theorem execSha1Digest_sha {s t : State} (h : execSha1Digest s = .next t) (he : t.status.err = false) :
    t.sha = ShaUnit.zeroed .finalized := by
  by_cases hs : s.sha.st = .active
  · by_cases hr : s.InRange s.argDst 20
    · cases h.symm.trans (execSha1Digest_ok hs hr)
      rfl
    · cases h.symm.trans (execSha1Digest_range hs hr)
      cases he
  · cases h.symm.trans (execSha1Digest_misuse hs)
    cases he

end Sys2Proof.Machine
end

section
/-! THEOREMS. The obligations about the secure cells and the units' secrets (44_secure_memory.md). -/

namespace Sys2Proof.Machine

open Sys2Proof.Claims

/-- Settles O36: the equations of CELL_OPEN; the lowest closed cell is the one that `freeCell` finds. -/
theorem cellOpenTakesTheLowestClosedCell : Obligations.CellOpenTakesTheLowestClosedCell := by
  intro s hlegal hlen
  refine ⟨execCellOpen_length, execCellOpen_range, fun hl hr hall => ?full, fun hl hr i hclosed hi hbefore => ?opened⟩
  case full => exact execCellOpen_full hl hr (freeCell_none.2 fun c hc => hall c (List.mem_of_mem_take hc))
  case opened =>
    have hget : ∀ c : SecCell, (s.cells.set i c)[i]? = some c := fun c => List.getElem?_set_self (by omega)
    refine ⟨_, execCellOpen_ok hl hr (freeCell_of_lowest_closed hlen hclosed hi hbefore), List.length_set,
      fun j hj => List.getElem?_set_ne hj.symm, hget _, ?_⟩
    obtain ⟨-, -, -, -, -, -, -, h8, -⟩ := hlegal
    rw [State.getLsbD_statusWord_cell, cellIsOpen_of_getElem? (s := completed _) (hget _)]
    simp only [Bool.and_true, Bool.and_eq_true, decide_eq_true_eq]
    exact ⟨by omega, hi⟩

/-- Settles O37: the equations of CELL_CLOSE, with the cell that SRC names. -/
theorem cellCloseZeroesAndFreesTheCell : Obligations.CellCloseZeroesAndFreesTheCell := by
  intro s
  refine ⟨fun h => execCellClose_misuse (State.openCell_of_closed h), fun c hi hc hopen => ?closed⟩
  case closed =>
    obtain ⟨hlt, -⟩ := List.getElem?_eq_some_iff.1 hc
    have hget : (s.cells.set s.argSrc SecCell.zero)[s.argSrc]? = some SecCell.zero := List.getElem?_set_self hlt
    refine ⟨_, _, execCellClose_ok (State.openCell_eq_some.2 ⟨hi, hc, hopen⟩), fun a h1 h2 => ?zero, fun a ha => ?frame,
      hget, List.length_set, fun j hj => List.getElem?_set_ne hj.symm, ?bit⟩
    case zero => exact Memory.read_zeroBytes_inside _ h1 h2
    case frame => exact Memory.read_zeroBytes_outside _ ha
    case bit =>
      rw [State.getLsbD_statusWord_cell, cellIsOpen_of_getElem? (s := completed _) hget]
      simp [SecCell.zero]

/-- Settles O38: the equations of ZEROIZE. -/
theorem zeroizeZeroesItsRegion : Obligations.ZeroizeZeroesItsRegion := by
  intro s
  refine ⟨execZeroize_range, fun hr => ⟨_, execZeroize_ok hr, fun a h1 h2 => ?zero, fun a ha => ?frame⟩⟩
  case zero => exact Memory.read_zeroBytes_inside _ h1 h2
  case frame => exact Memory.read_zeroBytes_outside _ ha

/-- Settles O39: one lemma per exit path, and one per command that is none. -/
theorem everyExitPathZeroesTheCell : Obligations.EveryExitPathZeroesTheCell := by
  refine ⟨fun s i c a hi hc hopen h1 h2 => ?_, fun _ _ => rfl⟩
  have hreset : s.warmReset.dbuf.read a = 0 := State.warmReset_zeroes_cell hi hc hopen h1 h2
  refine ⟨?close, hreset, fun v hv => ?soft, fun k t h he => ?fails, fun k t h hk => exec_keepsOpenCell h hc hopen hk⟩
  case close =>
    rintro rfl
    exact ⟨_, execCellClose_ok (State.openCell_eq_some.2 ⟨hi, hc, hopen⟩), Memory.read_zeroBytes_inside _ h1 h2⟩
  case soft =>
    refine ⟨s.warmReset, ?_, hreset⟩
    exact (s.hostAccess_write_register 0x04 v).trans (congrArg _ (State.writeCtrl_of_reset hv))
  case fails =>
    obtain ⟨e, rfl⟩ := exec_failed h he
    exact ⟨hc, rfl⟩

/-- Settles O40: the resets do not depend on the units, and each destroy command leaves a constant. -/
theorem noUnitSecretSurvivesReset : Obligations.NoUnitSecretSurvivesReset := by
  intro s u hu
  have hwarm : u.warmReset = s.warmReset := (congrArg State.warmReset hu).trans (s.warmReset_of_units ..)
  have hpower : u.powerOnReset = s.powerOnReset := (congrArg State.powerOnReset hu).trans rfl
  refine ⟨fun m => by rw [hwarm], fun _ => by rw [hwarm], fun m => by rw [hpower], fun a b ha hb => ?cc,
    fun a b ha hb => ?sha, fun a b ha hb hea heb => ?digest, fun a b ha hb => ?bc⟩
  case cc =>
    cases ha
    cases hb
    rfl
  case sha =>
    cases ha
    cases hb
    rfl
  case digest => exact (execSha1Digest_sha ha hea).trans (execSha1Digest_sha hb heb).symm
  case bc =>
    cases ha
    cases hb
    exact ⟨rfl, rfl⟩

end Sys2Proof.Machine
end

section
/-! SUPPORT. What an unassigned command word decodes to, and what its row does (30_encoding.md R86, R87; 45_system.md
R202). -/

namespace Sys2Proof.Machine

open Sys2Proof.Claims

/-- The OP values that have a command (30_encoding.md R83). -/
def assignedOps : List Nat :=
  [0x00, 0x01, 0x02, 0x03, 0x10, 0x11, 0x12, 0x13, 0x20, 0x21, 0x22, 0x23, 0x24, 0x25, 0x30, 0x31, 0x40, 0x41, 0x42]

/-- An OP value without a command falls in one of the two stub ranges or in the row "every other word" (30_encoding.md
R86, R87). -/
theorem decodeOp_of_unassigned (w : Word) {op : Nat} (h : op ∉ assignedOps) :
    decodeOp w op =
      if 0x18 ≤ op ∧ op ≤ 0x1F then .unimplHash2 (w.extractLsb' 0 3)
      else if 0x50 ≤ op ∧ op ≤ 0x5F then .unimplRsa (w.extractLsb' 0 4)
      else .unimplOther w := by
  unfold decodeOp
  split
  case h_20 => rfl
  all_goals exact absurd (by decide) h

theorem exec_unimplHash2 (k : BitVec 3) (s : State) : exec (.unimplHash2 k) s = .next (failed s 4) := rfl

theorem exec_unimplRsa (k : BitVec 4) (s : State) : exec (.unimplRsa k) s = .next (failed s 4) := rfl

theorem exec_unimplOther (w : Word) (s : State) : exec (.unimplOther w) s = .next (failed s 4) := rfl

/-- The command of an OP value without one fails with UnimplementedOperation, whichever its row (45_system.md R202). -/
theorem exec_decodeOp_of_unassigned (w : Word) {op : Nat} (h : op ∉ assignedOps) (s : State) :
    exec (decodeOp w op) s = .next (failed s 4) := by
  rw [decodeOp_of_unassigned w h]
  split_ifs
  · exact exec_unimplHash2 _ s
  · exact exec_unimplRsa _ s
  · exact exec_unimplOther w s

end Sys2Proof.Machine
end

section
/-! THEOREMS. The obligations about NOP, the destroy commands and the unassigned words (45_system.md). -/

namespace Sys2Proof.Machine

open Sys2Proof.Claims

/-- Settles O17: with RSV not 0 a word is in the row "every other word", and with RSV = 0 its OP decides. -/
theorem unassignedWordsReportUnimplemented : Obligations.UnassignedWordsReportUnimplemented := by
  refine ⟨fun w s hw => ?_, exec_unimplHash2, exec_unimplRsa, exec_unimplOther⟩
  by_cases hrsv : rsvField w = 0
  · have hop : (opField w).toNat ∉ assignedOps := hw.resolve_left (not_not_intro hrsv)
    rw [decode_of_op hrsv, ← (toNat_of_rsvField hrsv).2]
    exact exec_decodeOp_of_unassigned w hop s
  · rw [decode_of_rsvField hrsv]
    exact exec_unimplOther w s

/-- Settles O18: the units are `CcUnit.zero`, the zeroed IDLE SHA unit, and the BC unit with its key cleared. -/
theorem nopAndDestroyCommandsDoOnlyTheirEffect : Obligations.NopAndDestroyCommandsDoOnlyTheirEffect := by
  intro s
  have cleared {n w : Nat} (i : Fin n) : (Vector.replicate n (0 : BitVec w))[i] = 0 := Vector.getElem_replicate _
  exact ⟨rfl, ⟨CcUnit.zero, rfl, cleared, cleared, rfl, rfl⟩,
    ⟨ShaUnit.zeroed .idle, rfl, cleared, cleared, rfl, rfl, rfl⟩,
    ⟨{ s.bc with key := Vector.replicate 32 0, keyLen := 0, keyed := false }, rfl, cleared, rfl, rfl, rfl⟩⟩

end Sys2Proof.Machine
end

section
/-! SUPPORT. The error a command reports, check by check along the order of R213: each check of a command raises the
error of its row of R217, and a row that does not apply to the command is passed over (60_exceptions.md). -/

namespace Sys2Proof.Machine

open Sys2Proof.Claims

/-- The code of the first error of a list that applies, 0 when none does. -/
def firstCode (a : Err → Bool) (es : List (Err × BitVec 4)) : BitVec 4 :=
  ((es.find? fun e => a e.1).map Prod.snd).getD 0

theorem firstCode_of_applies {a : Err → Bool} {e : Err} (h : a e = true) (c : BitVec 4)
    (es : List (Err × BitVec 4)) : firstCode a ((e, c) :: es) = c := by
  simp [firstCode, h]

theorem firstCode_of_not_applies {a : Err → Bool} {e : Err} (h : a e = false) (c : BitVec 4)
    (es : List (Err × BitVec 4)) : firstCode a ((e, c) :: es) = firstCode a es := by
  simp [firstCode, h]

/-- A result that answers a next state whose ERRCODE is the code of the first error that applies, and whose ERR is 1
just when one does (60_exceptions.md R213). -/
def Reports (a : Err → Bool) (es : List (Err × BitVec 4)) (r : Result) : Prop :=
  ∃ t, r = .next t ∧ t.status.errCode = firstCode a es ∧ t.status.err = decide (firstCode a es ≠ 0)

section
variable {a : Err → Bool} {e : Err} {c : BitVec 4} {es : List (Err × BitVec 4)} {r : Result}

theorem Reports.complete (s : State) : Reports a [] s.complete := ⟨_, rfl, rfl, rfl⟩

theorem Reports.raise (h : a e = true) (s : State) : Reports a ((e, e.code) :: es) (s.raise e) := by
  refine ⟨_, rfl, ?_⟩
  rw [firstCode_of_applies h]
  simp

/-- An error that does not apply is passed over. -/
theorem Reports.skip (h : a e = false) (hr : Reports a es r) : Reports a ((e, c) :: es) r := by
  rw [Reports, firstCode_of_not_applies h]
  exact hr

/-- A check that raises the next error of the order just when it applies. -/
theorem Reports.check {p : Prop} [Decidable p] (h : a e = true ↔ p) (s : State) (hr : Reports a es r) :
    Reports a ((e, e.code) :: es) (if p then s.raise e else r) := by
  split
  next hp => exact .raise (h.2 hp) s
  next hp => exact .skip (Bool.eq_false_iff.2 fun ha => hp (h.1 ha)) hr

/-- A command without checks reports nothing. -/
theorem Reports.complete_of_no_error (h : ∀ e, a e = false) (es : List (Err × BitVec 4)) (s : State) :
    Reports a es s.complete := by
  induction es with
  | nil => exact .complete s
  | cons x xs ih => exact .skip (h x.1) ih

end

/-! When a row of R217 applies, in the terms of the model's checks. -/

theorem outside_iff {s : State} {a n : Nat} : outside s a n = true ↔ ¬ s.InRange a n := by
  simp [outside]

theorem applies_addressRange_iff {s : State} {i : Instr} :
    applies s i .addressRange = true ↔ ∃ x ∈ ranges s i, ¬ s.InRange x.1 x.2 := by
  simp only [applies, List.any_eq_true, outside_iff]

/-- The range check, where no cell is asked for: the last check of a command. -/
theorem Reports.rangeCheck {s : State} {i : Instr} {p : Prop} [Decidable p] {r : Result}
    (h : (∃ x ∈ ranges s i, ¬ s.InRange x.1 x.2) ↔ p) (hu : applies s i .cellUnavailable = false)
    (hr : Reports (applies s i) [] r) :
    Reports (applies s i) [(.addressRange, 5), (.cellUnavailable, 6)] (if p then s.raise .addressRange else r) :=
  .check (applies_addressRange_iff.trans h) s (.skip hu hr)

theorem cellIsOpen_eq_false_iff {s : State} {i : Nat} : cellIsOpen s i = false ↔ s.openCell i = none := by
  rw [State.openCell_eq_none]
  cases hc : s.cells[i]? <;> simp [cellIsOpen, hc]

theorem applies_cellUnavailable_iff {s : State} :
    applies s .cellOpen .cellUnavailable = true ↔ freeCell s.params.nCells s.cells = none := by
  simp only [applies, List.all_eq_true, freeCell_none]

theorem applies_invalidLength_bcSetKey_iff {s : State} :
    applies s .bcSetKey .invalidLength = true ↔ keySizeOk s.params s.argAuxlen = false := by
  simp only [applies, keySizeOk, Bool.and_comm, Bool.not_eq_true']

/-! The commands. -/

theorem ecbWith_reports (f : List Byte → List Byte) (s : State) :
    Reports (applies s .ecbEnc) reportOrder (ecbWith f s) :=
  .skip rfl <| .check (by simp [applies]) _ <| .skip rfl <| .check (by simp [applies]) _ <|
    .rangeCheck (by simp [ranges]) rfl <| .complete _

theorem cbcWith_reports (loop : Nat → Nat → Nat → Nat → List Byte → Memory → Memory) (s : State) :
    Reports (applies s .cbcEnc) reportOrder (cbcWith loop s) :=
  .skip rfl <| .check (by simp [applies]) _ <| .check (by simp [applies]) _ <| .check (by simp [applies]) _ <|
    .rangeCheck (by simp [ranges]) rfl <| .complete _

theorem execCtEq_reports (s : State) : Reports (applies s .ctEq) reportOrder (execCtEq s) := by
  refine .skip rfl <| .skip rfl <| .skip rfl <| .skip rfl <|
    .rangeCheck (by simp [ranges]) rfl ?_
  split <;> exact .complete _

theorem execCellOpen_reports (s : State) : Reports (applies s .cellOpen) reportOrder (execCellOpen s) := by
  refine .skip rfl <| .skip rfl <| .skip rfl <| .check (by simp [applies]) _ <|
    .check (by simp [applies_addressRange_iff, ranges]) _ ?_
  split
  next hfull => exact .raise (applies_cellUnavailable_iff.2 hfull) s
  next hfree => exact .skip (by simp [← Bool.not_eq_true, applies_cellUnavailable_iff, hfree]) <| .complete _

theorem execCellClose_reports (s : State) : Reports (applies s .cellClose) reportOrder (execCellClose s) := by
  refine .skip rfl ?_
  cases hc : s.openCell s.argSrc with
  | none =>
    rw [execCellClose, hc]
    exact .raise (by simp [applies, cellIsOpen_eq_false_iff, hc]) s
  | some c =>
    rw [execCellClose, hc]
    exact .skip (by simp [applies, ← Bool.not_eq_false, cellIsOpen_eq_false_iff, hc]) <|
      .skip rfl <| .skip rfl <| .skip rfl <| .skip rfl <| .complete _

/-- Every command reports the first error of R213's order that applies to it. -/
theorem exec_reports (i : Instr) (s : State) : Reports (applies s i) reportOrder (exec i s) := by
  cases i with
  | nop => exact .complete_of_no_error (fun e => by cases e <;> rfl) _ _
  | ccInit =>
    exact .skip rfl <| .skip rfl <| .skip rfl <| .check (by simp [applies]) _ <|
      .rangeCheck (by simp [ranges]) rfl <| .complete _
  | ccCombine =>
    exact .skip rfl <| .check (by simp [applies]) _ <| .skip rfl <| .skip rfl <|
      .rangeCheck (by simp [ranges]) rfl <| .complete _
  | ccDestroy => exact .complete_of_no_error (fun e => by cases e <;> rfl) _ _
  | sha1Create => exact .complete_of_no_error (fun e => by cases e <;> rfl) _ _
  | sha1Update =>
    exact .skip rfl <| .check (by simp [applies]) _ <| .skip rfl <| .skip rfl <|
      .rangeCheck (by simp [ranges]) rfl <| .complete _
  | sha1Digest =>
    exact .skip rfl <| .check (by simp [applies]) _ <| .skip rfl <| .skip rfl <|
      .rangeCheck (by simp [ranges]) rfl <| .complete _
  | sha1Destroy => exact .complete_of_no_error (fun e => by cases e <;> rfl) _ _
  | bcSetKey =>
    exact .skip rfl <| .skip rfl <| .skip rfl <| .check applies_invalidLength_bcSetKey_iff _ <|
      .rangeCheck (by simp [ranges]) rfl <| .complete _
  | bcClear => exact .complete_of_no_error (fun e => by cases e <;> rfl) _ _
  | ecbEnc => exact ecbWith_reports _ s
  | ecbDec => exact ecbWith_reports _ s
  | cbcEnc => exact cbcWith_reports _ s
  | cbcDec => exact cbcWith_reports _ s
  | ctEq => exact execCtEq_reports s
  | ctEqb =>
    exact .skip rfl <| .skip rfl <| .skip rfl <| .skip rfl <|
      .rangeCheck (by simp [ranges]) rfl <| .complete _
  | cellOpen => exact execCellOpen_reports s
  | cellClose => exact execCellClose_reports s
  | zeroize =>
    exact .skip rfl <| .skip rfl <| .skip rfl <| .skip rfl <|
      .rangeCheck (by simp [ranges]) rfl <| .complete _
  | unimplHash2 k => exact .raise rfl s
  | unimplRsa k => exact .raise rfl s
  | unimplOther w => exact .raise rfl s

end Sys2Proof.Machine
end

section
/-! THEOREMS. The obligations about the errors a command reports (60_exceptions.md). -/

namespace Sys2Proof.Machine

open Sys2Proof.Claims

/-- Settles O14: each command's checks stand in the order of R213, each raising the error of its row of R217. -/
theorem firstApplicableErrorIsReported : Obligations.FirstApplicableErrorIsReported := exec_reports

/-- Settles O15: by `exec_failed` the state is `State.failed` of an error, whose code ERRCODE then holds. -/
theorem failedCommandChangesNothingElse : Obligations.FailedCommandChangesNothingElse := by
  intro i s t h herr
  obtain ⟨e, rfl⟩ := exec_failed h herr
  rfl

end Sys2Proof.Machine
end

section
/-! SUPPORT. The decoder and the encoder undo each other (30_encoding.md R80, R83, R86, R87). -/

namespace Sys2Proof.Machine

/-- The row "every other word" holds the words that no other row holds (30_encoding.md R86, R87). -/
theorem Instr.unimplOther_wf_iff {w : Word} :
    (Instr.unimplOther w).wf = true ↔ w.toNat ∉ assignedOps ∧ ¬ (0x18 ≤ w.toNat ∧ w.toNat ≤ 0x1F) ∧
      ¬ (0x50 ≤ w.toNat ∧ w.toNat ≤ 0x5F) := by
  simp only [Instr.wf, isAssignedWord, isHash2Word, isRsaWord, Bool.not_eq_true', Bool.or_eq_false_iff,
    decide_eq_false_iff_not, List.contains_eq_mem, and_assoc]
  rfl

/-- A word of "every other word" decodes to its own row (30_encoding.md R86). -/
theorem decode_of_unassigned {w : Word} (h : (Instr.unimplOther w).wf = true) : decode w = .unimplOther w := by
  obtain ⟨hassigned, hhash2, hrsa⟩ := Instr.unimplOther_wf_iff.1 h
  by_cases hrsv : rsvField w = 0
  · rw [decode_of_op hrsv, decodeOp_of_unassigned w hassigned, if_neg hhash2, if_neg hrsa]
  · exact decode_of_rsvField hrsv

/-- Decoding undoes encoding on well-formed commands (30_encoding.md R80, R83, R87). -/
theorem decode_encode {i : Instr} (h : i.wf = true) : decode (encode i) = i := by
  cases i with
  | nop | ccInit | ccCombine | ccDestroy | sha1Create | sha1Update | sha1Digest | sha1Destroy | bcSetKey | bcClear
  | ecbEnc | ecbDec | cbcEnc | cbcDec | ctEq | ctEqb | cellOpen | cellClose | zeroize => exact decode_of_lt _
  | unimplHash2 k =>
    have stubs : ∀ k : BitVec 3, decode (encode (.unimplHash2 k)) = .unimplHash2 k := by decide
    exact stubs k
  | unimplRsa k =>
    have stubs : ∀ k : BitVec 4, decode (encode (.unimplRsa k)) = .unimplRsa k := by decide
    exact stubs k
  | unimplOther w => exact decode_of_unassigned h

/-- The bytes of a word decode to its command, whatever follows them (30_encoding.md R80). -/
theorem decodeBytes_le32bytes (w : Word) (rest : List Byte) :
    decodeBytes (le32bytes w ++ rest) = .ok (decode w, rest) := by
  show Except.ok (decode (le32 _ _ _ _), rest) = _
  rw [le32_le32bytes]

/-- Encoding undoes decoding, and what a word decodes to is well formed, for the words with RSV = 0: the opcode map
(30_encoding.md R83, R86, R87). -/
theorem encode_decode_of_op (b : Byte) :
    (decode (b.setWidth 32)).wf = true ∧ encode (decode (b.setWidth 32)) = b.setWidth 32 := by
  revert b
  decide

/-- Encoding undoes decoding, and what a word decodes to is well formed (30_encoding.md R86). -/
theorem encode_decode (w : Word) : (decode w).wf = true ∧ encode (decode w) = w := by
  by_cases hrsv : rsvField w = 0
  · obtain ⟨hlt, -⟩ := toNat_of_rsvField hrsv
    have hbyte : w = (w.setWidth 8).setWidth 32 := by bv_omega
    rw [hbyte]
    exact encode_decode_of_op _
  · rw [decode_of_rsvField hrsv]
    have hge : 256 ≤ w.toNat := Nat.le_of_not_lt fun hlt => hrsv (rsvField_of_lt hlt)
    have hassigned : ∀ op ∈ assignedOps, op < 256 := by decide
    exact ⟨Instr.unimplOther_wf_iff.2 ⟨fun hmem => by have := hassigned _ hmem; omega, by omega, by omega⟩, rfl⟩

end Sys2Proof.Machine
end

section
/-! THEOREMS. The obligations about the encoding (30_encoding.md). -/

namespace Sys2Proof.Machine

/-- Settles O2: by `decode_encode`, and the bytes of the word give it back. -/
theorem encodedCommandDecodesBack : Obligations.EncodedCommandDecodesBack := by
  intro i hi
  refine ⟨decode_encode hi, fun rest => ?_⟩
  rw [encodeBytes, decodeBytes_le32bytes, decode_encode hi]

/-- Settles O3: by `encode_decode`; another command of the word is what the word decodes to, by `decode_encode`. -/
theorem everyWordHasExactlyOneCommand : Obligations.EveryWordHasExactlyOneCommand := by
  intro w
  obtain ⟨hwf, hencode⟩ := encode_decode w
  refine ⟨hwf, hencode, fun i hi hiw => ?_⟩
  rw [← hiw, decode_encode hi]

end Sys2Proof.Machine
end

section
/-! SUPPORT. What every command and every host access leaves of the state as a whole (10_state.md; 60_exceptions.md
R211, R212, R216). -/

namespace Sys2Proof.Machine

/-- A host access that is no soft reset changes the registers, STATUS, the latch, the data buffer and the last read
value alone (10_state.md R22, 20_memory.md R63). -/
theorem State.hostAccess_frame {s t : State} {a : Access (BitVec 17)} (h : s.hostAccess a = .next t) :
    t = s.warmReset ∨
    t = { s with regs := t.regs, status := t.status, latch := t.latch, dbuf := t.dbuf, lastRead := t.lastRead } := by
  rcases s.hostAccess_cases a with ⟨v, e⟩ | ⟨off, v, -, -, -, e⟩ | ⟨x, bs, -, -, e⟩ | e | ⟨-, -, e⟩ <;>
    cases h.symm.trans e
  · exact .inr rfl
  · rcases s.regWrite_cases off.toNat v with ⟨-, e⟩ | ⟨-, e⟩ | ⟨r, -, -, e⟩ <;> rw [e]
    · cases hv : v.getLsbD 1
      · rw [State.writeCtrl_of_no_reset hv]
        exact .inr rfl
      · exact .inl (State.writeCtrl_of_reset hv)
    · cases hb : s.status.busy
      · rw [State.writeCmd_idle hb]
        exact .inr rfl
      · rw [State.writeCmd_busy hb]
        exact .inr rfl
    · exact .inr rfl
  · exact .inr rfl
  · exact .inr rfl

theorem State.hostAccess_params {s t : State} {a : Access (BitVec 17)} (h : s.hostAccess a = .next t) :
    t.params = s.params := by
  rcases State.hostAccess_frame h with rfl | e
  · exact s.warmReset_params
  · rw [e]

theorem exec_params {i : Instr} {s t : State} (h : exec i s = .next t) : t.params = s.params := by
  obtain ⟨e, h'⟩ | ⟨v, cc, sha, bc, cells, m, h'⟩ := exec_ends i s <;> cases h.symm.trans h' <;> rfl

/-! `State.StatusOk`. -/

/-- A command leaves ERR and ERRCODE consistent, whatever they were (60_exceptions.md R211, R212). -/
theorem exec_statusOk {i : Instr} {s t : State} (h : exec i s = .next t) : t.StatusOk := by
  obtain ⟨e, h'⟩ | ⟨v, cc, sha, bc, cells, m, h'⟩ := exec_ends i s <;> cases h.symm.trans h'
  · exact ⟨by simp, e.code_le_six, nofun⟩
  · exact ⟨by simp, by simp, nofun⟩

theorem State.statusOk_of_zero {s : State} (h : s.status = Status.zero) : s.StatusOk := by
  rw [State.StatusOk, h]
  exact ⟨rfl, by decide, nofun⟩

/-- A CTRL write clears at most OVR and DONE, or resets (10_state.md R24). -/
theorem State.writeCtrl_statusOk {s : State} (v : Word) (hs : s.StatusOk) : (s.writeCtrl v).StatusOk := by
  cases hv : v.getLsbD 1
  · obtain ⟨herr, hcode, hbusy⟩ := hs
    rw [State.writeCtrl_of_no_reset hv]
    exact ⟨herr, hcode, fun hb => ⟨by simp [(hbusy hb).1], (hbusy hb).2⟩⟩
  · rw [State.writeCtrl_of_reset hv]
    exact State.statusOk_of_zero rfl

/-- A CMD write sets OVR, or clears DONE, ERR and ERRCODE while it sets BUSY (30_encoding.md R84, R85). -/
theorem State.writeCmd_statusOk {s : State} (w : Word) (hs : s.StatusOk) : (s.writeCmd w).StatusOk := by
  cases hb : s.status.busy
  · rw [State.writeCmd_idle hb]
    exact ⟨rfl, Nat.zero_le 6, fun _ => ⟨rfl, rfl⟩⟩
  · rw [State.writeCmd_busy hb]
    exact hs

theorem State.hostAccess_statusOk {s t : State} {a : Access (BitVec 17)} (h : s.hostAccess a = .next t)
    (hs : s.StatusOk) : t.StatusOk := by
  rcases State.hostAccess_status_cases h with e | ⟨v, -, rfl⟩ | ⟨w, -, rfl⟩
  · rw [State.StatusOk, e]
    exact hs
  · exact State.writeCtrl_statusOk v hs
  · exact State.writeCmd_statusOk w hs

end Sys2Proof.Machine
end

section
/-! SUPPORT. The invariants of the three units: what the commands of a unit do to its own, and that nothing else touches
one (10_state.md R44 to R48). -/

namespace Sys2Proof.Machine

/-! The CC unit. -/

/-- What `State.CcOk` asks of a keyed CC unit: the constants, and the block for the counter before the current one. -/
def CcUnit.Aligned (u : CcUnit) : Prop :=
  u.s[0] = 0x61707865 ∧ u.s[1] = 0x3320646e ∧ u.s[2] = 0x79622d32 ∧ u.s[3] = 0x6b206574 ∧
  u.ks = keystreamBlock (withCounter u.s (counterOf u.s - 1))

/-- An Advance leaves the block for the counter before its new one (41_chacha20.md R121). -/
theorem CcUnit.advance_ks (u : CcUnit) :
    u.advance.ks = keystreamBlock (withCounter u.advance.s (counterOf u.advance.s - 1)) := by
  show keystreamBlock u.s = keystreamBlock (withCounter (bumpCounter u.s) (counterOf (bumpCounter u.s) - 1))
  rw [bumpCounter_eq, counterOf_withCounter, withCounter_withCounter, BitVec.add_sub_cancel, withCounter_counterOf]

/-- An Advance changes the two words of the counter alone (41_chacha20.md R125). -/
theorem CcUnit.advance_s_getElem (u : CcUnit) {i : Nat} (h : i < 16) (h12 : i ≠ 12) (h13 : i ≠ 13) :
    u.advance.s[i] = u.s[i] := by
  show (bumpCounter u.s)[i] = u.s[i]
  rw [bumpCounter_eq, withCounter_getElem _ _ _ h, if_neg h13, if_neg h12]

/-- An Advance of a unit with the constants leaves it aligned. -/
theorem CcUnit.advance_aligned {u : CcUnit} (h0 : u.s[0] = 0x61707865) (h1 : u.s[1] = 0x3320646e)
    (h2 : u.s[2] = 0x79622d32) (h3 : u.s[3] = 0x6b206574) : u.advance.Aligned :=
  ⟨(u.advance_s_getElem _ (by decide) (by decide)).trans h0, (u.advance_s_getElem _ (by decide) (by decide)).trans h1,
    (u.advance_s_getElem _ (by decide) (by decide)).trans h2, (u.advance_s_getElem _ (by decide) (by decide)).trans h3,
    u.advance_ks⟩

/-- Consuming a byte keeps a unit aligned: it moves the cursor, or it advances (41_chacha20.md R123). -/
theorem CcUnit.consume_aligned {u : CcUnit} (h : u.Aligned) : u.consume.Aligned := by
  unfold CcUnit.consume
  split
  · obtain ⟨h0, h1, h2, h3, -⟩ := h
    exact CcUnit.advance_aligned h0 h1 h2 h3
  · exact h

theorem CcUnit.consumed_aligned {u : CcUnit} (h : u.Aligned) (n : Nat) : (u.consumed n).Aligned := by
  induction n generalizing u with
  | zero => exact h
  | succ n ih => exact ih (CcUnit.consume_aligned h)

theorem State.ccOk_of_aligned {s : State} (hk : s.cc.keyed = true) (h : s.cc.Aligned) : s.CcOk :=
  ⟨fun _ => h, fun hn => by rw [hk] at hn; cases hn⟩

theorem State.ccOk_of_zero {s : State} (h : s.cc = CcUnit.zero) : s.CcOk := by
  rw [State.CcOk, h]
  exact ⟨nofun, fun _ => rfl⟩

/-! The SHA unit. -/

theorem State.shaOk_of_active {s : State} (h : s.sha.st = .active) : s.ShaOk := fun hn => absurd h hn

theorem State.shaOk_of_zeroed {s : State} {st : ShaState} (h : s.sha = ShaUnit.zeroed st) : s.ShaOk := by
  rw [State.ShaOk, h]
  exact fun _ => rfl

/-! The BC unit. -/

theorem State.bcOk_of_zero {s : State} (h : s.bc = BcUnit.zero s.params.blockSize) : s.BcOk := by
  rw [State.BcOk, h]
  exact ⟨rfl, nofun, fun _ => rfl, fun _ _ => Vector.getElem_replicate _⟩

/-- Loading a key of an accepted length from the data buffer keeps the BC unit clean (40_block_modes.md R101). -/
theorem State.BcOk.withKey {s : State} (h : s.BcOk) {n : Nat} (hn : keySizeOk s.params n = true) (a : Nat) :
    (s.setBc (s.bc.withKey (s.dbuf.readBytes a n) n)).BcOk :=
  ⟨h.1, fun _ => hn, nofun, fun i hi => (padKey_readBytes s.dbuf a n i).trans (if_neg (Nat.not_lt_of_le hi))⟩

/-- Clearing the key keeps the BC unit clean (40_block_modes.md R102). -/
theorem State.BcOk.clearKey {s : State} (h : s.BcOk) :
    (s.setBc { s.bc with key := Vector.replicate 32 0, keyLen := 0, keyed := false }).BcOk :=
  ⟨h.1, nofun, fun _ => rfl, fun _ _ => Vector.getElem_replicate _⟩

/-- Clearing BC_PREV keeps the BC unit clean (40_block_modes.md R106). -/
theorem State.BcOk.clearPrev {s : State} (h : s.BcOk) :
    (s.setBc { s.bc with prev := List.replicate s.params.blockSize 0 }).BcOk :=
  ⟨rfl, h.2⟩

/-! The commands. -/

/-- The next state keeps the invariants of the units. -/
def UnitsKept (s t : State) : Prop := (s.CcOk → t.CcOk) ∧ (s.ShaOk → t.ShaOk) ∧ (s.BcOk → t.BcOk)

/-- A result that answers a next state that keeps the invariants of the units. -/
def KeepsUnits (s : State) (r : Result) : Prop := ∃ t, r = .next t ∧ UnitsKept s t

theorem KeepsUnits.raise (s : State) (e : Err) : KeepsUnits s (s.raise e) := ⟨_, rfl, id, id, id⟩

theorem KeepsUnits.complete {s u : State} (hcc : s.CcOk → u.CcOk) (hsha : s.ShaOk → u.ShaOk)
    (hbc : s.BcOk → u.BcOk) : KeepsUnits s u.complete := ⟨_, rfl, hcc, hsha, hbc⟩

theorem KeepsUnits.ite {s : State} {p : Prop} [Decidable p] {a b : Result} (ha : KeepsUnits s a)
    (hb : ¬ p → KeepsUnits s b) : KeepsUnits s (if p then a else b) := by
  split
  · exact ha
  · exact hb ‹_›

theorem ecbWith_keepsUnits (f : List Byte → List Byte) (s : State) : KeepsUnits s (ecbWith f s) :=
  .ite (.raise _ _) fun _ => .ite (.raise _ _) fun _ => .ite (.raise _ _) fun _ => .complete id id id

theorem cbcWith_keepsUnits (loop : Nat → Nat → Nat → Nat → List Byte → Memory → Memory) (s : State) :
    KeepsUnits s (cbcWith loop s) :=
  .ite (.raise _ _) fun _ => .ite (.raise _ _) fun _ => .ite (.raise _ _) fun _ => .ite (.raise _ _) fun _ =>
    .complete id id State.BcOk.clearPrev

theorem execCcCombine_keepsUnits (s : State) : KeepsUnits s (execCcCombine s) := by
  refine .ite (.raise _ _) fun hk => .ite (.raise _ _) fun _ => .complete (fun h => ?_) id id
  rw [Bool.not_eq_false] at hk
  have hu := combineLoop_unit s.argLen s.argSrc s.argDst s.cc s.dbuf
  refine State.ccOk_of_aligned ?_ ?_
  · exact (congrArg CcUnit.keyed hu).trans ((s.cc.consumed_spec s.argLen).1.trans hk)
  · exact hu ▸ CcUnit.consumed_aligned (h.1 hk) s.argLen

theorem execSha1Update_keepsUnits (s : State) : KeepsUnits s (execSha1Update s) := by
  refine .ite (.raise _ _) fun hs => .ite (.raise _ _) fun _ => .complete id (fun _ => State.shaOk_of_active ?_) id
  exact (s.sha.absorb_st _).trans (not_not.1 hs)

/-- Every command keeps the invariants of the units. -/
theorem exec_keepsUnits (i : Instr) (s : State) : KeepsUnits s (exec i s) := by
  cases i with
  | nop => exact .complete id id id
  | ccInit =>
    exact .ite (.raise _ _) fun _ => .ite (.raise _ _) fun _ =>
      .complete (fun _ => State.ccOk_of_aligned rfl (CcUnit.advance_aligned rfl rfl rfl rfl)) id id
  | ccCombine => exact execCcCombine_keepsUnits s
  | ccDestroy => exact .complete (fun _ => State.ccOk_of_zero rfl) id id
  | sha1Create => exact .complete id (fun _ => State.shaOk_of_active rfl) id
  | sha1Update => exact execSha1Update_keepsUnits s
  | sha1Digest =>
    exact .ite (.raise _ _) fun _ => .ite (.raise _ _) fun _ => .complete id (fun _ => State.shaOk_of_zeroed rfl) id
  | sha1Destroy => exact .complete id (fun _ => State.shaOk_of_zeroed rfl) id
  | bcSetKey =>
    exact .ite (.raise _ _) fun hn => .ite (.raise _ _) fun _ =>
      .complete id id fun h => h.withKey (Bool.not_eq_false _ ▸ hn) _
  | bcClear => exact .complete id id State.BcOk.clearKey
  | ecbEnc => exact ecbWith_keepsUnits _ s
  | ecbDec => exact ecbWith_keepsUnits _ s
  | cbcEnc => exact cbcWith_keepsUnits _ s
  | cbcDec => exact cbcWith_keepsUnits _ s
  | ctEq =>
    exact .ite (.raise _ _) fun _ => .ite (.complete id id id) fun _ => .complete id id id
  | ctEqb => exact .ite (.raise _ _) fun _ => .complete id id id
  | cellOpen =>
    obtain ⟨e, h⟩ | ⟨j, -, -, -, h⟩ := execCellOpen_cases s
    · exact ⟨_, h, id, id, id⟩
    · exact ⟨_, h, id, id, id⟩
  | cellClose =>
    obtain ⟨e, h⟩ | ⟨c, -, h⟩ := execCellClose_cases s
    · exact ⟨_, h, id, id, id⟩
    · exact ⟨_, h, id, id, id⟩
  | zeroize => exact .ite (.raise _ _) fun _ => .complete id id id
  | unimplHash2 k => exact .raise _ _
  | unimplRsa k => exact .raise _ _
  | unimplOther w => exact .raise _ _

/-! Resets, host accesses and steps. -/

theorem State.warmReset_unitsKept (s : State) : UnitsKept s s.warmReset :=
  ⟨fun _ => State.ccOk_of_zero rfl, fun _ => State.shaOk_of_zeroed rfl, fun _ => State.bcOk_of_zero (by simp)⟩

theorem State.powerOnReset_unitsKept (s : State) : UnitsKept s s.powerOnReset :=
  ⟨fun _ => State.ccOk_of_zero rfl, fun _ => State.shaOk_of_zeroed rfl, fun _ => State.bcOk_of_zero rfl⟩

theorem State.hostAccess_unitsKept {s t : State} {a : Access (BitVec 17)} (h : s.hostAccess a = .next t) :
    UnitsKept s t := by
  rcases State.hostAccess_frame h with rfl | e
  · exact s.warmReset_unitsKept
  · rw [e]
    exact ⟨id, id, id⟩

/-- Every step keeps the invariants of the units. -/
theorem step_unitsKept {s t : State} (h : step s = .next t) : UnitsKept s t := by
  obtain ⟨u, hu, hcases⟩ := step_cases h
  have hsu : UnitsKept u t → UnitsKept s t := by
    rw [hu]
    exact id
  refine hsu ?_
  rcases hcases with ⟨-, he⟩ | ⟨-, rfl⟩ | ⟨a, ha⟩ | rfl | rfl | rfl
  · obtain ⟨t', he', hkept⟩ := exec_keepsUnits u.latched u
    cases he.symm.trans he'
    exact hkept
  · exact ⟨id, id, id⟩
  · exact State.hostAccess_unitsKept ha
  · exact ⟨id, id, id⟩
  · exact u.warmReset_unitsKept
  · exact u.powerOnReset_unitsKept

end Sys2Proof.Machine
end

section
/-! THEOREMS. The invariants that every step keeps, and what every command leaves (10_state.md, 60_exceptions.md). -/

namespace Sys2Proof.Machine

/-- Settles O9: the CC part of `step_unitsKept`. -/
theorem stepKeepsKeystreamInvariant : Obligations.StepKeepsKeystreamInvariant := by
  intro s t hs h
  obtain ⟨hcc, -, -⟩ := step_unitsKept h
  exact hcc hs

/-- Settles O10: each way a step ends keeps `State.StatusOk`. -/
theorem stepKeepsStatusFieldsLegal : Obligations.StepKeepsStatusFieldsLegal := by
  intro s t hs h
  obtain ⟨u, hu, hcases⟩ := step_cases h
  have hu : u.StatusOk := by
    rw [hu]
    exact hs
  rcases hcases with ⟨-, he⟩ | ⟨-, rfl⟩ | ⟨a, ha⟩ | rfl | rfl | rfl
  · exact exec_statusOk he
  · exact hu
  · exact State.hostAccess_statusOk ha hu
  · exact hu
  · exact State.statusOk_of_zero u.warmReset_status
  · exact State.statusOk_of_zero u.powerOnReset_status

/-- Settles O11: the SHA and BC parts of `step_unitsKept`. -/
theorem stepKeepsHashAndCipherUnitsClean : Obligations.StepKeepsHashAndCipherUnitsClean := by
  intro s t hs h
  obtain ⟨-, hsha, hbc⟩ := step_unitsKept h
  exact hs.imp hsha hbc

/-- Settles O12: each way a step ends leaves the parameters. -/
theorem stepKeepsParameters : Obligations.StepKeepsParameters := by
  intro s t h
  obtain ⟨u, hu, hcases⟩ := step_cases h
  have hparams : u.params = s.params := by rw [hu, State.setSchedule_params]
  rw [← hparams]
  rcases hcases with ⟨-, he⟩ | ⟨-, rfl⟩ | ⟨a, ha⟩ | rfl | rfl | rfl
  · exact exec_params he
  · rfl
  · exact State.hostAccess_params ha
  · rfl
  · exact u.warmReset_params
  · exact u.powerOnReset_params

/-- Settles O13: both ways a command ends write the completion fields and leave the host's state (`exec_ends`). -/
theorem everyCommandCompletesAndLeavesHostState : Obligations.EveryCommandCompletesAndLeavesHostState := by
  intro i s
  obtain ⟨e, h⟩ | ⟨v, cc, sha, bc, cells, m, h⟩ := exec_ends i s <;>
    exact ⟨_, h, rfl, rfl, rfl, rfl, rfl, rfl, rfl, rfl, rfl, rfl, rfl, rfl, rfl, rfl, rfl⟩

end Sys2Proof.Machine
end

section
/-! SUPPORT. The ways CT_EQ ends, and what a read tells of the state (43_ct_equality.md R171; 10_state.md R50). -/

namespace Sys2Proof.Machine

open Sys2Proof.Claims

/-- A range of one byte fits just when its byte does (20_memory.md R65). -/
theorem State.inRange_one {s : State} {a : Nat} : s.InRange a 1 ↔ a < s.params.dbufSize :=
  ⟨fun h => h.resolve_left (by decide), .inr⟩

/-- A CT_EQ that passes its range checks writes RESULT alone (43_ct_equality.md R171). -/
theorem execCtEq_in_range {s : State} (h1 : s.InRange s.argSrc s.argLen) (h2 : s.InRange s.argAux s.argAuxlen) :
    ∃ r : Word, execCtEq s = .next (s.setResult r).completed := by
  by_cases hl : s.argLen = s.argAuxlen
  · exact ⟨_, execCtEq_ok h1 h2 hl⟩
  · exact ⟨_, execCtEq_lengths h1 h2 hl⟩

/-- CELLS_OPEN shows of the cells which are open (10_state.md R34). -/
theorem cellsOpenField_congr (n : Nat) {cs ds : List SecCell} (h : cs.map SecCell.isOpen = ds.map SecCell.isOpen) :
    cellsOpenField n cs = cellsOpenField n ds := by
  apply BitVec.eq_of_getLsbD_eq
  intro i _
  rw [getLsbD_cellsOpenField, getLsbD_cellsOpenField, ← List.getElem?_map, ← List.getElem?_map, h]

/-- Machines that look alike show the same STATUS (10_state.md R25, R50). -/
theorem State.statusWord_of_lookAlike {s u : State} (h : LookAlike s u) : s.statusWord = u.statusWord := by
  obtain ⟨hparams, -, hstatus, -, hcc, hsha, hbc, hcells⟩ := h
  simp only [State.statusWord, hparams, hstatus, hcc, hsha, hbc, cellsOpenField_congr _ hcells]

/-- Machines that look alike answer every register read alike (10_state.md R22, R50). -/
theorem State.regRead_of_lookAlike {s u : State} (h : LookAlike s u) (off : Nat) : s.regRead off = u.regRead off := by
  have hstatus := State.statusWord_of_lookAlike h
  obtain ⟨-, hregs, -⟩ := h
  simp only [State.regRead, State.ctrlWord, hregs, hstatus]

end Sys2Proof.Machine
end

section
/-! THEOREMS. The obligations about the comparator and about hidden state (43_ct_equality.md, 10_state.md). -/

namespace Sys2Proof.Machine

open Sys2Proof.Claims

/-- Settles O33: it is `ctEqByte_eq_ite`. -/
theorem byteFoldIsEquality : Obligations.ByteFoldIsEquality := ctEqByte_eq_ite

/-- Settles O34: the equations of CT_EQ; RESULT says whether the two reads are equal, so whether their lengths and bytes
are. -/
theorem ctEqComparesWholeSequences : Obligations.CtEqComparesWholeSequences := by
  intro s
  refine ⟨execCtEq_range, fun h1 h2 => ?result, ?reads⟩
  case result =>
    obtain ⟨r, hexec⟩ := execCtEq_in_range h1 h2
    have hr := execCtEq_result hexec rfl
    replace hr : r = _ := hr
    refine ⟨r, hexec, ?_, ?_⟩ <;> rw [hr]
    · split
      · exact .inr rfl
      · exact .inl rfl
    · rw [← Memory.readBytes_eq_iff]
      simp
  case reads => exact eqScan_reads s.dbuf s.argLen s.argSrc s.argAux 0 []

/-- Settles O35: the equations of CT_EQB for ranges of one byte. -/
theorem ctEqbComparesTwoBytes : Obligations.CtEqbComparesTwoBytes := by
  intro s
  refine ⟨fun h => execCtEqb_range ?_, fun h1 h2 => ?_⟩
  · rwa [State.inRange_one, State.inRange_one, Nat.not_lt, Nat.not_lt]
  · exact (execCtEqb_ok (State.inRange_one.2 h1) (State.inRange_one.2 h2)).trans
      (by rw [setWidth_ctEqByte]; rfl)

/-- Settles O41: where an access goes, BUSY, the registers and the data buffer are all that a read depends on. -/
theorem hiddenStateIsUnreadable : Obligations.HiddenStateIsUnreadable := by
  intro s u off n h
  have hreg := State.regRead_of_lookAlike h
  obtain ⟨hparams, -, hstatus, hdbuf, -⟩ := h
  simp only [State.hostAccess, hparams, hstatus, hdbuf, hreg]
  cases targetOf u.params.dbufSize off.toNat n with
  | register r => rfl
  | buffer a => cases u.status.busy <;> rfl
  | nowhere => rfl

end Sys2Proof.Machine
end

section
/-! SUPPORT. What a warm reset leaves of a byte outside the open cells, and the DST range of each command
(70_reset_and_hazards.md R241, R243). -/

namespace Sys2Proof.Machine

open Sys2Proof.Claims

/-- A warm reset zeroes every byte of an open cell (70_reset_and_hazards.md R241). -/
theorem State.warmReset_read_inOpenCell {s : State} {a : Nat} (h : inOpenCell s a) : s.warmReset.dbuf.read a = 0 := by
  obtain ⟨i, c, hi, hc, hopen, h1, h2⟩ := h
  exact State.warmReset_zeroes_cell hi hc hopen h1 h2

/-- Outside the open cells a warm reset leaves what the abort left (70_reset_and_hazards.md R241). -/
theorem State.warmReset_read_outside {s : State} {a : Nat} (h : ¬ inOpenCell s a) :
    s.warmReset.dbuf.read a = s.abortRunning.dbuf.read a := by
  rw [State.warmReset_dbuf]
  refine zeroOpenCells_outside _ fun c hc hopen => ?_
  obtain ⟨i, hget⟩ := List.mem_iff_getElem?.1 hc
  rw [List.getElem?_take] at hget
  split at hget
  next hi =>
    by_contra hin
    exact h ⟨i, c, hi, hget, hopen, by omega, by omega⟩
  next => cases hget

/-- The commands that write the range of DST and LEN (70_reset_and_hazards.md R243). -/
theorem State.dstRange_of_len {s : State}
    (h : decode s.latch.word ∈ [Instr.ccCombine, .ecbEnc, .ecbDec, .cbcEnc, .cbcDec, .zeroize]) :
    s.dstRange = (s.argDst, s.argLen) := by
  simp only [List.mem_cons, List.not_mem_nil, or_false] at h
  rcases h with h | h | h | h | h | h <;> rw [State.dstRange, h]

/-- SHA1_DIGEST writes the 20 bytes of the digest (70_reset_and_hazards.md R243). -/
theorem State.dstRange_of_digest {s : State} (h : decode s.latch.word = .sha1Digest) : s.dstRange = (s.argDst, 20) := by
  rw [State.dstRange, h]

/-- Every other command writes nothing, or with CELL_CLOSE the region of an open cell (70_reset_and_hazards.md R243). -/
theorem State.outside_dstRange_of_other {s : State} {a : Nat} (ha : ¬ inOpenCell s a)
    (h : decode s.latch.word ∉
      [Instr.ccCombine, .ecbEnc, .ecbDec, .cbcEnc, .cbcDec, .zeroize, .sha1Digest]) :
    a < s.dstRange.1 ∨ s.dstRange.1 + s.dstRange.2 ≤ a := by
  unfold State.dstRange
  split
  case h_1 hd | h_2 hd | h_3 hd | h_4 hd | h_5 hd | h_6 hd | h_7 hd => simp [hd] at h
  case h_8 =>
    split
    next c hc =>
      obtain ⟨hi, hget, hopen⟩ := State.openCell_eq_some.1 hc
      by_contra hin
      exact ha ⟨_, c, hi, hget, hopen, by omega, by omega⟩
    next => exact .inr (Nat.zero_le a)
  all_goals exact .inr (Nat.zero_le a)

end Sys2Proof.Machine
end

section
/-! THEOREMS. The obligations about the resets (70_reset_and_hazards.md). -/

namespace Sys2Proof.Machine

open Sys2Proof.Claims

/-- Settles O6: `State.reset` field by field. -/
theorem resetStateIsZeroAndIdle : Obligations.ResetStateIsZeroAndIdle := by
  have cleared {n w : Nat} (i : Fin n) : (Vector.replicate n (0 : BitVec w))[i] = 0 := Vector.getElem_replicate _
  exact ⟨rfl, State.reset.clearUnits_statusWord, rfl, rfl, cleared, cleared, rfl, rfl, cleared, cleared, rfl, rfl, rfl,
    cleared, rfl, rfl, fun _ => List.eq_of_mem_replicate, rfl, fun _ => List.eq_of_mem_replicate, rfl⟩

/-- Settles O7: each part of the invariant at its reset value. -/
theorem resetMeetsTheInvariant : Obligations.ResetMeetsTheInvariant where
  legal := by decide
  dbuf := ⟨State.reset_dbuf_wf, nofun⟩
  cells := State.cellsOk_of_closed rfl
  status := State.statusOk_of_zero rfl
  cc := State.ccOk_of_zero rfl
  sha := State.shaOk_of_zeroed rfl
  bc := State.bcOk_of_zero rfl

/-- Settles O42: the fields after each reset, and the data buffer by whether a byte lies in an open cell. -/
theorem resetClearsAllButTheBuffer : Obligations.ResetClearsAllButTheBuffer := by
  intro s
  refine ⟨fun r hr => ?fields, fun a ha => State.warmReset_read_inOpenCell ha, fun hidle a ha => ?kept,
    fun v hv => ?soft⟩
  case fields =>
    have hid : answer (r.hostAccess (.read 0x00 4)) = some 0x43434501 :=
      congrArg answer (r.hostAccess_read_register 0x00)
    simp only [List.mem_cons, List.not_mem_nil, or_false] at hr
    rcases hr with rfl | rfl
    · exact ⟨rfl, rfl, rfl, rfl, rfl, s.warmReset_bc, s.warmReset_cells, hid, s.warmReset_params, s.warmReset_schedule,
        s.warmReset_lastRead⟩
    · exact ⟨rfl, rfl, rfl, rfl, rfl, rfl, rfl, hid, rfl, rfl, rfl⟩
  case kept => rw [State.warmReset_read_outside ha, State.abortRunning_idle hidle]
  case soft => exact (s.hostAccess_write_register 0x04 v).trans (congrArg _ (State.writeCtrl_of_reset hv))

/-- Settles O43: outside the open cells only the DST range of the aborted command is open
(`State.abortRunning_outside`). -/
theorem abortedCommandLeavesOnlyItsRangeOpen : Obligations.AbortedCommandLeavesOnlyItsRangeOpen := by
  intro s _
  refine ⟨rfl, rfl, rfl, fun a ha => State.warmReset_read_inOpenCell ha, fun a ha => ?_⟩
  rw [State.warmReset_read_outside ha]
  refine ⟨fun hi hout => ?_, fun hi hout => ?_, fun hi => ?_⟩ <;> apply State.abortRunning_outside
  · rw [State.dstRange_of_len hi]
    exact hout
  · rw [State.dstRange_of_digest hi]
    exact hout
  · exact State.outside_dstRange_of_other ha hi

/-- Settles O44: a power-on leaves an empty list of written bytes of the next power-on. -/
theorem powerOnDrawsEveryByte : Obligations.PowerOnDrawsEveryByte := fun _ => ⟨fun _ => rfl, rfl⟩

end Sys2Proof.Machine
end

section
/-! SUPPORT. Data-buffer accesses, reads made again, and when an access, a turn or a step is the race of R71
(20_memory.md R61, R63, R68, R71). -/

namespace Sys2Proof.Machine

open Sys2Proof.Claims

/-- The window offset of a data-buffer address below 64 KiB (20_memory.md R60). -/
theorem bufferOffset_toNat {a : Nat} (h : a < 0x10000) : (bufferOffset a).toNat = 0x10000 + a := by
  rw [bufferOffset, BitVec.toNat_ofNat]
  omega

/-- The data-buffer address of an aligned access below DBUF_SIZE (20_memory.md R63). -/
theorem targetOf_bufferOffset {size a n : Nat} (ha : a < 0x10000) (hn : BufferWidth n) (halign : a % n = 0)
    (hsize : a + n ≤ size) : targetOf size (bufferOffset a).toNat n = .buffer a := by
  have hsub : 0x10000 + a - 0x10000 = a := by omega
  rw [bufferOffset_toNat ha]
  exact targetOf_eq_buffer.2 ⟨by omega, hn, (congrArg (· % n) hsub).trans halign, by omega, hsub.symm⟩

/-- A data-buffer access that is not naturally aligned is not performed (20_memory.md R63). -/
theorem targetOf_bufferOffset_misaligned {size a n : Nat} (ha : a < 0x10000) (halign : a % n ≠ 0) :
    targetOf size (bufferOffset a).toNat n = .nowhere := by
  rw [bufferOffset_toNat ha]
  exact targetOf_reserved (by omega) (.inr (.inl (by rwa [show 0x10000 + a - 0x10000 = a by omega])))

section
variable {s : State} {off : BitVec 17} {n a : Nat}

/-- A performed data-buffer read with no command running (20_memory.md R63). -/
theorem State.hostAccess_read_buffer (hb : s.status.busy = false)
    (h : targetOf s.params.dbufSize off.toNat n = .buffer a) :
    s.hostAccess (.read off n) = .next (s.setLastRead (some (leValue (s.dbuf.readBytes a n)))) := by
  simp [State.hostAccess, h, hb]

/-- A performed data-buffer write with no command running (20_memory.md R63). -/
theorem State.hostAccess_write_buffer (v : Word) (hb : s.status.busy = false)
    (h : targetOf s.params.dbufSize off.toNat n = .buffer a) :
    s.hostAccess (.write off n v) = .next (s.setDbuf (s.dbuf.writeBytes a (storedBytes n v))) := by
  simp [State.hostAccess, h, hb]

end

/-- A read does not depend on what was read before it (20_memory.md R68). -/
theorem State.hostAccess_read_setLastRead (s : State) (v : Option Word) (off : BitVec 17) (n : Nat) :
    (s.setLastRead v).hostAccess (.read off n) = s.hostAccess (.read off n) := rfl

/-! The race. -/

/-- A result that is HostRace when `p` holds, and a next state when not. -/
def RacesIff (r : Result) (p : Prop) : Prop := (r = .fault .hostRace ∧ p) ∨ ((∃ t, r = .next t) ∧ ¬ p)

theorem RacesIff.fault_iff {r : Result} {p : Prop} (h : RacesIff r p) : r = .fault .hostRace ↔ p := by
  rcases h with ⟨rfl, hp⟩ | ⟨⟨t, rfl⟩, hp⟩
  · exact iff_of_true rfl hp
  · exact iff_of_false nofun hp

theorem RacesIff.not_refused {r : Result} {p : Prop} (h : RacesIff r p) (x : Refusal) : r ≠ .refused x := by
  rcases h with ⟨rfl, -⟩ | ⟨⟨t, rfl⟩, -⟩ <;> exact nofun

theorem RacesIff.congr {r : Result} {p q : Prop} (h : RacesIff r p) (hpq : p ↔ q) : RacesIff r q := propext hpq ▸ h

/-- A result that is a next state and no race. -/
theorem RacesIff.of_next {r : Result} {t : State} {p : Prop} (h : r = .next t) (hp : ¬ p) : RacesIff r p :=
  .inr ⟨⟨t, h⟩, hp⟩

/-- A host access races when it is performed on the data buffer while BUSY (20_memory.md R71). -/
theorem State.hostAccess_racesIff (s : State) (a : Access (BitVec 17)) :
    RacesIff (s.hostAccess a)
      (s.status.busy = true ∧ ∃ x, targetOf s.params.dbufSize a.place.toNat a.width = .buffer x) := by
  rcases a with ⟨off, n⟩ | ⟨off, n, v⟩
  all_goals
    simp only [State.hostAccess, Access.place, Access.width]
    cases targetOf s.params.dbufSize off.toNat n with
    | register r => exact .of_next rfl (by simp)
    | buffer x => cases s.status.busy <;> simp [RacesIff]
    | nowhere => exact .of_next rfl (by simp)

/-- An access in the window is performed on the data buffer just when it reaches its bytes (20_memory.md R61, R63). -/
theorem exists_targetOf_buffer_iff {p : Params} {off : BitVec 17} {n : Nat} :
    (∃ x, targetOf p.dbufSize off.toNat n = .buffer x) ↔ reachesBuffer p (p.cceBase + off.toNat) n := by
  have hlt := off.isLt
  have hsub : p.cceBase + off.toNat - (p.cceBase + 0x10000) = off.toNat - 0x10000 := by omega
  simp only [targetOf_eq_buffer, reachesBuffer, hsub]
  constructor
  · rintro ⟨x, hlow, hn, halign, hsize, -⟩
    exact ⟨hn, by omega, by omega, halign, hsize⟩
  · rintro ⟨hn, hlow, -, halign, hsize⟩
    exact ⟨_, by omega, hn, halign, hsize, rfl⟩

/-- An access on the bus races when it reaches bytes of the data buffer while BUSY (20_memory.md R61, R71). -/
theorem State.busAccess_racesIff (s : State) (a : Access Nat) :
    RacesIff (s.busAccess a) (s.status.busy = true ∧ reachesBuffer s.params a.place a.width) := by
  rcases s.busAccess_cases a with ⟨off, hplace, e⟩ | ⟨hout, e⟩ <;> rw [e]
  · refine (s.hostAccess_racesIff _).congr (and_congr_right fun _ => ?_)
    rw [Access.moveTo_place, Access.moveTo_width, hplace]
    exact exists_targetOf_buffer_iff
  · refine .of_next rfl ?_
    rintro ⟨-, -, hlow, hhigh, -⟩
    omega

/-- The engine's turn answers a next state (60_exceptions.md R230). -/
theorem State.engineTurn_next (s : State) : ∃ t, s.engineTurn = .next t := by
  rcases s.engineTurn_cases with ⟨-, h⟩ | ⟨-, h⟩
  · obtain ⟨e, h'⟩ | ⟨_, _, _, _, _, _, h'⟩ := exec_ends s.latched s <;> exact ⟨_, h.trans h'⟩
  · exact ⟨s, h⟩

/-- A turn races when it is such an access. -/
theorem State.takeTurn_racesIff (s : State) (x : Turn) :
    RacesIff (s.takeTurn x) (s.status.busy = true ∧ ∃ a, x = .host a ∧ reachesBuffer s.params a.place a.width) := by
  cases x with
  | engine =>
    obtain ⟨t, h⟩ := s.engineTurn_next
    exact .of_next h (by simp)
  | host a => exact (s.busAccess_racesIff a).congr (by simp)
  | warmReset => exact .of_next rfl (by simp)
  | powerOn => exact .of_next rfl (by simp)

/-- A step races when its turn does. -/
theorem step_racesIff (s : State) :
    RacesIff (step s)
      (s.status.busy = true ∧ ∃ a rest, s.schedule = .host a :: rest ∧ reachesBuffer s.params a.place a.width) := by
  cases hs : s.schedule with
  | nil =>
    obtain ⟨t, h⟩ := s.engineTurn_next
    exact .of_next (by rw [step, hs, h]) (by simp)
  | cons x rest =>
    rw [step_of_schedule hs]
    exact ((s.setSchedule rest).takeTurn_racesIff x).congr (by simp)

end Sys2Proof.Machine
end

section
/-! THEOREMS. The obligations about the data buffer and the window on the bus (20_memory.md). -/

namespace Sys2Proof.Machine

open Sys2Proof.Claims

/-- Settles O50: an aligned access is at its data-buffer address, and one that is not goes nowhere. -/
theorem bufferAccessesAreLittleEndian : Obligations.BufferAccessesAreLittleEndian := by
  intro s a n v hlegal hn
  obtain ⟨-, hmax, -⟩ := hlegal
  refine ⟨fun hidle hsize halign => ?performed, fun ha halign => ?misaligned⟩
  case performed =>
    have htarget := targetOf_bufferOffset (by omega) hn halign hsize
    refine ⟨⟨_, State.hostAccess_read_buffer hidle htarget, fun i hi => ?_, ?_⟩,
      _, State.hostAccess_write_buffer v hidle htarget, fun i hi => ?_, fun x hx => ?_⟩
    · rw [extract_leValue _ (by omega), Memory.readBytes_getD _ _ hi]
    · simpa using leValue_lt (s.dbuf.readBytes a n)
    · rw [Memory.read_writeBytes_inside _ (by rwa [storedBytes_length hn]), storedBytes_getD hn v hi]
    · exact Memory.read_writeBytes_outside _ (by rwa [storedBytes_length hn])
  case misaligned =>
    have hnowhere := targetOf_bufferOffset_misaligned (size := s.params.dbufSize) ha halign
    exact ⟨State.hostAccess_read_nowhere hnowhere, State.hostAccess_write_nowhere v hnowhere⟩

/-- Settles O51: such an access goes nowhere; and every access is answered or is the race. -/
theorem reservedWindowReadsZero : Obligations.ReservedWindowReadsZero := by
  refine ⟨fun s off n v _ h => ?reserved, fun s a => ?answered⟩
  case reserved =>
    have hnowhere : targetOf s.params.dbufSize off.toNat n = .nowhere := targetOf_reserved (by omega) (by omega)
    exact ⟨State.hostAccess_read_nowhere hnowhere, State.hostAccess_write_nowhere v hnowhere⟩
  case answered =>
    rcases s.hostAccess_racesIff a with ⟨h, hbusy, hbuffer⟩ | ⟨h, -⟩
    · exact .inr ⟨h, hbusy, exists_targetOf_buffer_iff.1 hbuffer⟩
    · exact .inl h

/-- Settles O52: a read leaves all but the last read value, on which no read depends. -/
theorem readsHaveNoSideEffects : Obligations.ReadsHaveNoSideEffects := by
  intro s t off n h
  obtain ⟨v, rfl⟩ := State.hostAccess_read_next h
  exact ⟨rfl, (s.hostAccess_read_setLastRead v off n).trans h⟩

/-- Settles O53: both parts are `step_racesIff`. -/
theorem hostRaceIsTheOnlyStop : Obligations.HostRaceIsTheOnlyStop :=
  ⟨fun s => (step_racesIff s).fault_iff, fun s => (step_racesIff s).not_refused⟩

end Sys2Proof.Machine
end

section
/-! SUPPORT. One step for each kind of turn, and what a CTRL or CMD write leaves of ERR (20_memory.md R61;
60_exceptions.md R216, R230). -/

namespace Sys2Proof.Machine

open Sys2Proof.Claims

theorem State.engineTurn_busy {s : State} (h : s.status.busy = true) : s.engineTurn = exec s.latched s := if_pos h

theorem State.engineTurn_idle {s : State} (h : s.status.busy = false) : s.engineTurn = .next s :=
  if_neg (by simp [h])

/-- With no turn left the engine moves (70_reset_and_hazards.md R257). -/
theorem step_of_empty {s : State} (h : s.schedule = []) : step s = s.engineTurn := by
  rw [step, h]

/-- An access at an offset of the window (20_memory.md R61). -/
theorem State.busAccess_inside {s : State} {a : Access Nat} {off : BitVec 17}
    (h : a.place = s.params.cceBase + off.toNat) : s.busAccess a = s.hostAccess (a.moveTo off) := by
  rw [State.busAccess, h, windowOffset_add]

/-- An access that starts outside the window (20_memory.md R61). -/
theorem State.busAccess_outside {s : State} {a : Access Nat}
    (h : a.place < s.params.cceBase ∨ s.params.cceBase + 0x20000 ≤ a.place) : s.busAccess a = .next s := by
  rw [State.busAccess, windowOffset_eq_none.2 h]

/-- A CMD write while BUSY, as a step (30_encoding.md R85). -/
theorem step_cmd_write_busy {s : State} {w : Word} {rest : List Turn}
    (h : s.schedule = .host (.write (s.params.cceBase + 0x0C) 4 w) :: rest) (hb : s.status.busy = true) :
    step s = .next ((s.setSchedule rest).setStatus { s.status with ovr := true }) := by
  rw [step_of_schedule h]
  exact ((s.setSchedule rest).takeTurn_cmd_write w).trans
    (congrArg _ (State.writeCmd_busy (s := s.setSchedule rest) hb w))

/-- A CMD write while idle, as a step (30_encoding.md R84). -/
theorem step_cmd_write_idle {s : State} {w : Word} {rest : List Turn}
    (h : s.schedule = .host (.write (s.params.cceBase + 0x0C) 4 w) :: rest) (hb : s.status.busy = false) :
    step s = .next ((s.setSchedule rest).issue w) := by
  rw [step_of_schedule h]
  exact ((s.setSchedule rest).takeTurn_cmd_write w).trans
    (congrArg _ (State.writeCmd_idle (s := s.setSchedule rest) hb w))

/-- A CTRL write without SRST, as a step (10_state.md R24). -/
theorem step_ctrl_write {s : State} {v : Word} {rest : List Turn}
    (h : s.schedule = .host (.write (s.params.cceBase + 0x04) 4 v) :: rest) (hv : v.getLsbD 1 = false) :
    step s = .next (((s.setSchedule rest).setRegs { s.regs with ie := v.getLsbD 0 }).setStatus
      { s.status with
        ovr := if v.getLsbD 2 then false else s.status.ovr
        done := if v.getLsbD 3 then false else s.status.done }) := by
  rw [step_of_schedule h]
  exact ((s.setSchedule rest).takeTurn_ctrl_write v).trans (congrArg _ (State.writeCtrl_of_no_reset hv))

/-- The engine's turn of a BUSY machine completes the command and leaves the host's state (60_exceptions.md R230). -/
theorem step_engine_completes {s : State} {rest : List Turn} (h : s.schedule = .engine :: rest)
    (hb : s.status.busy = true) :
    ∃ t, step s = .next t ∧ t.status.busy = false ∧ t.status.done = true ∧ t.status.ovr = s.status.ovr ∧
      t.latch = s.latch ∧ t.params = s.params ∧ t.schedule = rest := by
  obtain ⟨t, hexec, hbusy, hdone, hovr, -, -, -, -, -, -, hlatch, hparams, -, hschedule, -⟩ :=
    everyCommandCompletesAndLeavesHostState (s.setSchedule rest).latched (s.setSchedule rest)
  refine ⟨t, ?_, hbusy, hdone, hovr, hlatch, hparams, hschedule⟩
  rw [step_of_schedule h, ← hexec]
  exact State.engineTurn_busy hb

/-- A step to a BUSY machine and the engine's turn after it. -/
theorem run_then_engine {s u : State} {rest : List Turn} (h : step s = .next u) (hs : u.schedule = .engine :: rest)
    (hb : u.status.busy = true) :
    ∃ t, Sys2Proof.core.run 2 s = .next t ∧ t.status.busy = false ∧ t.status.done = true ∧
      t.status.ovr = u.status.ovr ∧ t.latch = u.latch ∧ t.schedule = rest := by
  obtain ⟨t, ht, hbusy, hdone, hovr, hlatch, -, hsched⟩ := step_engine_completes hs hb
  exact ⟨t, (run_succ 1 h).trans (run_succ 0 ht), hbusy, hdone, hovr, hlatch, hsched⟩

/-- The engine's turn of a BUSY machine and a step after it. -/
theorem run_engine_then {s : State} {rest : List Turn} (hs : s.schedule = .engine :: rest)
    (hb : s.status.busy = true) :
    ∃ t, t.status.busy = false ∧ t.status.ovr = s.status.ovr ∧ t.params = s.params ∧ t.schedule = rest ∧
      ∀ u, step t = .next u → Sys2Proof.core.run 2 s = .next u := by
  obtain ⟨t, ht, hbusy, -, hovr, -, hparams, hsched⟩ := step_engine_completes hs hb
  exact ⟨t, hbusy, hovr, hparams, hsched, fun u hu => (run_succ 1 ht).trans (run_succ 0 hu)⟩

/-- A CTRL write without SRST leaves ERR and ERRCODE (10_state.md R24). -/
theorem State.writeCtrl_err {s : State} {v : Word} (h : v.getLsbD 1 = false) :
    (s.writeCtrl v).status.err = s.status.err ∧ (s.writeCtrl v).status.errCode = s.status.errCode := by
  rw [State.writeCtrl_of_no_reset h]
  exact ⟨rfl, rfl⟩

/-- A turn that changes ERR or ERRCODE is a reset, a completion or an accepted CMD write (60_exceptions.md R216). -/
theorem State.takeTurn_changes_err {s t : State} {x : Turn} (h : s.takeTurn x = .next t)
    (hne : t.status.err ≠ s.status.err ∨ t.status.errCode ≠ s.status.errCode) :
    resetTurn s.params.cceBase x ∨ (s.status.busy = true ∧ x = .engine) ∨
    (s.status.busy = false ∧ ∃ v, x = .host (.write (s.params.cceBase + 0x0C) 4 v)) := by
  rcases State.takeTurn_status_cases h with e | ⟨rfl, hb, -⟩ | ⟨hx, -⟩ | ⟨v, hx, rfl⟩ | ⟨w, hx, rfl⟩
  · rw [e] at hne
    simp at hne
  · exact .inr (.inl ⟨hb, rfl⟩)
  · exact .inl (hx.imp id .inl)
  · cases hv : v.getLsbD 1
    · rw [(State.writeCtrl_err hv).1, (State.writeCtrl_err hv).2] at hne
      simp at hne
    · exact .inl (.inr (.inr (ctrlWriteWith_iff.2 ⟨v, hx, hv⟩)))
  · cases hb : s.status.busy
    · exact .inr (.inr ⟨rfl, w, hx⟩)
    · rw [State.writeCmd_busy hb] at hne
      simp at hne

end Sys2Proof.Machine
end

section
/-! SUPPORT. The host's side of a BUSY machine: what quiet accesses change, and that no command depends on it
(70_reset_and_hazards.md R250, R252, R257). -/

namespace Sys2Proof.Machine

open Sys2Proof.Claims

/-- The state with the host's side replaced: the registers but RESULT, STATUS, the turns to come and the last read
value. -/
def State.hostSide (s : State) (r : Regs) (st : Status) (sched : List Turn) (v : Option Word) : State :=
  { s with regs := { r with result := s.regs.result }, status := st, schedule := sched, lastRead := v }

/-- The second result is the first with the host's side replaced, but for the completion fields, which it shares. -/
def SameBut (r : Regs) (ovr : Bool) (sched : List Turn) (v : Option Word) (x y : Result) : Prop :=
  ∃ u, x = .next u ∧ y = .next (u.hostSide r { u.status with ovr := ovr } sched v)

section
variable {r : Regs} {ovr : Bool} {sched : List Turn} {v : Option Word}

theorem SameBut.raise (s : State) (st : Status) (e : Err) :
    SameBut r st.ovr sched v (s.raise e) ((s.hostSide r st sched v).raise e) := ⟨_, rfl, rfl⟩

theorem SameBut.complete (s : State) (st : Status) :
    SameBut r st.ovr sched v s.complete (s.hostSide r st sched v).complete := ⟨_, rfl, rfl⟩

theorem SameBut.ite {p : Prop} [Decidable p] {a b a' b' : Result} (ha : SameBut r ovr sched v a a')
    (hb : SameBut r ovr sched v b b') : SameBut r ovr sched v (if p then a else b) (if p then a' else b') := by
  split
  · exact ha
  · exact hb

end

theorem execCellOpen_hostSide (s : State) (r : Regs) (st : Status) (sched : List Turn) (v : Option Word) :
    SameBut r st.ovr sched v (execCellOpen s) (execCellOpen (s.hostSide r st sched v)) := by
  by_cases hl : s.argAuxlen = 0
  · exact ⟨_, execCellOpen_length hl, execCellOpen_length (s := s.hostSide r st sched v) hl⟩
  by_cases hr : s.InRange s.argAux s.argAuxlen
  · cases hf : freeCell s.params.nCells s.cells with
    | none => exact ⟨_, execCellOpen_full hl hr hf, execCellOpen_full (s := s.hostSide r st sched v) hl hr hf⟩
    | some i => exact ⟨_, execCellOpen_ok hl hr hf, execCellOpen_ok (s := s.hostSide r st sched v) hl hr hf⟩
  · exact ⟨_, execCellOpen_range hl hr, execCellOpen_range (s := s.hostSide r st sched v) hl hr⟩

theorem execCellClose_hostSide (s : State) (r : Regs) (st : Status) (sched : List Turn) (v : Option Word) :
    SameBut r st.ovr sched v (execCellClose s) (execCellClose (s.hostSide r st sched v)) := by
  cases hc : s.openCell s.argSrc with
  | none => exact ⟨_, execCellClose_misuse hc, execCellClose_misuse (s := s.hostSide r st sched v) hc⟩
  | some c => exact ⟨_, execCellClose_ok hc, execCellClose_ok (s := s.hostSide r st sched v) hc⟩

/-- The same command on the same machine but for the host's side answers the same machine but for the host's side: a
command takes its operands from the latch (30_encoding.md R84, 70_reset_and_hazards.md R250). -/
theorem exec_hostSide (i : Instr) (s : State) (r : Regs) (st : Status) (sched : List Turn) (v : Option Word) :
    SameBut r st.ovr sched v (exec i s) (exec i (s.hostSide r st sched v)) := by
  have raise (e : Err) := SameBut.raise (r := r) (sched := sched) (v := v) s st e
  have complete (u : State) := SameBut.complete (r := r) (sched := sched) (v := v) u st
  cases i with
  | nop => exact complete s
  | ccInit => exact .ite (raise _) <| .ite (raise _) <| complete (s.setCc _)
  | ccCombine => exact .ite (raise _) <| .ite (raise _) <| complete ((s.setCc _).setDbuf _)
  | ccDestroy => exact complete (s.setCc _)
  | sha1Create => exact complete (s.setSha _)
  | sha1Update => exact .ite (raise _) <| .ite (raise _) <| complete (s.setSha _)
  | sha1Digest => exact .ite (raise _) <| .ite (raise _) <| complete ((s.setDbuf _).setSha _)
  | sha1Destroy => exact complete (s.setSha _)
  | bcSetKey => exact .ite (raise _) <| .ite (raise _) <| complete (s.setBc _)
  | bcClear => exact complete (s.setBc _)
  | ecbEnc | ecbDec => exact .ite (raise _) <| .ite (raise _) <| .ite (raise _) <| complete (s.setDbuf _)
  | cbcEnc | cbcDec =>
    exact .ite (raise _) <| .ite (raise _) <| .ite (raise _) <| .ite (raise _) <| complete ((s.setDbuf _).setBc _)
  | ctEq => exact .ite (raise _) <| .ite (complete (s.setResult _)) <| complete (s.setResult _)
  | ctEqb => exact .ite (raise _) <| complete (s.setResult _)
  | cellOpen => exact execCellOpen_hostSide s r st sched v
  | cellClose => exact execCellClose_hostSide s r st sched v
  | zeroize => exact .ite (raise _) <| complete (s.setDbuf _)
  | unimplHash2 k => exact raise _
  | unimplRsa k => exact raise _
  | unimplOther w => exact raise _

/-- A quiet access of a BUSY machine changes the host's side alone, and leaves BUSY and the turns (20_memory.md R61,
R62; 10_state.md R24). -/
theorem State.busAccess_quiet {s : State} {a : Access Nat} (hq : quietAccess s.params.cceBase a)
    (hb : s.status.busy = true) :
    ∃ t, s.busAccess a = .next t ∧ t.status.busy = true ∧ t = s.hostSide t.regs t.status s.schedule t.lastRead := by
  obtain ⟨hplace, hreset⟩ := hq
  rcases s.busAccess_cases a with ⟨off, hoff, e⟩ | ⟨-, e⟩ <;> rw [e]
  · rcases s.hostAccess_cases (a.moveTo off) with ⟨v, e⟩ | ⟨off', v, ha, -, -, e⟩ | ⟨_, _, hidle, -, -⟩ | e |
      ⟨-, hbuffer, -⟩
    · exact ⟨_, e, hb, rfl⟩
    · obtain ⟨rfl, hw⟩ := Access.eq_of_moveTo_eq_write ha
      refine ⟨_, e, ?_⟩
      rcases s.regWrite_cases off.toNat v with ⟨h4, e⟩ | ⟨-, e⟩ | ⟨r, -, hresult, e⟩ <;> rw [e]
      · have hsrst : v.getLsbD 1 = false := Bool.eq_false_iff.2 fun hv =>
          hreset (ctrlWriteWith_iff.2 ⟨v, by rw [hw, hoff, h4], hv⟩)
        rw [State.writeCtrl_of_no_reset hsrst]
        exact ⟨hb, rfl⟩
      · rw [State.writeCmd_busy hb]
        exact ⟨hb, rfl⟩
      · rw [State.hostSide, ← hresult]
        exact ⟨hb, rfl⟩
    · rw [hb] at hidle
      cases hidle
    · exact ⟨_, e, hb, rfl⟩
    · rw [Access.moveTo_place] at hbuffer
      have := off.isLt
      omega
  · exact ⟨_, rfl, hb, rfl⟩

/-- Quiet accesses before the other turns of a BUSY machine change the host's side alone. -/
theorem run_quiet (pre : List (Access Nat)) (k : Nat) (rest : List Turn) (s : State) (hb : s.status.busy = true)
    (hq : ∀ a ∈ pre, quietAccess s.params.cceBase a) (hs : s.schedule = pre.map Turn.host ++ rest) :
    ∃ r st v, st.busy = true ∧
      Sys2Proof.core.run (pre.length + k) s = Sys2Proof.core.run k (s.hostSide r st rest v) := by
  induction pre generalizing s with
  | nil =>
    refine ⟨s.regs, s.status, s.lastRead, hb, ?_⟩
    rw [List.length_nil, Nat.zero_add, State.hostSide, ← hs.trans (List.nil_append rest)]
  | cons a pre ih =>
    obtain ⟨t, e, hbt, ht⟩ :=
      State.busAccess_quiet (s := s.setSchedule (pre.map Turn.host ++ rest)) (hq a List.mem_cons_self) hb
    have hparams : t.params = s.params := by rw [ht]; rfl
    obtain ⟨r, st, v, hst, e'⟩ :=
      ih t hbt (fun a ha => hparams ▸ hq a (List.mem_cons_of_mem _ ha)) (by rw [ht]; rfl)
    refine ⟨r, st, v, hst, ?_⟩
    rw [List.length_cons, Nat.add_right_comm, run_succ _ ((step_of_schedule hs).trans e), e', ht]
    rfl

end Sys2Proof.Machine
end

section
/-! THEOREMS. The obligations about turns, their order and host programs (60_exceptions.md, 70_reset_and_hazards.md,
30_encoding.md). -/

namespace Sys2Proof.Machine

open Sys2Proof.Claims

/-- Settles O4: one equation per kind of turn; the fetch hook is `State.issue` with the engine's turn next. -/
theorem stepTakesTheNextTurn : Obligations.StepTakesTheNextTurn := by
  intro s rest
  refine ⟨?engine, ?lastEngine, fun hs hb => ?idle, fun hs hb => ?lastIdle, fun a off hs ha => ?inside,
    fun a hs ha => ?outside, step_of_schedule, step_of_schedule, fun w => ?fetch⟩
  case engine =>
    rintro _ hs hb rfl
    exact (step_of_schedule hs).trans (State.engineTurn_busy hb)
  case lastEngine =>
    rintro _ hs hb rfl
    exact (step_of_empty hs).trans (State.engineTurn_busy hb)
  case idle => exact (step_of_schedule hs).trans (State.engineTurn_idle hb)
  case lastIdle => exact (step_of_empty hs).trans (State.engineTurn_idle hb)
  case inside => exact (step_of_schedule hs).trans (State.busAccess_inside ha)
  case outside => exact (step_of_schedule hs).trans (State.busAccess_outside ha)
  case fetch =>
    rw [State.withFetchWord, tableWord_toNat]
    exact (step_of_schedule (x := .engine) (rest := s.schedule) rfl).trans (s.issue_engineTurn w)

/-- Settles O57: the step takes the turn, and `State.takeTurn_changes_err` says which turns these are. -/
theorem errorStaysUntilIssueOrReset : Obligations.ErrorStaysUntilIssueOrReset := by
  intro s t x rest hs h
  rw [step_of_schedule hs] at h
  exact State.takeTurn_changes_err (s := s.setSchedule rest) h

/-- Settles O58: each order is two steps, the write's and the engine's. -/
theorem racingWritesAdmitBothOrders : Obligations.RacingWritesAdmitBothOrders := by
  intro s w rest hb hovr
  refine ⟨?cmdBefore, ?cmdAfter, fun v hsrst hclear => ⟨?ctrlBefore, ?ctrlAfter⟩⟩
  case cmdBefore =>
    exact run_then_engine (step_cmd_write_busy (s := { s with
      schedule := .host (.write (s.params.cceBase + 0x0C) 4 w) :: .engine :: rest }) rfl hb) rfl hb
  case cmdAfter =>
    obtain ⟨t, hbusy, hovr', hparams, hsched, hrun⟩ := run_engine_then (s := { s with
      schedule := .engine :: .host (.write (s.params.cceBase + 0x0C) 4 w) :: rest }) rfl hb
    have hwrite := step_cmd_write_idle (hsched.trans (by rw [hparams])) hbusy
    exact ⟨_, hrun _ hwrite, rfl, rfl, hovr'.trans hovr, rfl, rfl, rfl⟩
  case ctrlBefore =>
    obtain ⟨t, hrun, hbusy, hdone, -⟩ := run_then_engine (step_ctrl_write (s := { s with
      schedule := .host (.write (s.params.cceBase + 0x04) 4 v) :: .engine :: rest }) rfl hsrst) rfl hb
    exact ⟨t, hrun, hbusy, hdone⟩
  case ctrlAfter =>
    obtain ⟨t, hbusy, -, hparams, hsched, hrun⟩ := run_engine_then (s := { s with
      schedule := .engine :: .host (.write (s.params.cceBase + 0x04) 4 v) :: rest }) rfl hb
    have hwrite := step_ctrl_write (hsched.trans (by rw [hparams])) hsrst
    exact ⟨_, hrun _ hwrite, hbusy, if_pos hclear⟩

/-- Settles O59: the accesses change the host's side alone (`run_quiet`), on which no command depends
(`exec_hostSide`). -/
theorem pendingCommandCompletesUndisturbed : Obligations.PendingCommandCompletesUndisturbed := by
  intro s pre rest hb hq hs
  obtain ⟨r, st, v, hst, hrun⟩ := run_quiet pre 1 (.engine :: rest) s hb hq hs
  obtain ⟨u, hu, ht⟩ := exec_hostSide s.latched s r st rest v
  obtain ⟨u', hu', hbusy, hdone, -⟩ := everyCommandCompletesAndLeavesHostState s.latched s
  cases hu.symm.trans hu'
  have hstep := (step_of_schedule (s := s.hostSide r st (.engine :: rest) v) rfl).trans
    ((State.engineTurn_busy (s := s.hostSide r st rest v) hst).trans ht)
  exact ⟨_, u, hrun.trans (run_succ 0 hstep), hu, hbusy, hdone, rfl, rfl, rfl, rfl, rfl, rfl, rfl, rfl, rfl⟩

/-- Settles O60: every register offset of an argument field. -/
theorem commandLineEncodesAsItsWrites : Obligations.CommandLineEncodesAsItsWrites := by
  intro base i args
  refine congrArg (· ++ _) (List.map_congr_left fun x _ => ?_)
  obtain ⟨field, v⟩ := x
  cases field <;> rfl

end Sys2Proof.Machine
end

section
/-! SUPPORT. The unit after a CC_INIT, and the keystream by the number of bytes consumed since (41_chacha20.md R120,
R122, R126). -/

namespace Sys2Proof.Machine

open Sys2Proof.Claims

/-- A little-endian word of bytes that come from the data buffer (00_scope.md R14). -/
theorem leWordAt_readBytes (m : Memory) (a : Nat) {n i : Nat} (h : i + 3 < n) :
    leWordAt (m.readBytes a n) i =
      le32 (m.read (a + i)) (m.read (a + i + 1)) (m.read (a + i + 2)) (m.read (a + i + 3)) := by
  simp only [leWordAt, byteAt, m.readBytes_getD a h, m.readBytes_getD a (show i < n by omega),
    m.readBytes_getD a (show i + 1 < n by omega), m.readBytes_getD a (show i + 2 < n by omega), Nat.add_assoc]

/-- The initial state holds the counter 0 (41_chacha20.md R120). -/
@[simp] theorem counterOf_chachaInit (k n : List Byte) : counterOf (chachaInit k n) = 0#64 := by
  show (0 : Word) ++ (0 : Word) = 0#64
  rfl

@[simp] theorem withCounter_chachaInit_zero (k n : List Byte) : withCounter (chachaInit k n) 0#64 = chachaInit k n :=
  (congrArg _ (counterOf_chachaInit k n)).symm.trans (withCounter_counterOf _)

/-- The unit that CC_INIT leaves for a key and a nonce: none of its fields is an old one (41_chacha20.md R122). -/
def freshCc (k n : List Byte) : CcUnit :=
  { CcUnit.advance { CcUnit.zero with s := chachaInit k n } with keyed := true }

@[simp] theorem freshCc_keyed (k n : List Byte) : (freshCc k n).keyed = true := rfl

@[simp] theorem freshCc_ks (k n : List Byte) : (freshCc k n).ks = keystreamBlock (chachaInit k n) := rfl

@[simp] theorem freshCc_s (k n : List Byte) : (freshCc k n).s = withCounter (chachaInit k n) 1 := by
  show bumpCounter (chachaInit k n) = _
  rw [bumpCounter_eq, counterOf_chachaInit]
  rfl

/-- The key words of the fresh unit (41_chacha20.md R120). -/
theorem freshCc_keyWord (k n : List Byte) (i : Fin 8) :
    (freshCc k n).s.toList.getD (4 + i.val) 0 = leWordAt k (4 * i.val) := by
  rw [freshCc_s, List.getD_eq_getElem _ _ (by rw [Vector.length_toList]; omega), Vector.getElem_toList,
    withCounter_getElem _ _ _ (by omega), if_neg (by omega), if_neg (by omega)]
  fin_cases i <;> rfl

/-- A CC_INIT that passes its checks leaves the fresh unit (41_chacha20.md R122). -/
theorem execCcInit_fresh {s : State} (hk : s.argAuxlen = 32) (hn : s.argLen = 8) (h1 : s.InRange s.argAux 32)
    (h2 : s.InRange s.argSrc 8) :
    execCcInit s = .next (s.setCc
      (freshCc (s.dbuf.readBytes s.argAux 32) (s.dbuf.readBytes s.argSrc 8))).completed :=
  execCcInit_ok hk hn h1 h2

/-- A CC_INIT without error passed its checks (41_chacha20.md R122). -/
theorem execCcInit_inv {s t : State} (h : execCcInit s = .next t) (he : t.status.err = false) :
    t.cc = freshCc (s.dbuf.readBytes s.argAux 32) (s.dbuf.readBytes s.argSrc 8) := by
  by_cases hl : s.argAuxlen = 32 ∧ s.argLen = 8
  · by_cases hr : s.InRange s.argAux 32 ∧ s.InRange s.argSrc 8
    · cases h.symm.trans (execCcInit_fresh hl.1 hl.2 hr.1 hr.2)
      rfl
    · cases h.symm.trans (execCcInit_range hl.1 hl.2 (by tauto))
      cases he
  · cases h.symm.trans (execCcInit_length (by tauto))
    cases he

/-- A CC_COMBINE without error consumed its operand's bytes (41_chacha20.md R123). -/
theorem execCcCombine_inv {s t : State} (h : execCcCombine s = .next t) (he : t.status.err = false) :
    t.cc = s.cc.consumed s.argLen := by
  cases hk : s.cc.keyed
  · cases h.symm.trans (execCcCombine_misuse hk)
    cases he
  · by_cases hr : s.InRange s.argSrc s.argLen ∧ s.InRange s.argDst s.argLen
    · cases h.symm.trans (execCcCombine_ok hk hr.1 hr.2)
      exact combineLoop_unit _ _ _ _ _
    · cases h.symm.trans (execCcCombine_range hk (by tauto))
      cases he

/-- The unit depends only on how many bytes were consumed since the CC_INIT (41_chacha20.md R126). -/
theorem Consumed.eq_consumed {k n : List Byte} {N : Nat} {u : CcUnit} (h : Consumed k n N u) :
    u = (freshCc k n).consumed N := by
  induction h with
  | init s t hk hn h he => rw [execCcInit_inv h he, hk, hn, CcUnit.consumed]
  | combine N s t hp h he ih => rw [execCcCombine_inv h he, ih, CcUnit.consumed_add]

/-- Ahead of a unit that consumed `n` bytes is the same keystream from byte `n` on. -/
theorem streamByte_consumed (u : CcUnit) (n i : Nat) : streamByte (u.consumed n) i = streamByte u (n + i) := by
  rw [← CcUnit.consumed_keyByte, ← CcUnit.consumed_keyByte, CcUnit.consumed_add]

/-- Ahead of a fresh unit is the keystream of its key and nonce (41_chacha20.md R126). -/
theorem streamByte_fresh (k n : List Byte) (j : Nat) : streamByte (freshCc k n) j = keyStream k n j := by
  have hp : (freshCc k n).cur.toNat + j = j := Nat.zero_add j
  simp only [streamByte, keyStream, hp, freshCc_ks, freshCc_s, counterOf_withCounter, withCounter_withCounter]
  split
  next hlt => rw [Nat.div_eq_of_lt hlt, Nat.mod_eq_of_lt hlt, withCounter_chachaInit_zero]
  next hge =>
    have hblock : 1 + BitVec.ofNat 64 (j / 64 - 1) = BitVec.ofNat 64 (j / 64) := by
      rw [show (1 : BitVec 64) = BitVec.ofNat 64 1 from rfl, ← BitVec.ofNat_add]
      congr 1
      omega
    rw [hblock]

end Sys2Proof.Machine
end

section
/-! SUPPORT. The double-rounds and the serialization word by word and byte by byte (41_chacha20.md R121). -/

namespace Sys2Proof.Machine

open Sys2Proof.Claims

/-- The words of a state as the statements write a working array; there is none from 16 on. -/
def wordsOf (v : Vector Word 16) (n : Nat) : Word := v.toList.getD n 0

theorem wordsOf_eq_getElem (v : Vector Word 16) {n : Nat} (h : n < 16) : wordsOf v n = v[n] := by
  rw [wordsOf, List.getD_eq_getElem _ _ (by simpa using h), Vector.getElem_toList]

/-- Setting a word of a state updates the working array. -/
theorem wordsOf_set (v : Vector Word 16) (i : Fin 16) (x : Word) :
    wordsOf (v.set i x) = Function.update (wordsOf v) i x := by
  funext n
  by_cases hn : n < 16
  · rw [wordsOf_eq_getElem _ hn, Function.update_apply, wordsOf_eq_getElem _ hn, Vector.getElem_set]
    simp only [eq_comm]
  · rw [Function.update_of_ne (by omega)]
    simp [wordsOf, hn]

/-- A quarter-round, assignment by assignment, replaces its four words by the quarter-round of them (41_chacha20.md
R121). -/
theorem quarter_eq_update (w : Nat → Word) {a b c d : Nat} (h : [a, b, c, d].Nodup) {x y z t : Word}
    (hq : quarterWords (w a) (w b) (w c) (w d) = (x, y, z, t)) :
    quarter w a b c d =
      Function.update (Function.update (Function.update (Function.update w a x) b y) c z) d t := by
  simp only [List.nodup_cons, List.mem_cons, List.not_mem_nil, or_false, not_or, List.nodup_nil, not_false_eq_true,
    and_true] at h
  obtain ⟨⟨hab, hac, had⟩, ⟨hbc, hbd⟩, hcd⟩ := h
  cases hq
  funext n
  obtain rfl | rfl | rfl | rfl | ⟨ha, hb, hc, hd⟩ : n = a ∨ n = b ∨ n = c ∨ n = d ∨ n ≠ a ∧ n ≠ b ∧ n ≠ c ∧ n ≠ d := by
    omega
  all_goals simp [quarter, *, Ne.symm]

/-- A quarter-round of a state that a working array holds (41_chacha20.md R121). -/
theorem quarter_wordsOf {w : Nat → Word} {v : Vector Word 16} (h : w = wordsOf v) (a b c d : Fin 16)
    (hn : [a.val, b.val, c.val, d.val].Nodup) : quarter w a b c d = wordsOf (quarterRound v a b c d) := by
  subst h
  rcases hq : quarterWords v[a] v[b] v[c] v[d] with ⟨x, y, z, t⟩
  have hq' : quarterWords (wordsOf v a) (wordsOf v b) (wordsOf v c) (wordsOf v d) = (x, y, z, t) := by
    simpa only [wordsOf_eq_getElem v (Fin.isLt _), Fin.getElem_fin] using hq
  rw [quarter_eq_update _ hn hq', quarterRound, hq]
  simp only [wordsOf_set]

/-- The groups of a double-round, in their order (41_chacha20.md R121). -/
theorem groups_wordsOf (v : Vector Word 16) :
    groups.foldl (fun w g => quarter w g.1 g.2.1 g.2.2.1 g.2.2.2) (wordsOf v) = wordsOf (doubleRound v) := by
  have h1 := quarter_wordsOf (v := v) rfl 0 4 8 12 (by decide)
  have h2 := quarter_wordsOf h1 1 5 9 13 (by decide)
  have h3 := quarter_wordsOf h2 2 6 10 14 (by decide)
  have h4 := quarter_wordsOf h3 3 7 11 15 (by decide)
  have h5 := quarter_wordsOf h4 0 5 10 15 (by decide)
  have h6 := quarter_wordsOf h5 1 6 11 12 (by decide)
  have h7 := quarter_wordsOf h6 2 7 8 13 (by decide)
  exact quarter_wordsOf h7 3 4 9 14 (by decide)

theorem rounds_wordsOf (n : Nat) (v : Vector Word 16) : rounds n (wordsOf v) = wordsOf (doubleRounds n v) := by
  induction n generalizing v with
  | zero => rfl
  | succ n ih => rw [rounds, groups_wordsOf, ih, doubleRounds]

/-- A word of the block: the double-rounds, and the original word added (41_chacha20.md R121). -/
theorem wordsOf_blockWords (v : Vector Word 16) {i : Nat} (h : i < 16) :
    wordsOf (blockWords v) i = rounds 10 (wordsOf v) i + wordsOf v i := by
  simp only [rounds_wordsOf, wordsOf_eq_getElem _ h, blockWords, Vector.getElem_zipWith]

/-- Byte `j` of word `i` of words serialized little-endian (00_scope.md R14). -/
theorem flatMap_le32bytes_getD (l : List Word) {i j : Nat} (hi : i < l.length) (hj : j < 4) :
    (l.flatMap le32bytes).getD (4 * i + j) 0 = (l.getD i 0).extractLsb' (8 * j) 8 := by
  induction l generalizing i with
  | nil => exact absurd hi (Nat.not_lt_zero i)
  | cons w l ih =>
    rw [List.flatMap_cons]
    cases i with
    | zero =>
      rw [List.getD_append _ _ _ _ (by simpa using hj)]
      interval_cases j <;> rfl
    | succ i =>
      rw [List.getD_append_right _ _ _ _ (by rw [le32bytes_length]; omega), List.getD_cons_succ,
        ← ih (by simpa using hi), le32bytes_length]
      congr 1
      omega

/-- Byte `j` of word `i` of a keystream block (41_chacha20.md R121). -/
theorem keystreamBlock_getD (v : Vector Word 16) {i j : Nat} (hi : i < 16) (hj : j < 4) :
    (keystreamBlock v).toList.getD (4 * i + j) 0 = (rounds 10 (wordsOf v) i + wordsOf v i).extractLsb' (8 * j) 8 := by
  rw [← wordsOf_blockWords v hi]
  exact flatMap_le32bytes_getD _ (by simpa using hi) hj

end Sys2Proof.Machine
end

section
/-! THEOREMS. The obligations about CC_INIT, the keystream and Advance (41_chacha20.md). -/

namespace Sys2Proof.Machine

open Sys2Proof.Claims

/-- Settles O20: the equations of CC_INIT, with the fresh unit word by word. -/
theorem ccInitBuildsAKeyedEngine : Obligations.CcInitBuildsAKeyedEngine := by
  intro s
  refine ⟨execCcInit_length, execCcInit_range, fun hk hn h1 h2 =>
    ⟨_, execCcInit_fresh hk hn h1 h2, rfl, rfl, rfl, rfl, rfl, rfl, fun i => ?key, ?low, ?high,
      leWordAt_readBytes _ _ (by decide), leWordAt_readBytes _ _ (by decide), ?block⟩⟩
  case key =>
    have hword := freshCc_keyWord (s.dbuf.readBytes s.argAux 32) (s.dbuf.readBytes s.argSrc 8) i
    exact hword.trans (leWordAt_readBytes _ _ (by omega))
  case low | high =>
    rw [freshCc_s, withCounter_getElem _ _ _ (by decide)]
    rfl
  case block => simp

/-- Settles O22: the unit consumed `N` bytes, so that `KS(N + i)` is `i` bytes ahead of it, and the input bytes are the
old ones. -/
theorem keystreamIgnoresChunking : Obligations.KeystreamIgnoresChunking := by
  intro k n N s hconsumed h1 h2 hover
  have hcc := Consumed.eq_consumed hconsumed
  have hkeyed : s.cc.keyed = true := by rw [hcc, ((freshCc k n).consumed_spec N).1, freshCc_keyed]
  obtain ⟨-, -, hcombine⟩ := ccCombineXorsTheKeystream s
  obtain ⟨u, m, hexec, hbyte, -⟩ := hcombine hkeyed h1 h2
  refine ⟨_, hexec, rfl, fun i hi => ?_⟩
  rw [← streamByte_fresh, ← streamByte_consumed, ← hcc]
  exact (hbyte i hi).trans (by rw [if_neg (by omega)])

/-- Settles O23: the block byte by byte, and the counter by `bumpCounter_eq`. -/
theorem advanceMakesTheBlockAndCounts : Obligations.AdvanceMakesTheBlockAndCounts := by
  intro u
  refine ⟨fun i hi j hj => keystreamBlock_getD u.s hi hj, rfl, rfl, ?counter,
    fun i h12 h13 => u.advance_s_getElem i.isLt h12 h13⟩
  case counter =>
    show counterOf (bumpCounter u.s) = _
    rw [bumpCounter_eq, counterOf_withCounter]

end Sys2Proof.Machine
end

section
/-! SUPPORT. The message that a SHA unit has absorbed since its SHA1_CREATE (42_sha1.md R148). -/

namespace Sys2Proof.Machine

open Sys2Proof.Claims

/-- The unit is ACTIVE, holds the message, and has counted its bits (42_sha1.md R142, R144). -/
def ShaUnit.HasAbsorbed (u : ShaUnit) (m : List Byte) : Prop :=
  u.st = .active ∧ u.Holds sha1InitialHash m ∧ u.bitlen = BitVec.ofNat 64 (8 * m.length)

/-- A fresh unit has absorbed nothing (42_sha1.md R144). -/
theorem ShaUnit.hasAbsorbed_nil :
    ({ ShaUnit.zeroed .active with h := sha1InitialHash } : ShaUnit).HasAbsorbed [] :=
  ⟨rfl, ⟨rfl, rfl, fun _ _ hi => absurd hi (Nat.not_lt_zero _)⟩, rfl⟩

/-- Absorbing adds the bytes to the message and their bits to the count (42_sha1.md R142). -/
theorem ShaUnit.HasAbsorbed.absorb {u : ShaUnit} {m : List Byte} (h : u.HasAbsorbed m) (bs : List Byte) :
    (u.absorb bs).HasAbsorbed (m ++ bs) := by
  obtain ⟨hst, hholds, hbits⟩ := h
  refine ⟨(u.absorb_st bs).trans hst, ShaUnit.absorb_holds hholds bs, ?_⟩
  rw [ShaUnit.absorb_bitlen, hbits, List.length_append, Nat.mul_add, BitVec.ofNat_add]

/-- A SHA1_UPDATE without error absorbed its operand (42_sha1.md R145). -/
theorem execSha1Update_inv {s t : State} (h : execSha1Update s = .next t) (he : t.status.err = false) :
    t.sha = s.sha.absorb (s.dbuf.readBytes s.argSrc s.argLen) := by
  by_cases hs : s.sha.st = .active
  · by_cases hr : s.InRange s.argSrc s.argLen
    · cases h.symm.trans (execSha1Update_ok hs hr)
      rfl
    · cases h.symm.trans (execSha1Update_range hs hr)
      cases he
  · cases h.symm.trans (execSha1Update_misuse hs)
    cases he

/-- However a message is cut into updates, the unit has absorbed it (42_sha1.md R148). -/
theorem Absorbed.hasAbsorbed {m : List Byte} {u : ShaUnit} (h : Absorbed m u) : u.HasAbsorbed m := by
  induction h with
  | create s t h =>
    cases h
    exact ShaUnit.hasAbsorbed_nil
  | update m s t hp h he ih =>
    rw [execSha1Update_inv h he]
    exact ih.absorb _

/-- The digest of a unit is SHA-1 of the message it has absorbed (42_sha1.md R143). -/
theorem ShaUnit.HasAbsorbed.finalize_eq {u : ShaUnit} {m : List Byte} (h : u.HasAbsorbed m) :
    u.finalize = sha1Of m := by
  obtain ⟨-, hholds, hbits⟩ := h
  exact congrArg digestBytes (ShaUnit.finalHash_holds hholds (padded m) (by rw [hbits]; rfl))

end Sys2Proof.Machine
end

section
/-! SUPPORT. A run over blocks that undoes another (40_block_modes.md R108): block by block it reads what the other
wrote, writes what the other read, and carries what the other carried. -/

namespace Sys2Proof.Machine

open Sys2Proof.Claims

/-- Two reads of `n` blocks agree just when every block does. -/
theorem Memory.readBytes_blocks_iff {m m' : Memory} {a a' b n : Nat} :
    m.readBytes a (n * b) = m'.readBytes a' (n * b) ↔
      ∀ j < n, m.readBytes (a + j * b) b = m'.readBytes (a' + j * b) b := by
  induction n with
  | zero => simp [Memory.readBytes]
  | succ n ih =>
    rw [Nat.succ_mul, Memory.readBytes_add, Memory.readBytes_add, Nat.forall_lt_succ_right, ← ih]
    exact ⟨fun h => List.append_inj h (by simp), fun ⟨hinit, hlast⟩ => congrArg₂ _ hinit hlast⟩

/-- A step over a block undoes another: from the carried bytes and the block written it answers the block read, and it
carries the same. -/
def Undoes (gD gE : List Byte → List Byte → List Byte × List Byte) (b : Nat) (P : List Byte → Prop) : Prop :=
  ∀ p x, P p → x.length = b → gD p (gE p x).1 = (x, (gE p x).2)

section
variable {gE gD : List Byte → List Byte → List Byte × List Byte} {b src dst src' dst' n : Nat} {p : List Byte}
  {m m' : Memory} {P : List Byte → Prop}

/-- A run over the output of another, whose ranges do not overlap, carries what the other carried. -/
theorem blockRun_undo_carried (hp : P p)
    (hE : ∀ p x, P p → x.length = b → P (gE p x).2 ∧ (gE p x).1.length = b)
    (hD : ∀ p x, P p → x.length = b → P (gD p x).2 ∧ (gD p x).1.length = b) (hundo : Undoes gD gE b P)
    (hd' : src' + n * b ≤ dst' ∨ dst' + n * b ≤ src')
    (hm : ∀ j < n, m'.readBytes (src' + j * b) b = (blockRun gE b src dst p m n).2.readBytes (dst + j * b) b) {j : Nat}
    (hj : j ≤ n) : (blockRun gD b src' dst' p m' j).1 = (blockRun gE b src dst p m j).1 := by
  induction j with
  | zero => rfl
  | succ j ih =>
    have hcarried := blockRun_carried (src := src) (dst := dst) (m := m) P hp (fun p x hp hx => (hE p x hp hx).1) j
    rw [blockRun, blockRun, blockRun_input P hp hD hj hd', hm j hj, blockRun_output P hp hE hj, ih (by omega),
      hundo _ _ hcarried (by simp)]

/-- A run over the output of another, both over ranges that do not overlap, writes what the other read. -/
theorem blockRun_undo (hp : P p)
    (hE : ∀ p x, P p → x.length = b → P (gE p x).2 ∧ (gE p x).1.length = b)
    (hD : ∀ p x, P p → x.length = b → P (gD p x).2 ∧ (gD p x).1.length = b) (hundo : Undoes gD gE b P)
    (hd : src + n * b ≤ dst ∨ dst + n * b ≤ src) (hd' : src' + n * b ≤ dst' ∨ dst' + n * b ≤ src')
    (hm : m'.readBytes src' (n * b) = (blockRun gE b src dst p m n).2.readBytes dst (n * b)) :
    (blockRun gD b src' dst' p m' n).2.readBytes dst' (n * b) = m.readBytes src (n * b) := by
  rw [Memory.readBytes_blocks_iff] at hm ⊢
  intro j hj
  have hcarried := blockRun_carried (src := src) (dst := dst) (m := m) P hp (fun p x hp hx => (hE p x hp hx).1) j
  rw [blockRun_output P hp hD hj, blockRun_input P hp hD hj hd', hm j hj, blockRun_output P hp hE hj,
    blockRun_undo_carried hp hE hD hundo hd' hm hj.le, hundo _ _ hcarried (by simp), blockRun_input P hp hE hj hd]

end

/-- ECB decryption undoes ECB encryption on a block (40_block_modes.md R104, R105). -/
theorem undoes_ecb {enc dec : List Byte → List Byte} {b : Nat} (h : ∀ x, x.length = b → dec (enc x) = x) :
    Undoes (fun _ c => (dec c, [])) (fun _ x => (enc x, [])) b fun _ => True := by
  intro p x _ hx
  simp [h x hx]

/-- CBC decryption undoes CBC encryption on a block: the XOR with the carried block cancels (40_block_modes.md R106,
R107). -/
theorem undoes_cbc {enc dec : List Byte → List Byte} {b : Nat} (h : ∀ x, x.length = b → dec (enc x) = x) :
    Undoes (fun p c => (xorBytes (dec c) p, c)) (fun p x => (enc (xorBytes x p), enc (xorBytes x p))) b
      fun p => p.length = b := by
  intro p x hp hx
  have hxor : dec (enc (xorBytes x p)) = xorBytes x p := h _ (by simp [hp, hx])
  simp only [hxor, xorBytes_cancel (hx.trans hp.symm)]

/-! The loops, over an operand of `len` bytes. -/

section
variable {enc dec : List Byte → List Byte} {b n len src dst src' dst' : Nat} {m m' : Memory}

/-- ECB over the output of ECB gives the input back (40_block_modes.md R108). -/
theorem ecbLoop_undo (henc : ∀ x, (enc x).length = b) (hdec : ∀ x, (dec x).length = b)
    (h : ∀ x, x.length = b → dec (enc x) = x) (hl : n * b = len) (hd : Disjoint src dst len)
    (hd' : Disjoint src' dst' len)
    (hm : m'.readBytes src' len = (ecbLoop enc b n src dst m).readBytes dst len) :
    (ecbLoop dec b n src' dst' m').readBytes dst' len = m.readBytes src len := by
  subst hl
  rw [ecbLoop_eq_run] at hm ⊢
  exact blockRun_undo trivial (fun _ x _ _ => ⟨trivial, henc x⟩) (fun _ x _ _ => ⟨trivial, hdec x⟩) (undoes_ecb h)
    hd hd' hm

/-- CBC over the output of CBC, from the same IV, gives the input back (40_block_modes.md R108). -/
theorem cbcLoop_undo {iv : List Byte} (hiv : iv.length = b) (henc : ∀ x, (enc x).length = b)
    (hdec : ∀ x, (dec x).length = b) (h : ∀ x, x.length = b → dec (enc x) = x) (hl : n * b = len)
    (hd : Disjoint src dst len) (hd' : Disjoint src' dst' len)
    (hm : m'.readBytes src' len = (cbcEncLoop enc b n src dst iv m).readBytes dst len) :
    (cbcDecLoop dec b n src' dst' iv m').readBytes dst' len = m.readBytes src len := by
  subst hl
  rw [cbcEncLoop_eq_run] at hm
  rw [cbcDecLoop_eq_run]
  exact blockRun_undo hiv (fun _ _ _ _ => ⟨henc _, henc _⟩) (fun p c hp hc => ⟨hc, by simp [hdec, hp]⟩) (undoes_cbc h)
    hd hd' hm

end

end Sys2Proof.Machine
end

section
/-! THEOREMS. The obligations about SHA1_CREATE, whole messages and their round trips (42_sha1.md, 40_block_modes.md). -/

namespace Sys2Proof.Machine

open Sys2Proof.Claims

/-- Settles O19: the unit is the zeroed ACTIVE unit with the initial hash value. -/
theorem sha1CreateLoadsAFreshEngine : Obligations.Sha1CreateLoadsAFreshEngine := by
  intro s
  exact ⟨{ ShaUnit.zeroed .active with h := sha1InitialHash }, rfl, rfl, rfl, rfl, rfl, rfl,
    fun i => Vector.getElem_replicate _, rfl, rfl, rfl⟩

/-- Settles O27: the unit has absorbed the message, and its digest is written at DST. -/
theorem digestIsSha1OfTheWholeMessage : Obligations.DigestIsSha1OfTheWholeMessage := by
  intro m s habs hr
  have h := Absorbed.hasAbsorbed habs
  refine ⟨_, execSha1Digest_ok h.1 hr, rfl, ?_⟩
  exact (Memory.readBytes_writeBytes_finalize _ _ _).trans h.finalize_eq

/-- Settles O32: both modes are runs over blocks, and the run of the decryption undoes that of the encryption
(`blockRun_undo`). -/
theorem decryptionUndoesEncryption : Obligations.DecryptionUndoesEncryption := by
  intro port s t s' hinv hdisj hparams hkeyed hkey hlen hsrc hdisj' h1 h2
  have hblocks (hl : s.argLen % s.params.blockSize = 0) :
      s.argLen / s.params.blockSize * s.params.blockSize = s.argLen := Nat.div_mul_cancel (Nat.dvd_of_mod_eq_zero hl)
  have henc := portEnc_length port s.params.blockSize s.bc.loadedKey
  have hdec := portDec_length port s.params.blockSize s.bc.loadedKey
  rw [← hlen] at h1 h2
  refine ⟨fun h he hiv hivRange hivBytes => ?cbc, fun h he => ?ecb⟩
  case cbc =>
    obtain ⟨hk, hi, hl, hr0, hr1, hr2⟩ := cbcWith_inv h he
    cases h.symm.trans (cbcWith_ok hk hi hl hr0 hr1 hr2)
    refine ⟨_, cbcWith_ok (hkeyed.trans hk) (by rw [hiv, hi, hparams]) (by rwa [hlen, hparams]) (by rwa [hparams]) h1
      h2, rfl, ?_⟩
    rw [hparams, hlen, hkey, hivBytes]
    exact cbcLoop_undo (by simp) henc hdec hinv (hblocks hl) hdisj hdisj' hsrc
  case ecb =>
    obtain ⟨hk, hl, hr1, hr2⟩ := ecbWith_inv h he
    cases h.symm.trans (ecbWith_ok hk hl hr1 hr2)
    refine ⟨_, ecbWith_ok (hkeyed.trans hk) (by rwa [hlen, hparams]) h1 h2, rfl, ?_⟩
    rw [hparams, hlen, hkey]
    exact ecbLoop_undo henc hdec hinv (hblocks hl) hdisj hdisj' hsrc

end Sys2Proof.Machine
end
